-- ==== Sys2Proof/Word.lean ====
section
/-! DEFINITION. The widths of the machine (spec 00_scope.md R11, R13): bytes, 64-bit words, 64-bit virtual
addresses, register numbers. -/
namespace Sys2Proof

/-- A byte is 8 bits (10_state.md R35). -/
abbrev Byte := BitVec 8

/-- A 64-bit register or instruction word (`XLEN` = 64, 00_scope.md R11). -/
abbrev Word := BitVec 64

/-- A 64-bit virtual address (`VALEN` = `PCLEN` = 64, 00_scope.md R11). -/
abbrev Addr := BitVec 64

/-- The number of a general register, 0..3 (`NREGS` = 4, 00_scope.md R11, 10_state.md R20). -/
abbrev Reg := Fin 4

end Sys2Proof
end

