-- ==== Sys2Proof/Config.lean ====
section
/-! DEFINITION. What construction fixes (spec 00_scope.md R11, R12; 10_state.md R31): the configuration record, its
default values, the constants of the source, and the one value the spec leaves free. -/
namespace Sys2Proof

/-- `ILEN`: bytes in an instruction (00_scope.md R12, 30_encoding.md R120). -/
def ilen : Nat := 8

/-- `PAGE_SIZE`: bytes in a MemoryPage (00_scope.md R11). -/
def pageSize : Nat := 4096

/-- `VICTIM_POLICY`: what becomes of a line evicted from a level that is not the last (00_scope.md R12, 20_memory.md
R93). -/
inductive VictimPolicy where
  | drop
  | demote
deriving DecidableEq, Repr

/-- The configuration of one cache level: `SIZE[k]` in bytes and `ASSOC[k]`, which is recorded and read by no rule
(00_scope.md R12, 20_memory.md R84). -/
structure LevelConfig where
  size  : Nat
  assoc : Int
deriving DecidableEq, Repr

/-- The configuration (00_scope.md R12, 10_state.md R31). `N_LEVELS` is `levels.length`; the entry at position
`k - 1` is level `k`'s. Fixed when the core is released from reset. -/
structure Config where
  levels       : List LevelConfig
  lineSize     : Nat
  victimPolicy : VictimPolicy
  /-- `MAX_PAGES`; `none` is unbounded. -/
  maxPages     : Option Nat
  entryPc      : Addr
  charMax      : Nat
deriving DecidableEq, Repr

/-- The "value here" column of 00_scope.md R12: 3 levels of 32 KiB, 512 KiB and 32 MiB, 64-byte lines, victims dropped,
pages unbounded, `ENTRY_PC` = 0, `CHAR_MAX` = 0x10FFFF. DESIGN CHOICE (log 2, unsafe): `ASSOC[k]`, for which the spec has
no default, is 0. -/
def Config.default : Config where
  levels       := [⟨32768, 0⟩, ⟨524288, 0⟩, ⟨33554432, 0⟩]
  lineSize     := 64
  victimPolicy := .drop
  maxPages     := none
  entryPc      := 0
  charMax      := 0x10FFFF

/-- FREE VALUE (DESIGN CHOICE, log 7, safe): what `READ_KEYBOARD` puts in a register for a character code that does not fit 64 bits.
45_io.md R215 writes `zext_64(c)`, which states no result for such a code, while 00_scope.md R12 allows any `CHAR_MAX`.
No body: nothing can be proved of its values. -/
opaque Config.wideCharCode : Nat → Word

end Sys2Proof
end

