-- ==== Sys2Proof/Syntax.lean ====
section
/-! DEFINITION. The instructions: one constructor of `Instr` for each row of spec/opcode_table.json (spec 30_encoding.md
R127). A constructor carries the fields its opcode uses (R125), as the format's bits: an 8-bit register field, a
32-bit payload. -/
namespace Sys2Proof

/-- An 8-bit register field of the instruction word (30_encoding.md R121). Legal values are 0..3; a greater one in a
used field raises `RegisterIndexOutOfRange` (R130). -/
abbrev RegField := BitVec 8

/-- The 32-bit payload field (30_encoding.md R121). -/
abbrev Payload := BitVec 32

/-- The 28 opcodes by name, in the order of 30_encoding.md R127. -/
inductive Opcode where
  | add | sub | mul | div
  | and | or | xor | not
  | movi | movr | movl | movli | movs | movsi
  | jmp | jmpi | je | jei | jne | jnei | jge | jgei | jl | jli
  | cmp
  | readKeyboard | writeScreen
  | halt
deriving DecidableEq, Repr

/-- The instructions with the fields each uses (30_encoding.md R125). Unused fields are ignored (R126) and are not
kept, except the payload of `div`: the condition `DivisionByZero` records the whole fetched word (40_arithmetic.md
R163), so the word must be recoverable from the instruction (DEDUCED, log 9, safe). -/
inductive Instr where
  | add (rd rs1 rs2 : RegField)
  | sub (rd rs1 rs2 : RegField)
  | mul (rd rs1 rs2 : RegField)
  | div (rd rs1 rs2 : RegField) (unused : Payload)
  | and (rd rs1 rs2 : RegField)
  | or (rd rs1 rs2 : RegField)
  | xor (rd rs1 rs2 : RegField)
  | not (rd rs1 : RegField)
  | movi (rd : RegField) (imm : Payload)
  | movr (rd rs1 : RegField)
  | movl (rd : RegField) (addr : Payload)
  | movli (rd : RegField) (addr : Payload)
  | movs (rs1 : RegField) (addr : Payload)
  | movsi (rs1 : RegField) (addr : Payload)
  | jmp (addr : Payload)
  | jmpi (addr : Payload)
  | je (addr : Payload)
  | jei (addr : Payload)
  | jne (addr : Payload)
  | jnei (addr : Payload)
  | jge (addr : Payload)
  | jgei (addr : Payload)
  | jl (addr : Payload)
  | jli (addr : Payload)
  | cmp (rs1 rs2 : RegField)
  | readKeyboard (rd : RegField)
  | writeScreen (rs1 : RegField)
  | halt
deriving DecidableEq, Repr

/-- The 8-bit field that names register `r`. -/
def Reg.field (r : Reg) : RegField := BitVec.ofNat 8 r.val

end Sys2Proof
end

