-- ==== Sys2Proof/WellFormed.lean ====
section
/-! DEFINITION. Which instructions have legal operands (spec 30_encoding.md R125, R130): every used register field holds
0..3. The payload is never illegal. -/
namespace Sys2Proof

/-- "Destination/source indices are register-file slots 0–3" (30_encoding.md R125). -/
def RegField.legal (f : RegField) : Bool := f.toNat < 4

/-- The register fields an instruction uses, in the order `rd`, `rs1`, `rs2` in which they are checked
(30_encoding.md R125, R130). -/
def Instr.usedFields : Instr → List RegField
  | .add rd rs1 rs2 => [rd, rs1, rs2]
  | .sub rd rs1 rs2 => [rd, rs1, rs2]
  | .mul rd rs1 rs2 => [rd, rs1, rs2]
  | .div rd rs1 rs2 _ => [rd, rs1, rs2]
  | .and rd rs1 rs2 => [rd, rs1, rs2]
  | .or rd rs1 rs2 => [rd, rs1, rs2]
  | .xor rd rs1 rs2 => [rd, rs1, rs2]
  | .not rd rs1 => [rd, rs1]
  | .movi rd _ => [rd]
  | .movr rd rs1 => [rd, rs1]
  | .movl rd _ => [rd]
  | .movli rd _ => [rd]
  | .movs rs1 _ => [rs1]
  | .movsi rs1 _ => [rs1]
  | .jmp _ => []
  | .jmpi _ => []
  | .je _ => []
  | .jei _ => []
  | .jne _ => []
  | .jnei _ => []
  | .jge _ => []
  | .jgei _ => []
  | .jl _ => []
  | .jli _ => []
  | .cmp rs1 rs2 => [rs1, rs2]
  | .readKeyboard rd => [rd]
  | .writeScreen rs1 => [rs1]
  | .halt => []

/-- Every used register field is legal: no `RegisterIndexOutOfRange` (30_encoding.md R130). -/
def Instr.wellFormed (i : Instr) : Bool := i.usedFields.all RegField.legal

end Sys2Proof
end

