-- ==== Sys2Proof/Decode.lean ====
section
/-! DEFINITION. Instruction words: byte order, fields, the opcode map, decoding and encoding (spec 30_encoding.md R120 to
R127, R133, R140; 20_memory.md R53, R54). -/
namespace Sys2Proof

/-! ## Byte order -/

/-- The value whose bits `[8i+7:8i]` are the `i`-th byte of the list: little-endian assembly (20_memory.md R53, R54,
R101). Bytes past the eighth do not count. -/
def wordOfBytes : List Byte → Word
  | [] => 0
  | b :: bs => (wordOfBytes bs <<< 8) ||| b.setWidth 64

/-- The eight bytes of a word, bits 7:0 first (20_memory.md R54, R102). -/
def bytesOfWord (w : Word) : List Byte :=
  [w.extractLsb' 0 8, w.extractLsb' 8 8, w.extractLsb' 16 8, w.extractLsb' 24 8,
   w.extractLsb' 32 8, w.extractLsb' 40 8, w.extractLsb' 48 8, w.extractLsb' 56 8]

/-! ## Fields -/

/-- The five fields of the one format (30_encoding.md R121). -/
structure Fields where
  op      : BitVec 8
  rd      : RegField
  rs1     : RegField
  rs2     : RegField
  payload : Payload
deriving DecidableEq, Repr

/-- Field extraction, total on every word (30_encoding.md R123). -/
def fieldsOfWord (w : Word) : Fields where
  op      := w.extractLsb' 56 8
  rd      := w.extractLsb' 48 8
  rs1     := w.extractLsb' 40 8
  rs2     := w.extractLsb' 32 8
  payload := w.extractLsb' 0 32

/-- `w = {op, rd, rs1, rs2, payload}` (30_encoding.md R121). -/
def wordOfFields (f : Fields) : Word := f.op ++ f.rd ++ f.rs1 ++ f.rs2 ++ f.payload

/-! ## The opcode map -/

/-- The opcode map (30_encoding.md R127), as one table. -/
def opcodeMap : List (BitVec 8 × Opcode) :=
  [(0x10, .add), (0x11, .sub), (0x12, .mul), (0x13, .div),
   (0x20, .and), (0x21, .or), (0x22, .xor), (0x23, .not),
   (0x30, .movi), (0x31, .movr), (0x32, .movl), (0x33, .movli), (0x34, .movs), (0x35, .movsi),
   (0x40, .jmp), (0x41, .jmpi), (0x42, .je), (0x43, .jei), (0x44, .jne), (0x45, .jnei),
   (0x46, .jge), (0x47, .jgei), (0x48, .jl), (0x49, .jli),
   (0x50, .cmp),
   (0x60, .readKeyboard), (0x61, .writeScreen),
   (0x70, .halt)]

/-- The opcode a value of the `op` field selects, if any (30_encoding.md R127, R133). -/
def opcodeOfNumber (n : BitVec 8) : Option Opcode := (opcodeMap.find? (fun r => r.1 == n)).map (·.2)

/-- The number the map gives an opcode (every opcode has one: `Laws.opcodeOfNumber_numberOfOpcode`). -/
def numberOfOpcode (o : Opcode) : BitVec 8 := ((opcodeMap.find? (fun r => r.2 == o)).map (·.1)).getD 0

/-! ## Decoding -/

/-- Why a sequence of bytes is not an instruction. A register field out of range is not found here: it is found by the
meaning of the instruction, before anything else (30_encoding.md R130 step 3; DEDUCED, log 10, safe). -/
inductive DecodeError where
  /-- The `op` field is none of the 28 opcodes (30_encoding.md R133): the core raises `InvalidOpcode`. -/
  | invalidOpcode
  /-- Fewer than 8 bytes were given: never the case for a fetched instruction. -/
  | tooShort
deriving DecidableEq, Repr

/-- The instruction an opcode makes of the fields it uses (30_encoding.md R125); unused fields are dropped (R126). -/
def buildInstr (f : Fields) : Opcode → Instr
  | .add => .add f.rd f.rs1 f.rs2
  | .sub => .sub f.rd f.rs1 f.rs2
  | .mul => .mul f.rd f.rs1 f.rs2
  | .div => .div f.rd f.rs1 f.rs2 f.payload
  | .and => .and f.rd f.rs1 f.rs2
  | .or => .or f.rd f.rs1 f.rs2
  | .xor => .xor f.rd f.rs1 f.rs2
  | .not => .not f.rd f.rs1
  | .movi => .movi f.rd f.payload
  | .movr => .movr f.rd f.rs1
  | .movl => .movl f.rd f.payload
  | .movli => .movli f.rd f.payload
  | .movs => .movs f.rs1 f.payload
  | .movsi => .movsi f.rs1 f.payload
  | .jmp => .jmp f.payload
  | .jmpi => .jmpi f.payload
  | .je => .je f.payload
  | .jei => .jei f.payload
  | .jne => .jne f.payload
  | .jnei => .jnei f.payload
  | .jge => .jge f.payload
  | .jgei => .jgei f.payload
  | .jl => .jl f.payload
  | .jli => .jli f.payload
  | .cmp => .cmp f.rs1 f.rs2
  | .readKeyboard => .readKeyboard f.rd
  | .writeScreen => .writeScreen f.rs1
  | .halt => .halt

/-- Decoding a fetched word (30_encoding.md R130 steps 1 and 2). -/
def decode (w : Word) : Except DecodeError Instr :=
  match opcodeOfNumber (fieldsOfWord w).op with
  | some o => .ok (buildInstr (fieldsOfWord w) o)
  | none => .error .invalidOpcode

/-- Decoding from bytes as they lie in memory, lowest address first (30_encoding.md R122). -/
def decodeBytes (bs : List Byte) : Except DecodeError Instr :=
  if bs.length < ilen then .error .tooShort else decode (wordOfBytes (bs.take ilen))

/-! ## Encoding -/

/-- The opcode of an instruction. -/
def Instr.opcode : Instr → Opcode
  | .add _ _ _ => .add
  | .sub _ _ _ => .sub
  | .mul _ _ _ => .mul
  | .div _ _ _ _ => .div
  | .and _ _ _ => .and
  | .or _ _ _ => .or
  | .xor _ _ _ => .xor
  | .not _ _ => .not
  | .movi _ _ => .movi
  | .movr _ _ => .movr
  | .movl _ _ => .movl
  | .movli _ _ => .movli
  | .movs _ _ => .movs
  | .movsi _ _ => .movsi
  | .jmp _ => .jmp
  | .jmpi _ => .jmpi
  | .je _ => .je
  | .jei _ => .jei
  | .jne _ => .jne
  | .jnei _ => .jnei
  | .jge _ => .jge
  | .jgei _ => .jgei
  | .jl _ => .jl
  | .jli _ => .jli
  | .cmp _ _ => .cmp
  | .readKeyboard _ => .readKeyboard
  | .writeScreen _ => .writeScreen
  | .halt => .halt

/-- The fields below `op` of an instruction's word, "with every unused register field 0 and an unused payload 0"
(30_encoding.md R140; DIV's payload is kept: DEDUCED, log 9, safe). -/
def Instr.operands : Instr → BitVec 8 → Fields
  | .add rd rs1 rs2, op => ⟨op, rd, rs1, rs2, 0⟩
  | .sub rd rs1 rs2, op => ⟨op, rd, rs1, rs2, 0⟩
  | .mul rd rs1 rs2, op => ⟨op, rd, rs1, rs2, 0⟩
  | .div rd rs1 rs2 unused, op => ⟨op, rd, rs1, rs2, unused⟩
  | .and rd rs1 rs2, op => ⟨op, rd, rs1, rs2, 0⟩
  | .or rd rs1 rs2, op => ⟨op, rd, rs1, rs2, 0⟩
  | .xor rd rs1 rs2, op => ⟨op, rd, rs1, rs2, 0⟩
  | .not rd rs1, op => ⟨op, rd, rs1, 0, 0⟩
  | .movi rd imm, op => ⟨op, rd, 0, 0, imm⟩
  | .movr rd rs1, op => ⟨op, rd, rs1, 0, 0⟩
  | .movl rd addr, op => ⟨op, rd, 0, 0, addr⟩
  | .movli rd addr, op => ⟨op, rd, 0, 0, addr⟩
  | .movs rs1 addr, op => ⟨op, 0, rs1, 0, addr⟩
  | .movsi rs1 addr, op => ⟨op, 0, rs1, 0, addr⟩
  | .jmp addr, op => ⟨op, 0, 0, 0, addr⟩
  | .jmpi addr, op => ⟨op, 0, 0, 0, addr⟩
  | .je addr, op => ⟨op, 0, 0, 0, addr⟩
  | .jei addr, op => ⟨op, 0, 0, 0, addr⟩
  | .jne addr, op => ⟨op, 0, 0, 0, addr⟩
  | .jnei addr, op => ⟨op, 0, 0, 0, addr⟩
  | .jge addr, op => ⟨op, 0, 0, 0, addr⟩
  | .jgei addr, op => ⟨op, 0, 0, 0, addr⟩
  | .jl addr, op => ⟨op, 0, 0, 0, addr⟩
  | .jli addr, op => ⟨op, 0, 0, 0, addr⟩
  | .cmp rs1 rs2, op => ⟨op, 0, rs1, rs2, 0⟩
  | .readKeyboard rd, op => ⟨op, rd, 0, 0, 0⟩
  | .writeScreen rs1, op => ⟨op, 0, rs1, 0, 0⟩
  | .halt, op => ⟨op, 0, 0, 0, 0⟩

/-- The word of an instruction (30_encoding.md R140). -/
def encode (i : Instr) : Word := wordOfFields (i.operands (numberOfOpcode i.opcode))

/-! ## The host's probe -/

/-- The instruction the decoder reads from a row of spec/opcode_table.json whose bits are `w`: the word is laid out in
its eight bytes, the lowest first, and the bytes are decoded. -/
def decodeTableWord (nbits w : Nat) : Option Instr :=
  match decodeBytes (bytesOfWord (BitVec.ofNat 64 (w % 2 ^ nbits))) with
  | .ok i => some i
  | .error _ => none

end Sys2Proof
end

