-- ==== Sys2Proof/Machine/State.lean ====
section
/-! DEFINITION. The state of the machine (spec 10_state.md R20 to R39), as plain data, its state after reset (R39), and
why a step can stop. -/
namespace Sys2Proof.Machine

/-! ## Why a step stops -/

/-- The reasons the machine stops with a fault: none. Every condition of the spec halts the core and is a NEXT state with
`run`, `cause` and `cinfo` written (60_exceptions.md R240; log 12); every address exists (20_memory.md R80). -/
inductive Fault where
deriving DecidableEq, Repr

/-- The reasons a step is refused. -/
inductive Refusal where
  /-- An arm of `exec` whose instruction has no meaning yet. Safe: nothing is claimed of it. -/
  | notModelled (mnemonic : String)
  /-- Raised by `step` when the cache configuration is none of the legal ones: "a configuration with CAP[k] = 0, with
  N_LEVELS = 0 or with a LINE_SIZE that is not a power of two is not a legal configuration; a model refuses it"
  (20_memory.md R82). Safe: the spec describes no such machine. -/
  | illegalConfiguration
deriving DecidableEq, Repr

/-! ## The Processor's parts -/

/-- The run state (10_state.md R28). -/
inductive RunState where
  | running
  | halted
deriving DecidableEq, Repr

/-- The condition kinds, in the order of their numbers 0..6 (10_state.md R29; the numbers are `Cause.number`). -/
inductive Cause where
  | none
  | invalidOpcode
  | divisionByZero
  | registerIndexOutOfRange
  | malformedInstructionLine
  | programFileNotFound
  | addressTranslationExhausted
deriving DecidableEq, Repr

/-- The three condition flags `Z`, `G`, `L` (10_state.md R26). -/
structure Flags where
  zero        : Bool
  greaterThan : Bool
  lessThan    : Bool
deriving DecidableEq, Repr

/-! ## The CacheHierarchy's parts -/

/-- An entry of a cache level (10_state.md R32): the line-aligned virtual address, all 64 bits of it, and the
`LINE_SIZE` bytes of the line. -/
structure Line where
  base : Addr
  data : List Byte
deriving DecidableEq, Repr

/-- A cache level's entries, most recently used first (10_state.md R32). -/
abbrev Level := List Line

/-- The cache hierarchy (10_state.md R30, R32): position `k - 1` of `levels` is level `k`. -/
structure CacheHierarchy where
  levels    : List Level
  hitCount  : BitVec 64
  missCount : BitVec 64
deriving DecidableEq, Repr

/-! ## Memory's parts -/

/-- A translation table of 512 slots (10_state.md R34): the slots that are not empty, by their index, in rising order.
-/
structure Table (α : Type) where
  slots : List (BitVec 9 × α)
deriving DecidableEq, Repr

/-- A MemoryPage (10_state.md R34), named by its own page index. Its 4096-byte buffer is the bytes
`index * 4096 .. index * 4096 + 4095` of `Memory.bytes`, its physical byte addresses (20_memory.md R70;
DEDUCED, log 5, safe). -/
structure MemoryPage where
  index : Nat
deriving DecidableEq, Repr

/-- A level-1 table: each slot empty or holding a MemoryPage (10_state.md R34). -/
abbrev Level1Table := Table MemoryPage

/-- A level-2 table: each slot empty or holding a level-1 table. -/
abbrev Level2Table := Table Level1Table

/-- A level-3 table: each slot empty or holding a level-2 table. -/
abbrev Level3Table := Table Level2Table

/-- The level-4 table: each slot empty or holding a level-3 table. -/
abbrev Level4Table := Table Level3Table

/-- Memory and its translator (10_state.md R34). `bytes` is the flat backing store keyed by physical byte address, in
one canonical form: addresses strictly rising, no entry equal to `unlistedByte`. -/
structure Memory where
  top       : Level4Table
  pageCount : Nat
  bytes     : List Host.Cell
deriving DecidableEq, Repr

/-- What an unlisted physical byte reads as: "pages zero-initialized" (20_memory.md R79). -/
def unlistedByte : Byte := 0

/-- Everything an access of the Processor goes through: the cache hierarchy and the Memory behind it (00_scope.md R6,
R7). -/
structure Storage where
  cache  : CacheHierarchy
  memory : Memory
deriving DecidableEq, Repr

/-! ## The whole state -/

/-- The state of the machine (10_state.md R38), with the configuration it was constructed with (DESIGN
CHOICE, log 1, safe). -/
structure State where
  /-- The general registers (10_state.md R20). -/
  x       : Vector Word 4
  /-- The program counter (10_state.md R23). -/
  pc      : Addr
  /-- `Z`, `G`, `L` (10_state.md R26). -/
  flags   : Flags
  /-- The run state (10_state.md R28). -/
  run     : RunState
  /-- The condition record's kind (10_state.md R29). -/
  cause   : Cause
  /-- The condition record's context (10_state.md R29). -/
  cinfo   : Word
  /-- Cache, counters, translation tables and memory (10_state.md R30, R32, R34). -/
  storage : Storage
  /-- The character codes the console will deliver, the next one first (10_state.md R33). -/
  cin     : List Nat
  /-- The values `WRITE_SCREEN` has emitted, the oldest first (10_state.md R33). -/
  cout    : List Word
  /-- The configuration registers (10_state.md R31); no step changes them. -/
  config  : Config
deriving DecidableEq, Repr

/-- Reset is construction with a configuration (70_reset_and_hazards.md R260): every field at the value of 10_state.md
R39. DESIGN CHOICE (log 3, unsafe): `cin`, which the spec leaves to the environment, is empty. -/
def State.construct (c : Config) : State where
  x       := #v[0, 0, 0, 0]
  pc      := c.entryPc
  flags   := ⟨false, false, false⟩
  run     := .running
  cause   := .none
  cinfo   := 0
  storage :=
    { cache  := { levels := List.replicate c.levels.length [], hitCount := 0, missCount := 0 }
      memory := { top := ⟨[]⟩, pageCount := 0, bytes := [] } }
  cin     := []
  cout    := []
  config  := c

/-- The machine right after reset, in the configuration the spec uses throughout (00_scope.md R12). -/
def State.reset : State := State.construct Config.default

end Sys2Proof.Machine
end

