-- ==== Sys2Proof/Machine/Memory.lean ====
section
/-! DEFINITION. The Memory block and its AddressTranslator (spec 20_memory.md R64 to R80): bytes of the backing store,
translation tables, the walk, one-byte reads and writes. -/
namespace Sys2Proof.Machine

/-! ## The outcome of an access -/

/-- What an access answers: a value and the memory system after it, or `AddressTranslationExhausted` for the virtual
address `va`, with the memory system as the bytes completed before have left it (20_memory.md R97, R101, R102). -/
inductive Access (σ α : Type) where
  | ok (v : α) (st : σ)
  | exhausted (va : Addr) (st : σ)
deriving DecidableEq, Repr

/-- Do one access and then, if it did not raise, another. -/
def Access.andThen {σ α β : Type} (r : Access σ α) (k : α → σ → Access σ β) : Access σ β :=
  match r with
  | .ok v st => k v st
  | .exhausted va st => .exhausted va st

/-! ## The backing store -/

/-- The byte at a physical address; an address not listed reads `unlistedByte`. -/
def readCell : List Host.Cell → Nat → Byte
  | [], _ => unlistedByte
  | (k, b) :: cs, p => if p = k then b else readCell cs p

/-- Write a byte at a physical address, keeping the canonical form: rising addresses, no entry that reads as an unlisted
one. -/
def writeCell : List Host.Cell → Nat → Byte → List Host.Cell
  | [], p, b => if b = unlistedByte then [] else [(p, b)]
  | (k, v) :: cs, p, b =>
    if p < k then if b = unlistedByte then (k, v) :: cs else (p, b) :: (k, v) :: cs
    else if p = k then if b = unlistedByte then cs else (p, b) :: cs
    else (k, v) :: writeCell cs p b

/-! ## Address fields -/

/-- Bits 47:39, the slot of the level-4 table (20_memory.md R66). -/
def index4 (a : Addr) : BitVec 9 := a.extractLsb' 39 9

/-- Bits 38:30, the slot of the level-3 table (20_memory.md R66). -/
def index3 (a : Addr) : BitVec 9 := a.extractLsb' 30 9

/-- Bits 29:21, the slot of the level-2 table (20_memory.md R66). -/
def index2 (a : Addr) : BitVec 9 := a.extractLsb' 21 9

/-- Bits 20:12, the slot of the level-1 table (20_memory.md R66). -/
def index1 (a : Addr) : BitVec 9 := a.extractLsb' 12 9

/-- `OffsetOf`: bits 11:0 (20_memory.md R67). -/
def offsetOf (a : Addr) : BitVec 12 := a.extractLsb' 0 12

/-! ## Tables -/

/-- The content of slot `i` among the filled slots, `none` if it is empty. -/
def getSlot {α : Type} : List (BitVec 9 × α) → BitVec 9 → Option α
  | [], _ => none
  | (j, v) :: t, i => if i = j then some v else getSlot t i

/-- Fill slot `i`, keeping the filled slots in rising order. -/
def setSlot {α : Type} : List (BitVec 9 × α) → BitVec 9 → α → List (BitVec 9 × α)
  | [], i, v => [(i, v)]
  | (j, w) :: t, i, v =>
    if i.toNat < j.toNat then (i, v) :: (j, w) :: t
    else if i = j then (i, v) :: t
    else (j, w) :: setSlot t i v

/-- A new table with 512 empty slots (20_memory.md R68). -/
def Table.empty {α : Type} : Table α := ⟨[]⟩

/-- The content of slot `i` of a table. -/
def Table.get {α : Type} (t : Table α) (i : BitVec 9) : Option α := getSlot t.slots i

/-- The table with slot `i` filled. -/
def Table.set {α : Type} (t : Table α) (i : BitVec 9) (v : α) : Table α := ⟨setSlot t.slots i v⟩

/-- The table in slot `i`, new if the slot is empty (20_memory.md R68). -/
def Table.child {α : Type} (t : Table (Table α)) (i : BitVec 9) : Table α := (t.get i).getD Table.empty

/-! ## The walk -/

/-- The page the tables hold for a virtual address, if every slot on the way is filled (20_memory.md R68). -/
def lookupPage (top : Level4Table) (a : Addr) : Option MemoryPage :=
  match top.get (index4 a) with
  | none => none
  | some t3 =>
    match t3.get (index3 a) with
    | none => none
    | some t2 =>
      match t2.get (index2 a) with
      | none => none
      | some t1 => t1.get (index1 a)

/-- The tables after a walk for `a` that leaves its level-1 table as `t1`: every table on the way exists
(20_memory.md R68). -/
def putLevel1 (top : Level4Table) (a : Addr) (t1 : Level1Table) : Level4Table :=
  let t3 := top.child (index4 a)
  let t2 := t3.child (index3 a)
  top.set (index4 a) (t3.set (index3 a) (t2.set (index2 a) t1))

/-- The level-1 table a walk for `a` reaches, new if it did not exist (20_memory.md R68). -/
def level1For (top : Level4Table) (a : Addr) : Level1Table :=
  ((top.child (index4 a)).child (index3 a)).child (index2 a)

/-- `MAX_PAGES is a number and pageCount >= MAX_PAGES` (20_memory.md R68). -/
def capReached (maxPages : Option Nat) (pageCount : Nat) : Bool :=
  match maxPages with
  | none => false
  | some n => n ≤ pageCount

/-- `Translate(a)` (20_memory.md R65, R68): the page of `a`, created on first touch with `index = pageCount`, or `none`
when it must be created and the cap is reached; tables created before that check stay (R71). -/
def translate (maxPages : Option Nat) (m : Memory) (a : Addr) : Option MemoryPage × Memory :=
  match lookupPage m.top a with
  | some p => (some p, m)
  | none =>
    let t1 := level1For m.top a
    if capReached maxPages m.pageCount then (none, { m with top := putLevel1 m.top a t1 })
    else
      let p : MemoryPage := ⟨m.pageCount⟩
      (some p, { m with top := putLevel1 m.top a (t1.set (index1 a) p), pageCount := m.pageCount + 1 })

/-! ## One byte of Memory -/

/-- The physical byte address of an offset in a page (20_memory.md R70). -/
def physicalAddress (p : MemoryPage) (o : BitVec 12) : Nat := p.index * pageSize + o.toNat

/-- `MemReadByte(a)` (20_memory.md R76). -/
def memReadByte (maxPages : Option Nat) (m : Memory) (a : Addr) : Access Memory Byte :=
  match translate maxPages m a with
  | (some p, m') => .ok (readCell m'.bytes (physicalAddress p (offsetOf a))) m'
  | (none, m') => .exhausted a m'

/-- `MemWriteByte(a, b)` (20_memory.md R77). -/
def memWriteByte (maxPages : Option Nat) (m : Memory) (a : Addr) (b : Byte) : Access Memory Unit :=
  match translate maxPages m a with
  | (some p, m') => .ok () { m' with bytes := writeCell m'.bytes (physicalAddress p (offsetOf a)) b }
  | (none, m') => .exhausted a m'

/-- The value `MemReadByte(a)` would return, without its side effects (20_memory.md R90, R111): the byte of the page,
0 where no page is. -/
def Memory.peek (m : Memory) (a : Addr) : Byte :=
  match lookupPage m.top a with
  | some p => readCell m.bytes (physicalAddress p (offsetOf a))
  | none => unlistedByte

/-- Host's image load: each byte by `MemWriteByte`, straight to Memory, past the cache (70_reset_and_hazards.md R262);
the byte list goes to `a`, `a + 1`, and so on. R262 is silent on an image that meets the page cap: here the load stops at the
byte that finds no page and answers `exhausted` with its address, the bytes before it stay, and nothing of the core is written
(DESIGN CHOICE, log 15, unsafe). -/
def loadImage (maxPages : Option Nat) : List Byte → Addr → Memory → Access Memory Unit
  | [], _, m => .ok () m
  | b :: bs, a, m => (memWriteByte maxPages m a b).andThen fun _ m' => loadImage maxPages bs (a + 1) m'

/-! ## The form of a Memory -/

/-- The backing store's canonical form: addresses strictly rising, no entry equal to what an unlisted address reads as.
-/
abbrev CellsCanonical (cs : List Host.Cell) : Prop :=
  cs.Pairwise (fun c d => c.1 < d.1) ∧ ∀ c ∈ cs, c.2 ≠ unlistedByte

/-- The filled slots of a table stand in strictly rising order. -/
abbrev Table.Rising {α : Type} (t : Table α) : Prop := t.slots.Pairwise (fun s u => s.1.toNat < u.1.toNat)

/-- Every table's filled slots stand in strictly rising order. -/
abbrev TablesRising (top : Level4Table) : Prop :=
  top.Rising ∧ ∀ e3 ∈ top.slots, e3.2.Rising ∧ ∀ e2 ∈ e3.2.slots, e2.2.Rising ∧ ∀ e1 ∈ e2.2.slots, e1.2.Rising

/-- The pages under the level-4 table, in the order of their virtual addresses. -/
def pagesOf (top : Level4Table) : List MemoryPage :=
  top.slots.flatMap fun e3 => e3.2.slots.flatMap fun e2 => e2.2.slots.flatMap fun e1 => e1.2.slots.map (·.2)

/-- A Memory as construction, loading and stepping leave it: canonical bytes, all of them inside pages; rising tables;
`pageCount` pages with different indices below `pageCount` (20_memory.md R70). -/
abbrev Memory.wf (m : Memory) : Prop :=
  CellsCanonical m.bytes ∧ (∀ c ∈ m.bytes, c.1 < m.pageCount * pageSize) ∧ TablesRising m.top ∧
    (pagesOf m.top).length = m.pageCount ∧ ((pagesOf m.top).map (·.index)).Nodup ∧
    ∀ p ∈ pagesOf m.top, p.index < m.pageCount

end Sys2Proof.Machine
end

