-- ==== Sys2Proof/Machine/Cache.lean ====
section
/-! DEFINITION. The CacheHierarchy (spec 20_memory.md R81 to R98): line identity, lookup, recency, insertion and
eviction, line fill, one-byte reads and writes, the hit percentage. -/
namespace Sys2Proof.Machine

/-! ## Configuration -/

/-- `CAP[k] = floor(SIZE[k] / LINE_SIZE)` for level `k`, numbered from 1 (20_memory.md R82). -/
def capOf (cfg : Config) (k : Nat) : Nat :=
  match cfg.levels[k - 1]? with
  | some l => l.size / cfg.lineSize
  | none => 0

/-- The legal cache configurations: at least one level, `LINE_SIZE` a power of two, every `CAP[k]` at least 1
(20_memory.md R82). -/
def legalConfig (cfg : Config) : Bool :=
  !cfg.levels.isEmpty && 2 ^ Nat.log2 cfg.lineSize == cfg.lineSize && cfg.levels.all (fun l => 1 ≤ l.size / cfg.lineSize)

/-! ## Lines -/

/-- `LINE_SIZE - 1` as an address mask. -/
def lineMask (cfg : Config) : Addr := BitVec.ofNat 64 (cfg.lineSize - 1)

/-- `base = a & ~(LINE_SIZE - 1)`: the line's identity, all 64 bits of it (20_memory.md R83). -/
def lineBase (cfg : Config) (a : Addr) : Addr := a &&& ~~~(lineMask cfg)

/-- `off = a & (LINE_SIZE - 1)` (20_memory.md R83). -/
def lineOffset (cfg : Config) (a : Addr) : Nat := (a &&& lineMask cfg).toNat

/-- The byte of a line at an offset; 0 past the data, which no offset of a well-formed line reaches (DESIGN CHOICE, log 13,
safe). -/
def Line.byteAt (e : Line) (off : Nat) : Byte := e.data.getD off 0

/-- The line with the byte at an offset replaced. -/
def Line.putByte (e : Line) (off : Nat) (b : Byte) : Line := { e with data := e.data.set off b }

/-- `LineFill` from an address upwards (20_memory.md R98): `n` bytes of Memory, ascending, each by `MemReadByte`. -/
def lineFill (maxPages : Option Nat) : Nat → Addr → Memory → Access Memory (List Byte)
  | 0, _, m => .ok [] m
  | n + 1, a, m =>
    (memReadByte maxPages m a).andThen fun b m' =>
      (lineFill maxPages n (a + 1) m').andThen fun bs m'' => .ok (b :: bs) m''

/-! ## Levels -/

/-- `Lookup(base)` (20_memory.md R85): the levels in order, the first that holds the line; the position counts levels
from `pos`. -/
def lookupFrom (base : Addr) : Nat → List Level → Option (Nat × Line)
  | _, [] => none
  | pos, lvl :: rest =>
    match lvl.find? (fun e => e.base == base) with
    | some e => some (pos, e)
    | none => lookupFrom base (pos + 1) rest

/-- `Lookup(base)` over the whole hierarchy; the answer's position `p` is level `p + 1`. -/
def lookupLine (base : Addr) (levels : List Level) : Option (Nat × Line) := lookupFrom base 0 levels

/-- A level with the entry of `e`'s base moved to the front and standing as `e` (20_memory.md R92). -/
def touchLevel (e : Line) (lvl : Level) : Level := e :: lvl.eraseP (fun d => d.base == e.base)

/-- `Touch(k, e)` at position `pos` (20_memory.md R92): no other level changes, and no line is promoted (R94). -/
def touch (pos : Nat) (e : Line) (levels : List Level) : List Level := levels.modify pos (touchLevel e)

/-- `Insert(k, base, data)` into the levels from level `k` on (20_memory.md R91). A full level loses its last, least
recently used entry; the victim goes into the next level if the policy is `demote` and there is one, and is discarded
otherwise (R93). -/
def insertLine (cfg : Config) : Nat → Line → List Level → List Level
  | _, _, [] => []
  | k, e, lvl :: rest =>
    if lvl.length = capOf cfg k then
      match lvl.getLast?, cfg.victimPolicy with
      | some victim, .demote => (e :: lvl.dropLast) :: insertLine cfg (k + 1) victim rest
      | _, _ => (e :: lvl.dropLast) :: rest
    else (e :: lvl) :: rest

/-! ## Byte accesses -/

/-- The cache after a hit on `e` at position `pos`: recency and the hit counter (20_memory.md R86, R87, R95). -/
def CacheHierarchy.hit (c : CacheHierarchy) (pos : Nat) (e : Line) : CacheHierarchy :=
  { c with levels := touch pos e c.levels, hitCount := c.hitCount + 1 }

/-- The cache after a miss in all levels that filled line `e`: the line is inserted in level 1, the miss counter counts
(20_memory.md R86, R87, R95). -/
def CacheHierarchy.miss (c : CacheHierarchy) (cfg : Config) (e : Line) : CacheHierarchy :=
  { c with levels := insertLine cfg 1 e c.levels, missCount := c.missCount + 1 }

/-- Fill the line of base `base` from Memory and insert it: what a miss does, reading or writing (20_memory.md R86, R87,
R89). A raise leaves the cache as it was (R97). -/
def fillLine (cfg : Config) (st : Storage) (base : Addr) : Access Storage Line :=
  match lineFill cfg.maxPages cfg.lineSize base st.memory with
  | .ok data m => .ok ⟨base, data⟩ { cache := st.cache.miss cfg ⟨base, data⟩, memory := m }
  | .exhausted va m => .exhausted va { st with memory := m }

/-- `CacheRead(a)` (20_memory.md R86). -/
def cacheRead (cfg : Config) (st : Storage) (a : Addr) : Access Storage Byte :=
  match lookupLine (lineBase cfg a) st.cache.levels with
  | some (pos, e) => .ok (e.byteAt (lineOffset cfg a)) { st with cache := st.cache.hit pos e }
  | none => (fillLine cfg st (lineBase cfg a)).andThen fun e st' => .ok (e.byteAt (lineOffset cfg a)) st'

/-- `CacheWrite(a, b)` (20_memory.md R87): the byte goes to Memory first, hit or miss (R88); a hit then updates the line
in place, a miss allocates the line in level 1, filled from Memory after the write (R89). -/
def cacheWrite (cfg : Config) (st : Storage) (a : Addr) (b : Byte) : Access Storage Unit :=
  match memWriteByte cfg.maxPages st.memory a b with
  | .exhausted va m => .exhausted va { st with memory := m }
  | .ok _ m =>
    match lookupLine (lineBase cfg a) st.cache.levels with
    | some (pos, e) => .ok () { cache := st.cache.hit pos (e.putByte (lineOffset cfg a) b), memory := m }
    | none => (fillLine cfg { st with memory := m } (lineBase cfg a)).andThen fun _ st' => .ok () st'

/-! ## What the host reads -/

/-- `hitPercentage()` (20_memory.md R96): the exact rational, 0 when no access has occurred. -/
def CacheHierarchy.hitPercentage (c : CacheHierarchy) : Rat :=
  if c.hitCount.toNat + c.missCount.toNat = 0 then 0
  else (100 * c.hitCount.toNat : Rat) / ((c.hitCount.toNat + c.missCount.toNat : Nat) : Rat)

/-! ## The form of a hierarchy -/

/-- Every line of every level. -/
def CacheHierarchy.lines (c : CacheHierarchy) : List Line := c.levels.flatten

/-- A hierarchy as construction and stepping leave it: `N_LEVELS` levels, none over its capacity, every line aligned and
of `LINE_SIZE` bytes, no base twice in the whole hierarchy (10_state.md R32, 20_memory.md R82, R85). -/
abbrev CacheHierarchy.wf (cfg : Config) (c : CacheHierarchy) : Prop :=
  c.levels.length = cfg.levels.length ∧
    (∀ k ∈ List.range c.levels.length, (c.levels.getD k []).length ≤ capOf cfg (k + 1)) ∧
    (∀ e ∈ c.lines, lineBase cfg e.base = e.base ∧ e.data.length = cfg.lineSize) ∧ (c.lines.map (·.base)).Nodup

end Sys2Proof.Machine
end

