-- ==== Sys2Proof/Machine/Ops.lean ====
section
/-! DEFINITION. The named operations of the Processor over its state (spec 00_scope.md R14): registers, the program counter,
raising a condition, 8-byte accesses through the cache, the console, and the host's operations. -/
namespace Sys2Proof.Machine

/-- What a meaning answers. -/
abbrev Result := Host.Outcome State Fault Refusal

/-! ## Registers and the program counter -/

/-- `x[r]` (00_scope.md R14, 10_state.md R20). -/
def State.reg (s : State) (r : Reg) : Word := s.x[r]

/-- `x[r] <- v` (00_scope.md R14). -/
def State.setReg (s : State) (r : Reg) (v : Word) : State := { s with x := s.x.set r v }

/-- `pc <- t`: a taken jump (10_state.md R24, 43_control_transfer.md R201). -/
def State.jumpTo (s : State) (t : Addr) : State := { s with pc := t }

/-- `pc <- pc + 8` modulo 2^64 (10_state.md R24). -/
def State.advance (s : State) : State := { s with pc := s.pc + BitVec.ofNat 64 ilen }

/-- The state with another memory system. -/
def State.withStorage (s : State) (st : Storage) : State := { s with storage := st }

/-- The state with other flags. -/
def State.setFlags (s : State) (f : Flags) : State := { s with flags := f }

/-! ## Conditions -/

/-- The number of a condition kind (10_state.md R29). -/
def Cause.number : Cause → Nat
  | .none => 0
  | .invalidOpcode => 1
  | .divisionByZero => 2
  | .registerIndexOutOfRange => 3
  | .malformedInstructionLine => 4
  | .programFileNotFound => 5
  | .addressTranslationExhausted => 6

/-- `raise K(info)`, the one way a condition is taken (60_exceptions.md R240): the core halts and the record is written;
`pc`, the registers and the flags keep the values they had before the instruction. There is no return from it (R242). -/
def State.raise (s : State) (k : Cause) (info : Word) : State := { s with run := .halted, cause := k, cinfo := info }

/-- `run <- Halted` with nothing recorded: the normal end (46_halt.md R220). -/
def State.halt (s : State) : State := { s with run := .halted }

/-! ## Eight-byte accesses -/

/-- `n` bytes by one `CacheRead` each, ascending, addresses modulo 2^64 (20_memory.md R101). -/
def readBytes (cfg : Config) : Nat → Addr → Storage → Access Storage (List Byte)
  | 0, _, st => .ok [] st
  | n + 1, a, st =>
    (cacheRead cfg st a).andThen fun b st' =>
      (readBytes cfg n (a + 1) st').andThen fun bs st'' => .ok (b :: bs) st''

/-- Bytes by one `CacheWrite` each, ascending, addresses modulo 2^64 (20_memory.md R102). -/
def writeBytes (cfg : Config) : List Byte → Addr → Storage → Access Storage Unit
  | [], _, st => .ok () st
  | b :: bs, a, st => (cacheWrite cfg st a b).andThen fun _ st' => writeBytes cfg bs (a + 1) st'

/-- `MemRead(a, 8)`, little-endian (20_memory.md R101). -/
def memRead (cfg : Config) (st : Storage) (a : Addr) : Access Storage Word :=
  (readBytes cfg 8 a st).andThen fun bs st' => .ok (wordOfBytes bs) st'

/-- `MemWrite(a, 8, v)`, little-endian (20_memory.md R102). -/
def memWrite (cfg : Config) (st : Storage) (a : Addr) (v : Word) : Access Storage Unit :=
  writeBytes cfg (bytesOfWord v) a st

/-- Go on with the value of an access, or take `AddressTranslationExhausted` (60_exceptions.md R236) with the memory
effects of the bytes completed before kept (R241). -/
def State.afterAccess {α : Type} (s : State) (r : Access Storage α) (k : α → State → Result) : Result :=
  match r with
  | .ok v st => k v (s.withStorage st)
  | .exhausted va st => .next ((s.withStorage st).raise .addressTranslationExhausted va)

/-- The 8-byte value at an address, read through the cache (20_memory.md R101). -/
def State.load (s : State) (a : Addr) (k : Word → State → Result) : Result :=
  s.afterAccess (memRead s.config s.storage a) k

/-- An 8-byte store through the cache (20_memory.md R102). -/
def State.store (s : State) (a : Addr) (v : Word) (k : State → Result) : Result :=
  s.afterAccess (memWrite s.config s.storage a v) fun _ s' => k s'

/-! ## The console -/

/-- The register value of a character code: `zext_64(c)` (45_io.md R215); a code that does not fit 64 bits has no stated
value (DESIGN CHOICE, log 7, safe). -/
def charWord (c : Nat) : Word := if c < 2 ^ 64 then BitVec.ofNat 64 c else Config.wideCharCode c

/-- `Out(v)`: append to `cout` (00_scope.md R14, 45_io.md R216). -/
def State.emit (s : State) (v : Word) : State := { s with cout := s.cout ++ [v] }

/-- The console delivers a character code, behind those that wait; it delivers none above `CHAR_MAX` (10_state.md R33).
The environment's act between steps, no step of the core (log 14). -/
def State.deliverChar (s : State) (c : Nat) : State :=
  if c ≤ s.config.charMax then { s with cin := s.cin ++ [c] } else s

/-! ## Fetch -/

/-- `w <- MemRead(pc, 8)` (30_encoding.md R129). -/
def State.fetch (s : State) (k : Word → State → Result) : Result := s.load s.pc k

/-- Does the step of this instruction wait for the console? READ_KEYBOARD with legal operands and no character: "the
only operation that may block" (45_io.md R215, 70_reset_and_hazards.md R274). Its register field is checked first,
"whether or not a character is waiting". -/
def waitsForConsole (i : Instr) (s : State) : Bool :=
  match i with
  | .readKeyboard rd => RegField.legal rd && s.cin.isEmpty
  | _ => false

/-! ## The host's probe -/

/-- A level with the byte at `a` replaced in the line that holds it, if any; recency unchanged. -/
def patchLevel (cfg : Config) (a : Addr) (b : Byte) (lvl : Level) : Level :=
  lvl.map fun e => if e.base = lineBase cfg a then e.putByte (lineOffset cfg a) b else e

/-- Place bytes at `a`, `a + 1`, .. where the fetch will read them: in Memory, as the host's load does, and in any cached
line that holds them. A byte whose page is missing at the cap is left out of Memory (DESIGN CHOICE, log 15, unsafe). Not an
act of the machine. -/
def placeBytes (cfg : Config) : List Byte → Addr → Storage → Storage
  | [], _, st => st
  | b :: bs, a, st =>
    let m := match memWriteByte cfg.maxPages st.memory a b with
      | .ok _ m => m
      | .exhausted _ m => m
    let levels := st.cache.levels.map (patchLevel cfg a b)
    placeBytes cfg bs (a + 1) { cache := { st.cache with levels := levels }, memory := m }

/-- The state whose next step runs the instruction word `w`: placed at the program counter, the core running, and, since
READ_KEYBOARD's whole step, its fetch included, happens only when a character is there (30_encoding.md R132, 45_io.md
R215), a character waiting (code 0) if the word needs one and none is (DESIGN CHOICE, log 8,
safe). -/
def State.placeInstruction (s : State) (w : Word) : State :=
  let s' := { s with
    storage := placeBytes s.config (bytesOfWord w) s.pc s.storage
    run := .running }
  match decode w with
  | .ok i => if waitsForConsole i s then { s' with cin := [0] } else s'
  | .error _ => s'

end Sys2Proof.Machine
end

