-- ==== Sys2Proof/Machine/Operands.lean ====
section
/-! DEFINITION. The operand forms (spec 30_encoding.md R124, R125, R130; 42_data_transfer.md R186): register fields with
their check, the immediate, direct and memory-indirect addresses. -/
namespace Sys2Proof.Machine

/-- Use a register field: go on with the register it names, or raise `RegisterIndexOutOfRange(zext_64(field))`
(30_encoding.md R130, 60_exceptions.md R233). A meaning uses its fields in the order `rd`, `rs1`, `rs2`, before anything
else. -/
def withReg (f : RegField) (s : State) (k : Reg → Result) : Result :=
  if h : f.toNat < 4 then k ⟨f.toNat, h⟩
  else .next (s.raise .registerIndexOutOfRange (f.setWidth 64))

/-- `imm = sext_64(payload)` (30_encoding.md R124). -/
def immediate (p : Payload) : Word := p.signExtend 64

/-- `addr = zext_64(payload)` (30_encoding.md R124): the effective address of a direct form (42_data_transfer.md R186).
-/
def directAddress (p : Payload) : Addr := p.setWidth 64

/-- The effective address of a memory-indirect form: the 8-byte pointer at `addr`, read once through the cache
(42_data_transfer.md R186, R188). -/
def withPointer (p : Payload) (s : State) (k : Addr → State → Result) : Result := s.load (directAddress p) k

end Sys2Proof.Machine
end

