-- ==== Sys2Proof/Machine/Arithmetic.lean ====
section
/-! DEFINITION. The arithmetic family (spec 40_arithmetic.md R160 to R166): ADD, SUB, MUL, DIV. -/
namespace Sys2Proof.Machine

/-- `trunc_64(u(a) + u(b))` (40_arithmetic.md R160). -/
def wordAdd (a b : Word) : Word := BitVec.ofInt 64 ((a.toNat : Int) + b.toNat)

/-- `trunc_64(u(a) - u(b))` (40_arithmetic.md R161). -/
def wordSub (a b : Word) : Word := BitVec.ofInt 64 ((a.toNat : Int) - b.toNat)

/-- `trunc_64(s(a) * s(b))` (40_arithmetic.md R162). -/
def wordMul (a b : Word) : Word := BitVec.ofInt 64 (a.toInt * b.toInt)

/-- `trunc_64(tdiv(s(a), s(b)))`, the quotient rounded toward zero (40_arithmetic.md R163, R165). -/
def wordDiv (a b : Word) : Word := BitVec.ofInt 64 (Int.tdiv a.toInt b.toInt)

/-- A three-register operation `x[rd] <- f x[rs1] x[rs2]`, both sources read before the destination is written
(40_arithmetic.md R166, 41_logical.md R170). -/
def threeRegister (f : Word → Word → Word) (rd rs1 rs2 : RegField) (s : State) : Result :=
  withReg rd s fun d => withReg rs1 s fun a => withReg rs2 s fun b =>
    .next (s.setReg d (f (s.reg a) (s.reg b))).advance

/-- ADD Rd, Rs1, Rs2 (40_arithmetic.md R160). -/
def execAdd (rd rs1 rs2 : RegField) (s : State) : Result := threeRegister wordAdd rd rs1 rs2 s

/-- SUB Rd, Rs1, Rs2 (40_arithmetic.md R161). -/
def execSub (rd rs1 rs2 : RegField) (s : State) : Result := threeRegister wordSub rd rs1 rs2 s

/-- MUL Rd, Rs1, Rs2 (40_arithmetic.md R162). -/
def execMul (rd rs1 rs2 : RegField) (s : State) : Result := threeRegister wordMul rd rs1 rs2 s

/-- DIV Rd, Rs1, Rs2 (40_arithmetic.md R163): a zero divisor raises `DivisionByZero(w)`, `w` the fetched word, which the
fields and the payload make up (DEDUCED, log 9, safe). -/
def execDiv (rd rs1 rs2 : RegField) (unused : Payload) (s : State) : Result :=
  withReg rd s fun d => withReg rs1 s fun a => withReg rs2 s fun b =>
    if s.reg b = 0 then .next (s.raise .divisionByZero (encode (.div rd rs1 rs2 unused)))
    else .next (s.setReg d (wordDiv (s.reg a) (s.reg b))).advance

end Sys2Proof.Machine
end

