-- ==== Sys2Proof/Machine/Flags.lean ====
section
/-! DEFINITION. The flag computations (spec 44_compare.md R210, 43_control_transfer.md R200): what CMP writes and what each
conditional jump tests. -/
namespace Sys2Proof.Machine

/-- The flags CMP writes for the values of its two registers, read as signed integers (44_compare.md R210). -/
def compareFlags (a b : Word) : Flags where
  zero        := a.toInt == b.toInt
  greaterThan := decide (a.toInt > b.toInt)
  lessThan    := decide (a.toInt < b.toInt)

/-- JE, JEI are taken when `Z` (43_control_transfer.md R200). -/
def Flags.equal (f : Flags) : Bool := f.zero

/-- JNE, JNEI are taken when `not Z` (43_control_transfer.md R200). -/
def Flags.notEqual (f : Flags) : Bool := !f.zero

/-- JGE, JGEI are taken when `Z or G` (43_control_transfer.md R200). -/
def Flags.greaterOrEqual (f : Flags) : Bool := f.zero || f.greaterThan

/-- JL, JLI are taken when `L` (43_control_transfer.md R200). -/
def Flags.less (f : Flags) : Bool := f.lessThan

/-- "Exactly one is true" (10_state.md R27). -/
def Flags.oneHot (f : Flags) : Bool :=
  (f.zero && !f.greaterThan && !f.lessThan) || (!f.zero && f.greaterThan && !f.lessThan) ||
    (!f.zero && !f.greaterThan && f.lessThan)

/-- No flag is true: the state between reset and the first CMP (10_state.md R27). -/
def Flags.noneSet (f : Flags) : Bool := !f.zero && !f.greaterThan && !f.lessThan

end Sys2Proof.Machine
end

