-- ==== Sys2Proof/Machine/Compare.lean ====
section
/-! DEFINITION. The comparison family (spec 44_compare.md R210, R211): CMP. -/
namespace Sys2Proof.Machine

/-- CMP Rs1, Rs2 (44_compare.md R210): all three flags are written, no register is. -/
def execCmp (rs1 rs2 : RegField) (s : State) : Result :=
  withReg rs1 s fun a => withReg rs2 s fun b => .next (s.setFlags (compareFlags (s.reg a) (s.reg b))).advance

end Sys2Proof.Machine
end

