-- ==== Sys2Proof/Machine/Console.lean ====
section
/-! DEFINITION. The console family (spec 45_io.md R215 to R217): READ_KEYBOARD, WRITE_SCREEN. -/
namespace Sys2Proof.Machine

/-- READ_KEYBOARD Rd (45_io.md R215): takes the first character code; with none waiting it waits, changing nothing
(DESIGN CHOICE, log 4, unsafe). -/
def execReadKeyboard (rd : RegField) (s : State) : Result :=
  withReg rd s fun d =>
    match s.cin with
    | [] => .next s
    | c :: rest => .next ({ s with cin := rest }.setReg d (charWord c)).advance

/-- WRITE_SCREEN Rs1 (45_io.md R216): the whole 64-bit register value goes out. -/
def execWriteScreen (rs1 : RegField) (s : State) : Result :=
  withReg rs1 s fun a => .next (s.emit (s.reg a)).advance

end Sys2Proof.Machine
end

