-- ==== Sys2Proof/Machine/ControlTransfer.lean ====
section
/-! DEFINITION. The control-transfer family (spec 43_control_transfer.md R190 to R203): JMP, JE, JNE, JGE, JL, direct and
indirect. -/
namespace Sys2Proof.Machine

/-- A direct jump: to `addr` if taken, to the next instruction otherwise (43_control_transfer.md R201). -/
def jumpDirect (taken : Bool) (addr : Payload) (s : State) : Result :=
  if taken then .next (s.jumpTo (directAddress addr)) else .next s.advance

/-- An indirect jump: to the pointer at `addr` if taken; the pointer is read only then (43_control_transfer.md R201,
R203). -/
def jumpIndirect (taken : Bool) (addr : Payload) (s : State) : Result :=
  if taken then withPointer addr s fun t s' => .next (s'.jumpTo t) else .next s.advance

/-- JMP addr (43_control_transfer.md R190). -/
def execJmp (addr : Payload) (s : State) : Result := jumpDirect true addr s

/-- JMPI addr (43_control_transfer.md R191). -/
def execJmpi (addr : Payload) (s : State) : Result := jumpIndirect true addr s

/-- JE addr (43_control_transfer.md R192). -/
def execJe (addr : Payload) (s : State) : Result := jumpDirect s.flags.equal addr s

/-- JEI addr (43_control_transfer.md R193). -/
def execJei (addr : Payload) (s : State) : Result := jumpIndirect s.flags.equal addr s

/-- JNE addr (43_control_transfer.md R194). -/
def execJne (addr : Payload) (s : State) : Result := jumpDirect s.flags.notEqual addr s

/-- JNEI addr (43_control_transfer.md R195). -/
def execJnei (addr : Payload) (s : State) : Result := jumpIndirect s.flags.notEqual addr s

/-- JGE addr (43_control_transfer.md R196). -/
def execJge (addr : Payload) (s : State) : Result := jumpDirect s.flags.greaterOrEqual addr s

/-- JGEI addr (43_control_transfer.md R197). -/
def execJgei (addr : Payload) (s : State) : Result := jumpIndirect s.flags.greaterOrEqual addr s

/-- JL addr (43_control_transfer.md R198). -/
def execJl (addr : Payload) (s : State) : Result := jumpDirect s.flags.less addr s

/-- JLI addr (43_control_transfer.md R199). -/
def execJli (addr : Payload) (s : State) : Result := jumpIndirect s.flags.less addr s

end Sys2Proof.Machine
end

