-- ==== Sys2Proof/Machine/DataTransfer.lean ====
section
/-! DEFINITION. The data-transfer family (spec 42_data_transfer.md R180 to R188): MOVI, MOVR, MOVL, MOVLI, MOVS, MOVSI. -/
namespace Sys2Proof.Machine

/-- MOVI Rd, imm (42_data_transfer.md R180). -/
def execMovi (rd : RegField) (imm : Payload) (s : State) : Result :=
  withReg rd s fun d => .next (s.setReg d (immediate imm)).advance

/-- MOVR Rd, Rs1 (42_data_transfer.md R181). -/
def execMovr (rd rs1 : RegField) (s : State) : Result :=
  withReg rd s fun d => withReg rs1 s fun a => .next (s.setReg d (s.reg a)).advance

/-- MOVL Rd, addr (42_data_transfer.md R182): the register is written only after all 8 bytes are read. -/
def execMovl (rd : RegField) (addr : Payload) (s : State) : Result :=
  withReg rd s fun d => s.load (directAddress addr) fun v s' => .next (s'.setReg d v).advance

/-- MOVLI Rd, addr (42_data_transfer.md R183): pointer bytes first, then data bytes. -/
def execMovli (rd : RegField) (addr : Payload) (s : State) : Result :=
  withReg rd s fun d => withPointer addr s fun ea s' => s'.load ea fun v s'' => .next (s''.setReg d v).advance

/-- MOVS Rs1, addr (42_data_transfer.md R184). -/
def execMovs (rs1 : RegField) (addr : Payload) (s : State) : Result :=
  withReg rs1 s fun a => s.store (directAddress addr) (s.reg a) fun s' => .next s'.advance

/-- MOVSI Rs1, addr (42_data_transfer.md R185): the pointer is read once, before any byte is written (R188). -/
def execMovsi (rs1 : RegField) (addr : Payload) (s : State) : Result :=
  withReg rs1 s fun a => withPointer addr s fun ea s' => s'.store ea (s.reg a) fun s'' => .next s''.advance

end Sys2Proof.Machine
end

