-- ==== Sys2Proof/Machine/Halt.lean ====
section
/-! DEFINITION. The halt family (spec 46_halt.md R220, R221): HALT. -/
namespace Sys2Proof.Machine

/-- HALT (46_halt.md R220): `run <- Halted`; nothing is recorded and `pc` stays. -/
def execHalt (s : State) : Result := .next s.halt

end Sys2Proof.Machine
end

