-- ==== Sys2Proof/Machine/Logical.lean ====
section
/-! DEFINITION. The logical family (spec 41_logical.md R170 to R173): AND, OR, XOR, NOT, bitwise over all 64 bits. -/
namespace Sys2Proof.Machine

/-- AND Rd, Rs1, Rs2 (41_logical.md R170). -/
def execAnd (rd rs1 rs2 : RegField) (s : State) : Result := threeRegister (fun a b => a &&& b) rd rs1 rs2 s

/-- OR Rd, Rs1, Rs2 (41_logical.md R171). -/
def execOr (rd rs1 rs2 : RegField) (s : State) : Result := threeRegister (fun a b => a ||| b) rd rs1 rs2 s

/-- XOR Rd, Rs1, Rs2 (41_logical.md R172). -/
def execXor (rd rs1 rs2 : RegField) (s : State) : Result := threeRegister (fun a b => a ^^^ b) rd rs1 rs2 s

/-- NOT Rd, Rs1 (41_logical.md R173). -/
def execNot (rd rs1 : RegField) (s : State) : Result :=
  withReg rd s fun d => withReg rs1 s fun a => .next (s.setReg d (~~~(s.reg a))).advance

end Sys2Proof.Machine
end

