-- ==== Sys2Proof/Machine/Dispatch.lean ====
section
/-! DEFINITION. The dispatch: one arm per constructor of Instr, each one direct call of its meaning. -/
namespace Sys2Proof.Machine

def exec (i : Instr) (s : State) : Host.Outcome State Fault Refusal :=
  match i with
  | .add rd rs1 rs2 => Sys2Proof.Machine.execAdd rd rs1 rs2 s
  | .sub rd rs1 rs2 => Sys2Proof.Machine.execSub rd rs1 rs2 s
  | .mul rd rs1 rs2 => Sys2Proof.Machine.execMul rd rs1 rs2 s
  | .div rd rs1 rs2 unused => Sys2Proof.Machine.execDiv rd rs1 rs2 unused s
  | .and rd rs1 rs2 => Sys2Proof.Machine.execAnd rd rs1 rs2 s
  | .or rd rs1 rs2 => Sys2Proof.Machine.execOr rd rs1 rs2 s
  | .xor rd rs1 rs2 => Sys2Proof.Machine.execXor rd rs1 rs2 s
  | .not rd rs1 => Sys2Proof.Machine.execNot rd rs1 s
  | .movi rd imm => Sys2Proof.Machine.execMovi rd imm s
  | .movr rd rs1 => Sys2Proof.Machine.execMovr rd rs1 s
  | .movl rd addr => Sys2Proof.Machine.execMovl rd addr s
  | .movli rd addr => Sys2Proof.Machine.execMovli rd addr s
  | .movs rs1 addr => Sys2Proof.Machine.execMovs rs1 addr s
  | .movsi rs1 addr => Sys2Proof.Machine.execMovsi rs1 addr s
  | .jmp addr => Sys2Proof.Machine.execJmp addr s
  | .jmpi addr => Sys2Proof.Machine.execJmpi addr s
  | .je addr => Sys2Proof.Machine.execJe addr s
  | .jei addr => Sys2Proof.Machine.execJei addr s
  | .jne addr => Sys2Proof.Machine.execJne addr s
  | .jnei addr => Sys2Proof.Machine.execJnei addr s
  | .jge addr => Sys2Proof.Machine.execJge addr s
  | .jgei addr => Sys2Proof.Machine.execJgei addr s
  | .jl addr => Sys2Proof.Machine.execJl addr s
  | .jli addr => Sys2Proof.Machine.execJli addr s
  | .cmp rs1 rs2 => Sys2Proof.Machine.execCmp rs1 rs2 s
  | .readKeyboard rd => Sys2Proof.Machine.execReadKeyboard rd s
  | .writeScreen rs1 => Sys2Proof.Machine.execWriteScreen rs1 s
  | .halt => Sys2Proof.Machine.execHalt s

end Sys2Proof.Machine
end

