-- ==== Sys2Proof/Machine/Step.lean ====
section
/-! DEFINITION. One step of the core (spec 30_encoding.md R129 to R132) and the host's way to place an instruction. -/
namespace Sys2Proof.Machine

/-- One step (30_encoding.md R131): fetch, decode, execute, advance. A halted core does nothing (10_state.md R28) and a
READ_KEYBOARD with no character has no step, its fetch included (45_io.md R215): both answer the state unchanged
(DESIGN CHOICE, log 4, unsafe). A configuration that is not legal is refused (20_memory.md R82; log 11). -/
def step (s : State) : Host.Outcome State Fault Refusal :=
  if legalConfig s.config then
    match s.run with
    | .halted => .next s
    | .running =>
      s.fetch fun w s' =>
        match decode w with
        | .ok i => if waitsForConsole i s then .next s else exec i s'
        | .error _ => .next (s'.raise .invalidOpcode w)
  else .refused .illegalConfiguration

/-- `s` with the instruction whose bits are `w` placed where the next step fetches, so that `step` runs it (DESIGN CHOICE,
log 8, safe). -/
def State.withFetchWord (s : State) (nbits w : Nat) : State :=
  s.placeInstruction (BitVec.ofNat 64 (w % 2 ^ nbits))

end Sys2Proof.Machine
end

