-- ==== Sys2Proof/Safety.lean ====
section
/-! DEFINITION. The terms claims use: how a run ends (spec 70_reset_and_hazards.md R264), the invariant of the machine, runs,
and coherence of cache and Memory (20_memory.md R90). -/
namespace Sys2Proof.Machine

/-- The run has ended normally (70_reset_and_hazards.md R264). -/
abbrev State.endedNormally (s : State) : Prop := s.run = .halted ∧ s.cause = .none

/-- The run was stopped by a condition (70_reset_and_hazards.md R264). -/
abbrev State.stoppedByCondition (s : State) : Prop := s.run = .halted ∧ s.cause ≠ .none

/-- The cap on pages holds: `pageCount` never passes `MAX_PAGES` (20_memory.md R71). -/
abbrev State.withinCap (s : State) : Prop := ∀ n ∈ s.config.maxPages, s.storage.memory.pageCount ≤ n

/-- What every state of a run satisfies: a legal configuration; Memory and cache in their form; the page cap kept; at
most one flag true (10_state.md R27); nothing recorded while running (R28, R29); waiting character codes at most
`CHAR_MAX` (R33). -/
abbrev State.wf (s : State) : Prop :=
  legalConfig s.config = true ∧ s.storage.memory.wf ∧ s.storage.cache.wf s.config ∧ s.withinCap ∧
    (s.flags.oneHot = true ∨ s.flags.noneSet = true) ∧ (s.run = .running → s.cause = .none ∧ s.cinfo = 0) ∧
    ∀ c ∈ s.cin, c ≤ s.config.charMax

/-- `t` is reached from `s` by some number of steps. -/
inductive Reaches : State → State → Prop where
  | refl (s : State) : Reaches s s
  | tail {s t u : State} : Reaches s t → step t = .next u → Reaches s u

/-- Two addresses name the same byte of storage: bits 47:0 agree (20_memory.md R74). -/
abbrev sameByte (a b : Addr) : Prop := a.extractLsb' 0 48 = b.extractLsb' 0 48

/-- Every cached byte is the byte of Memory behind it (20_memory.md R90). -/
def Coherent (st : Storage) : Prop :=
  ∀ e ∈ st.cache.lines, ∀ j < e.data.length, e.byteAt j = st.memory.peek (e.base + BitVec.ofNat 64 j)

/-- The byte Memory holds at an address, without the side effects of reading it. -/
def State.peek (s : State) (a : Addr) : Byte := s.storage.memory.peek a

/-- The 8-byte little-endian value Memory holds from an address on (20_memory.md R54). -/
def Memory.peekWord (m : Memory) (a : Addr) : Word :=
  wordOfBytes ((List.range 8).map fun i => m.peek (a + BitVec.ofNat 64 i))

/-- A sequence of `MemWriteByte`s, the first of the list first, with pages unbounded. -/
def Memory.writeAll : List (Addr × Byte) → Memory → Memory
  | [], m => m
  | (a, b) :: ws, m =>
    match memWriteByte none m a b with
    | .ok _ m' => Memory.writeAll ws m'
    | .exhausted _ m' => Memory.writeAll ws m'

/-- The number of completed byte accesses, modulo 2^64 (20_memory.md R95). -/
def CacheHierarchy.accessCount (c : CacheHierarchy) : BitVec 64 := c.hitCount + c.missCount

/-- No line of the cache starts at or above 2^48, and a line is not longer than the storage: no two cached bytes are one
byte of storage under two addresses (70_reset_and_hazards.md R265). -/
abbrev AliasFree (cfg : Config) (st : Storage) : Prop :=
  cfg.lineSize ≤ 2 ^ 48 ∧ ∀ e ∈ st.cache.lines, e.base.toNat < 2 ^ 48

/-- Two states a program cannot tell apart: everything but the cache, its counters, the pages allocated and the
configuration agrees, and every byte of Memory (10_state.md R37). -/
def SameProgramView (s t : State) : Prop :=
  s.x = t.x ∧ s.pc = t.pc ∧ s.flags = t.flags ∧ s.run = t.run ∧ s.cause = t.cause ∧ s.cinfo = t.cinfo ∧
    s.cin = t.cin ∧ s.cout = t.cout ∧ ∀ a, s.peek a = t.peek a

/-- An 8-byte read at `a` completes: pages are unbounded, or no byte of it meets a missing page at the cap
(20_memory.md R71, R101). -/
abbrev Readable (cfg : Config) (st : Storage) (a : Addr) : Prop :=
  cfg.maxPages = none ∨ ∃ v st', memRead cfg st a = .ok v st'

/-- An 8-byte write at `a` completes: pages are unbounded, or no byte of it meets a missing page at the cap
(20_memory.md R71, R102). -/
abbrev Writable (cfg : Config) (st : Storage) (a : Addr) (v : Word) : Prop :=
  cfg.maxPages = none ∨ ∃ st', memWrite cfg st a v = .ok () st'

/-- What the first `n` byte writes of a store of `v` at `a` do to Memory: those bytes are `v`'s, low byte first; every byte
of storage elsewhere is as before (20_memory.md R54, R102). -/
abbrev StoredBytes (st st' : Storage) (a : Addr) (v : Word) (n : Nat) : Prop :=
  (∀ k < n, st'.memory.peek (a + BitVec.ofNat 64 k) = v.extractLsb' (8 * k) 8) ∧
    ∀ c, (∀ k < n, ¬ sameByte c (a + BitVec.ofNat 64 k)) → st'.memory.peek c = st.memory.peek c

/-- What `n` completed byte writes of a store do: their bytes are stored and `n` accesses are counted (20_memory.md R95). -/
abbrev StoredPart (st st' : Storage) (a : Addr) (v : Word) (n : Nat) : Prop :=
  StoredBytes st st' a v n ∧ st'.cache.accessCount = st.cache.accessCount + BitVec.ofNat 64 n

/-- What a store of `v` at `a` that raises at `va` has done: `i` byte writes are complete; the next one raised at its own
address, or, with lines longer than a page only, at an address of its line after its byte had reached Memory
(20_memory.md R97, R102). -/
abbrev StoreRaised (cfg : Config) (st st' : Storage) (a va : Addr) (v : Word) : Prop :=
  ∃ i < 8, st'.cache.accessCount = st.cache.accessCount + BitVec.ofNat 64 i ∧
    ((va = a + BitVec.ofNat 64 i ∧ StoredBytes st st' a v i) ∨
      (pageSize < cfg.lineSize ∧
        (∃ j < cfg.lineSize, va = lineBase cfg (a + BitVec.ofNat 64 i) + BitVec.ofNat 64 j) ∧
        StoredBytes st st' a v (i + 1)))

/-- No line of the cache holds the address. -/
abbrev NotCached (cfg : Config) (st : Storage) (a : Addr) : Prop := ∀ e ∈ st.cache.lines, e.base ≠ lineBase cfg a

/-- The level at position `i` (level `i + 1`) is at capacity (20_memory.md R91). -/
abbrev LevelFull (cfg : Config) (levels : List Level) (i : Nat) : Prop :=
  levels[i]?.map List.length = some (capOf cfg (i + 1))

/-- What is left of level `k` to make room for one line: at capacity all but the last, else all of it (20_memory.md
R91). -/
def roomFor (cfg : Config) (k : Nat) (lvl : Level) : Level := if lvl.length = capOf cfg k then lvl.dropLast else lvl

/-- The address is the first of line `base`'s addresses, ascending, that has no page: where a fill of the line fails
(20_memory.md R98). -/
abbrev FirstMissing (cfg : Config) (m : Memory) (base va : Addr) : Prop :=
  ∃ j < cfg.lineSize, va = base + BitVec.ofNat 64 j ∧ lookupPage m.top va = none ∧
    ∀ i < j, lookupPage m.top (base + BitVec.ofNat 64 i) ≠ none

end Sys2Proof.Machine

namespace Sys2Proof

/-! ## Which fields an opcode uses (30_encoding.md R125) -/

/-- The opcodes that use `rd`. -/
def Opcode.usesRd : Opcode → Bool
  | .add | .sub | .mul | .div | .and | .or | .xor | .not | .movi | .movr | .movl | .movli | .readKeyboard => true
  | .movs | .movsi | .jmp | .jmpi | .je | .jei | .jne | .jnei | .jge | .jgei | .jl | .jli | .cmp | .writeScreen
  | .halt => false

/-- The opcodes that use `rs1`. -/
def Opcode.usesRs1 : Opcode → Bool
  | .add | .sub | .mul | .div | .and | .or | .xor | .not | .movr | .movs | .movsi | .cmp | .writeScreen => true
  | .movi | .movl | .movli | .jmp | .jmpi | .je | .jei | .jne | .jnei | .jge | .jgei | .jl | .jli | .readKeyboard
  | .halt => false

/-- The opcodes that use `rs2`. -/
def Opcode.usesRs2 : Opcode → Bool
  | .add | .sub | .mul | .div | .and | .or | .xor | .cmp => true
  | .not | .movi | .movr | .movl | .movli | .movs | .movsi | .jmp | .jmpi | .je | .jei | .jne | .jnei | .jge | .jgei
  | .jl | .jli | .readKeyboard | .writeScreen | .halt => false

/-- The opcodes that use the payload. -/
def Opcode.usesPayload : Opcode → Bool
  | .movi | .movl | .movli | .movs | .movsi | .jmp | .jmpi | .je | .jei | .jne | .jnei | .jge | .jgei | .jl
  | .jli => true
  | .add | .sub | .mul | .div | .and | .or | .xor | .not | .movr | .cmp | .readKeyboard | .writeScreen
  | .halt => false

/-- The register field an instruction writes (10_state.md R21). -/
def Instr.destination : Instr → Option RegField
  | .add rd _ _ => some rd
  | .sub rd _ _ => some rd
  | .mul rd _ _ => some rd
  | .div rd _ _ _ => some rd
  | .and rd _ _ => some rd
  | .or rd _ _ => some rd
  | .xor rd _ _ => some rd
  | .not rd _ => some rd
  | .movi rd _ => some rd
  | .movr rd _ => some rd
  | .movl rd _ => some rd
  | .movli rd _ => some rd
  | .movs _ _ => none
  | .movsi _ _ => none
  | .jmp _ => none
  | .jmpi _ => none
  | .je _ => none
  | .jei _ => none
  | .jne _ => none
  | .jnei _ => none
  | .jge _ => none
  | .jgei _ => none
  | .jl _ => none
  | .jli _ => none
  | .cmp _ _ => none
  | .readKeyboard rd => some rd
  | .writeScreen _ => none
  | .halt => none

/-- The jump opcodes: the only instructions that set `pc` to something else than the next instruction's address. -/
def Opcode.isJump : Opcode → Bool
  | .jmp | .jmpi | .je | .jei | .jne | .jnei | .jge | .jgei | .jl | .jli => true
  | .add | .sub | .mul | .div | .and | .or | .xor | .not | .movi | .movr | .movl | .movli | .movs | .movsi | .cmp
  | .readKeyboard | .writeScreen | .halt => false

/-- The conditional jumps: the only instructions that read the flags (10_state.md R26). -/
def Opcode.isConditional : Opcode → Bool
  | .je | .jei | .jne | .jnei | .jge | .jgei | .jl | .jli => true
  | .add | .sub | .mul | .div | .and | .or | .xor | .not | .movi | .movr | .movl | .movli | .movs | .movsi | .jmp
  | .jmpi | .cmp | .readKeyboard | .writeScreen | .halt => false

/-- The data accesses of an instruction that completes, in bytes, its fetch not counted: pointer bytes and data bytes
(20_memory.md R58, R95; 43_control_transfer.md R203). -/
def Instr.dataAccesses (i : Instr) (f : Machine.Flags) : Nat :=
  match i with
  | .movl _ _ => 8
  | .movli _ _ => 16
  | .movs _ _ => 8
  | .movsi _ _ => 16
  | .jmpi _ => 8
  | .jei _ => if f.zero then 8 else 0
  | .jnei _ => if f.zero then 0 else 8
  | .jgei _ => if f.zero || f.greaterThan then 8 else 0
  | .jli _ => if f.lessThan then 8 else 0
  | .add _ _ _ => 0
  | .sub _ _ _ => 0
  | .mul _ _ _ => 0
  | .div _ _ _ _ => 0
  | .and _ _ _ => 0
  | .or _ _ _ => 0
  | .xor _ _ _ => 0
  | .not _ _ => 0
  | .movi _ _ => 0
  | .movr _ _ => 0
  | .jmp _ => 0
  | .je _ => 0
  | .jne _ => 0
  | .jge _ => 0
  | .jl _ => 0
  | .cmp _ _ => 0
  | .readKeyboard _ => 0
  | .writeScreen _ => 0
  | .halt => 0

/-- The pointer address of the forms that access data through a pointer, MOVLI and MOVSI. -/
def Instr.dataPointer? : Instr → Option Payload
  | .movli _ p => some p
  | .movsi _ p => some p
  | .add _ _ _ => none
  | .sub _ _ _ => none
  | .mul _ _ _ => none
  | .div _ _ _ _ => none
  | .and _ _ _ => none
  | .or _ _ _ => none
  | .xor _ _ _ => none
  | .not _ _ => none
  | .movi _ _ => none
  | .movr _ _ => none
  | .movl _ _ => none
  | .movs _ _ => none
  | .jmp _ => none
  | .jmpi _ => none
  | .je _ => none
  | .jei _ => none
  | .jne _ => none
  | .jnei _ => none
  | .jge _ => none
  | .jgei _ => none
  | .jl _ => none
  | .jli _ => none
  | .cmp _ _ => none
  | .readKeyboard _ => none
  | .writeScreen _ => none
  | .halt => none

end Sys2Proof
end

