-- ==== Sys2Proof/Certificates/Slice0/Obligations.lean ====
section
/-! DEFINITION. The statements for the provers. Each docstring names the rules of spec/ it rests on; where a rule is a decision
of spec/92_eei_decisions.md (D<n>) or a choice of this model (log <n>), it says so. -/
open Sys2Proof Sys2Proof.Machine

/-! ## Reset -/

/-- 10_state.md R22: registers zero, flags false at construction, whatever the configuration. -/
def Obligations.ResetRegistersAndFlagsZero : Prop :=
  ∀ c : Config, (∀ r : Reg, (State.construct c).x[r] = 0) ∧ (State.construct c).flags = ⟨false, false, false⟩

/-- 10_state.md R39, 70_reset_and_hazards.md R261 (`pc`, `cause`, the counters: decisions D20, D22): every other field after
construction. `cin` is the environment's and the model's choice for it (log 3) is not stated. -/
def Obligations.ResetState : Prop :=
  ∀ c : Config,
    (State.construct c).pc = c.entryPc ∧ (State.construct c).run = .running ∧ (State.construct c).cause = .none ∧
      (State.construct c).cinfo = 0 ∧ (State.construct c).cout = [] ∧ (State.construct c).config = c ∧
      (State.construct c).storage.cache.levels.length = c.levels.length ∧
      (∀ lvl ∈ (State.construct c).storage.cache.levels, lvl = []) ∧
      (State.construct c).storage.cache.hitCount = 0 ∧ (State.construct c).storage.cache.missCount = 0 ∧
      (State.construct c).storage.cache.hitPercentage = 0 ∧ (State.construct c).storage.memory.pageCount = 0 ∧
      (State.construct c).storage.memory.top.slots = [] ∧
      (∀ a, lookupPage (State.construct c).storage.memory.top a = none) ∧ (∀ a, (State.construct c).peek a = 0) ∧
      State.reset.pc = 0

/-- 20_memory.md R82, 70_reset_and_hazards.md R260: construction with a legal configuration, the default one among them,
gives a well-formed state. -/
def Obligations.ConstructWellFormed : Prop :=
  (∀ c : Config, legalConfig c = true → (State.construct c).wf) ∧ State.reset.wf

/-! ## The step -/

/-- The invariant of the machine (10_state.md R27, R28, R32, R33, R34; 20_memory.md R70, R71, R82, R85): every step keeps
it. -/
def Obligations.StepKeepsWellFormed : Prop := ∀ s t : State, s.wf → step s = .next t → t.wf

/-- 30_encoding.md R132, 60_exceptions.md R240, 00_scope.md R12, 20_memory.md R82 (refusal: decision D19): with a legal
configuration every state, well formed or not, has a next state, and the configuration never changes; a configuration with no
level, a level of no line or a line size that is no power of two is refused. For a running core that does not wait this is
R132; that a halted core, and a READ_KEYBOARD with no character, which have no step in the spec, answer a next state (the
state itself) is the model's choice (log 4: DESIGN CHOICE, unsafe). -/
def Obligations.StepAnswersNextOrRefuses : Prop :=
  (∀ s : State, legalConfig s.config = true → ∃ t, step s = .next t ∧ t.config = s.config) ∧
  ∀ s : State, s.config.levels = [] ∨ (∃ l ∈ s.config.levels, l.size / s.config.lineSize = 0) ∨
      (∀ n, s.config.lineSize ≠ 2 ^ n) →
    step s = .refused .illegalConfiguration

/-- 10_state.md R28, 60_exceptions.md R242: Halted is terminal; no run leaves it. That a halted state's step answers the
state itself is the model's choice (log 4). -/
def Obligations.HaltedIsTerminal : Prop :=
  ∀ s t : State, s.run = .halted → Reaches s t → t = s

/-- 30_encoding.md R129 to R132: a step fetches the word at `pc` through the cache, decodes it and does what the instruction
does, from the state the fetch leaves. -/
def Obligations.StepRunsDecodedInstruction : Prop :=
  ∀ (s : State) (w : Word) (st : Storage) (i : Instr), legalConfig s.config = true → s.run = .running →
    memRead s.config s.storage s.pc = .ok w st → decode w = .ok i → waitsForConsole i s = false →
    step s = exec i { s with storage := st }

/-- 30_encoding.md R129, R131, 20_memory.md R90: where cache and Memory agree, the instruction that runs is the one Memory
holds at `pc`; the fetch changes no byte of Memory and makes 8 accesses. -/
def Obligations.StepRunsInstructionInMemory : Prop :=
  ∀ (s : State) (i : Instr), s.wf → Coherent s.storage → s.run = .running → Readable s.config s.storage s.pc →
    decode (s.storage.memory.peekWord s.pc) = .ok i → waitsForConsole i s = false →
    ∃ st, step s = exec i { s with storage := st } ∧ (∀ a, st.memory.peek a = s.peek a) ∧ Coherent st ∧
      st.cache.accessCount = s.storage.cache.accessCount + 8

/-- 30_encoding.md R129, R133, 60_exceptions.md R231, R236, R241 (the 28 numbers: decision D3; the cause numbers: D13): a
fetched word whose `op` is none of the 28 numbers raises `InvalidOpcode` with the word recorded; a fetch that meets a missing
page at the cap raises `AddressTranslationExhausted` with the address recorded. The fetch's effects stay and nothing else
changes. -/
def Obligations.FetchAndDecodeConditions : Prop :=
  Cause.invalidOpcode.number = 1 ∧ Cause.addressTranslationExhausted.number = 6 ∧
  (∀ (s : State) (w : Word) (st : Storage), legalConfig s.config = true → s.run = .running →
    memRead s.config s.storage s.pc = .ok w st →
    (w.extractLsb' 56 8).toNat ∉ [0x10, 0x11, 0x12, 0x13, 0x20, 0x21, 0x22, 0x23, 0x30, 0x31, 0x32, 0x33, 0x34, 0x35,
      0x40, 0x41, 0x42, 0x43, 0x44, 0x45, 0x46, 0x47, 0x48, 0x49, 0x50, 0x60, 0x61, 0x70] →
    step s = .next { s with storage := st, run := .halted, cause := .invalidOpcode, cinfo := w }) ∧
  ∀ (s : State) (va : Addr) (st : Storage), legalConfig s.config = true → s.run = .running →
    memRead s.config s.storage s.pc = .exhausted va st →
    step s = .next { s with storage := st, run := .halted, cause := .addressTranslationExhausted, cinfo := va }

/-! ## Encoding -/

/-- 95_test_vectors.md E1 to E10 and the words with junk in unused fields (opcode numbers: decision D3). -/
def Obligations.DefinedWordsDecode : Prop :=
  decode 0x300000000000000A = .ok (.movi 0 10) ∧ decode 0x1002000100000000 = .ok (.add 2 0 1) ∧
    decode 0x30000000FFFFFFFE = .ok (.movi 0 0xFFFFFFFE) ∧ decode 0x3400010000002000 = .ok (.movs 1 0x2000) ∧
    decode 0x5000010200000000 = .ok (.cmp 1 2) ∧ decode 0x4800000000000020 = .ok (.jl 0x20) ∧
    decode 0x2303020000000000 = .ok (.not 3 2) ∧ decode 0x7000000000000000 = .ok .halt ∧
    decode 0x6100010000000000 = .ok (.writeScreen 1) ∧ decode 0x41000000FFFFFFFF = .ok (.jmpi 0xFFFFFFFF) ∧
    decode 0x70FFFFFFFFFFFFFF = .ok .halt ∧ decode 0x4009090900000010 = .ok (.jmp 0x10) ∧
    decode 0x5009010200000000 = .ok (.cmp 1 2) ∧ decode 0x230302FF12345678 = .ok (.not 3 2) ∧
    decode 0 = .error .invalidOpcode

/-- 30_encoding.md R121, R123: the five fields of a word, as numbers, and the word they make up. -/
def Obligations.FieldExtraction : Prop :=
  ∀ w : Word,
    (fieldsOfWord w).op.toNat = w.toNat / 2 ^ 56 ∧ (fieldsOfWord w).rd.toNat = w.toNat / 2 ^ 48 % 256 ∧
      (fieldsOfWord w).rs1.toNat = w.toNat / 2 ^ 40 % 256 ∧ (fieldsOfWord w).rs2.toNat = w.toNat / 2 ^ 32 % 256 ∧
      (fieldsOfWord w).payload.toNat = w.toNat % 2 ^ 32

/-- 30_encoding.md R125, R126, R140: decoding the word of any instruction gives the instruction back, every operand at every
value its field admits, illegal register fields included; and a word with nothing in its unused fields is the encoding of the
instruction it decodes to, so no two such words decode alike. -/
def Obligations.DecodeEncodeRoundTrip : Prop :=
  (∀ i : Instr, decode (encode i) = .ok i) ∧
  ∀ (w : Word) (i : Instr), decode w = .ok i →
    (i.opcode.usesRd = false → (fieldsOfWord w).rd = 0) → (i.opcode.usesRs1 = false → (fieldsOfWord w).rs1 = 0) →
    (i.opcode.usesRs2 = false → (fieldsOfWord w).rs2 = 0) →
    (i.opcode.usesPayload = false → i.opcode ≠ .div → (fieldsOfWord w).payload = 0) →
    encode i = w

/-- 30_encoding.md R140, R125, R127 (the numbers: decision D3): the word of an instruction is its fields shifted into place;
an unused register field is 0 and so is an unused payload, but DIV's, which the model keeps (log 9). For each of the 28
instructions its fields are its opcode's number and its own operands, each in the field R125 gives it. -/
def Obligations.EncodeFormula : Prop :=
  (∀ (i : Instr) (f : Fields), f = i.operands (numberOfOpcode i.opcode) →
    encode i = (f.op.setWidth 64 <<< 56) ||| (f.rd.setWidth 64 <<< 48) ||| (f.rs1.setWidth 64 <<< 40) |||
      (f.rs2.setWidth 64 <<< 32) ||| f.payload.setWidth 64 ∧
    (i.opcode.usesRd = false → f.rd = 0) ∧ (i.opcode.usesRs1 = false → f.rs1 = 0) ∧
    (i.opcode.usesRs2 = false → f.rs2 = 0) ∧ (i.opcode.usesPayload = false → i.opcode ≠ .div → f.payload = 0)) ∧
  ∀ (rd rs1 rs2 : RegField) (p : Payload),
    (Instr.add rd rs1 rs2).operands (numberOfOpcode .add) = ⟨0x10, rd, rs1, rs2, 0⟩ ∧
      (Instr.sub rd rs1 rs2).operands (numberOfOpcode .sub) = ⟨0x11, rd, rs1, rs2, 0⟩ ∧
      (Instr.mul rd rs1 rs2).operands (numberOfOpcode .mul) = ⟨0x12, rd, rs1, rs2, 0⟩ ∧
      (Instr.div rd rs1 rs2 p).operands (numberOfOpcode .div) = ⟨0x13, rd, rs1, rs2, p⟩ ∧
      (Instr.and rd rs1 rs2).operands (numberOfOpcode .and) = ⟨0x20, rd, rs1, rs2, 0⟩ ∧
      (Instr.or rd rs1 rs2).operands (numberOfOpcode .or) = ⟨0x21, rd, rs1, rs2, 0⟩ ∧
      (Instr.xor rd rs1 rs2).operands (numberOfOpcode .xor) = ⟨0x22, rd, rs1, rs2, 0⟩ ∧
      (Instr.not rd rs1).operands (numberOfOpcode .not) = ⟨0x23, rd, rs1, 0, 0⟩ ∧
      (Instr.movi rd p).operands (numberOfOpcode .movi) = ⟨0x30, rd, 0, 0, p⟩ ∧
      (Instr.movr rd rs1).operands (numberOfOpcode .movr) = ⟨0x31, rd, rs1, 0, 0⟩ ∧
      (Instr.movl rd p).operands (numberOfOpcode .movl) = ⟨0x32, rd, 0, 0, p⟩ ∧
      (Instr.movli rd p).operands (numberOfOpcode .movli) = ⟨0x33, rd, 0, 0, p⟩ ∧
      (Instr.movs rs1 p).operands (numberOfOpcode .movs) = ⟨0x34, 0, rs1, 0, p⟩ ∧
      (Instr.movsi rs1 p).operands (numberOfOpcode .movsi) = ⟨0x35, 0, rs1, 0, p⟩ ∧
      (Instr.jmp p).operands (numberOfOpcode .jmp) = ⟨0x40, 0, 0, 0, p⟩ ∧
      (Instr.jmpi p).operands (numberOfOpcode .jmpi) = ⟨0x41, 0, 0, 0, p⟩ ∧
      (Instr.je p).operands (numberOfOpcode .je) = ⟨0x42, 0, 0, 0, p⟩ ∧
      (Instr.jei p).operands (numberOfOpcode .jei) = ⟨0x43, 0, 0, 0, p⟩ ∧
      (Instr.jne p).operands (numberOfOpcode .jne) = ⟨0x44, 0, 0, 0, p⟩ ∧
      (Instr.jnei p).operands (numberOfOpcode .jnei) = ⟨0x45, 0, 0, 0, p⟩ ∧
      (Instr.jge p).operands (numberOfOpcode .jge) = ⟨0x46, 0, 0, 0, p⟩ ∧
      (Instr.jgei p).operands (numberOfOpcode .jgei) = ⟨0x47, 0, 0, 0, p⟩ ∧
      (Instr.jl p).operands (numberOfOpcode .jl) = ⟨0x48, 0, 0, 0, p⟩ ∧
      (Instr.jli p).operands (numberOfOpcode .jli) = ⟨0x49, 0, 0, 0, p⟩ ∧
      (Instr.cmp rs1 rs2).operands (numberOfOpcode .cmp) = ⟨0x50, 0, rs1, rs2, 0⟩ ∧
      (Instr.readKeyboard rd).operands (numberOfOpcode .readKeyboard) = ⟨0x60, rd, 0, 0, 0⟩ ∧
      (Instr.writeScreen rs1).operands (numberOfOpcode .writeScreen) = ⟨0x61, 0, rs1, 0, 0⟩ ∧
      Instr.halt.operands (numberOfOpcode .halt) = ⟨0x70, 0, 0, 0, 0⟩

/-- 30_encoding.md R126 (decision D4), R130: two words with one `op` that agree in the fields the opcode uses are one
instruction; two DIV words, which also keep their payload, do the same but for the word a `DivisionByZero` records. -/
def Obligations.UnusedFieldsIgnored : Prop :=
  ∀ (w w' : Word) (i : Instr), decode w = .ok i → (fieldsOfWord w').op = (fieldsOfWord w).op →
    (i.opcode.usesRd = true → (fieldsOfWord w').rd = (fieldsOfWord w).rd) →
    (i.opcode.usesRs1 = true → (fieldsOfWord w').rs1 = (fieldsOfWord w).rs1) →
    (i.opcode.usesRs2 = true → (fieldsOfWord w').rs2 = (fieldsOfWord w).rs2) →
    (i.opcode.usesPayload = true → (fieldsOfWord w').payload = (fieldsOfWord w).payload) →
    (i.opcode ≠ .div → decode w' = .ok i) ∧
      (i.opcode = .div → ∃ i', decode w' = .ok i' ∧
        ∀ s t, exec i s = .next t → ∃ c, exec i' s = .next { t with cinfo := c } ∧ (t.cause ≠ .divisionByZero → c = t.cinfo))

/-- 30_encoding.md R130, 60_exceptions.md R233 (decision D6): an instruction with a used register field above 3 raises
`RegisterIndexOutOfRange`, recording the first such field in the order `rd`, `rs1`, `rs2`, and does nothing else. -/
def Obligations.RegisterFieldAboveThreeRaises : Prop :=
  Cause.registerIndexOutOfRange.number = 3 ∧
  (∀ i : Instr, i.wellFormed = false ↔ ∃ f, i.usedFields.find? (fun f => 4 ≤ f.toNat) = some f) ∧
  ∀ (i : Instr) (s : State) (f : RegField), i.usedFields.find? (fun f => 4 ≤ f.toNat) = some f →
    exec i s = .next { s with run := .halted, cause := .registerIndexOutOfRange, cinfo := f.setWidth 64 }

/-! ## Arithmetic and logic -/

/-- 40_arithmetic.md R160, R161, R162, R164, R166 (wrapping: decision D7): ADD, SUB and MUL complete from every state; the
destination register holds the exact result of the values the sources held, modulo 2^64, the same whether they are read as
unsigned or as signed integers; `pc` advances, nothing else changes. -/
def Obligations.AddSubMulResults : Prop :=
  ∀ (d a b : Reg) (s : State), ∃ sum difference product : Word,
    exec (.add d.field a.field b.field) s = .next { s with x := s.x.set d sum, pc := s.pc + 8 } ∧
      exec (.sub d.field a.field b.field) s = .next { s with x := s.x.set d difference, pc := s.pc + 8 } ∧
      exec (.mul d.field a.field b.field) s = .next { s with x := s.x.set d product, pc := s.pc + 8 } ∧
      sum.toNat = (s.x[a].toNat + s.x[b].toNat) % 2 ^ 64 ∧
      sum = BitVec.ofInt 64 (s.x[a].toInt + s.x[b].toInt) ∧
      (difference.toNat : Int) = ((s.x[a].toNat : Int) - s.x[b].toNat) % 2 ^ 64 ∧
      difference = BitVec.ofInt 64 (s.x[a].toInt - s.x[b].toInt) ∧
      product.toNat = s.x[a].toNat * s.x[b].toNat % 2 ^ 64 ∧
      product = BitVec.ofInt 64 (s.x[a].toInt * s.x[b].toInt)

/-- 40_arithmetic.md R163, R165, R166 (rounding: decision D8): DIV with a divisor that is not zero completes with the
quotient `sign(a) * sign(b) * floor(|a| / |b|)`, which is exact as a signed number but for -2^63 / -1, where it wraps to
-2^63; nothing else changes. -/
def Obligations.DivResult : Prop :=
  ∀ (d a b : Reg) (p : Payload) (s : State), s.x[b] ≠ 0 →
    ∃ q : Word,
      exec (.div d.field a.field b.field p) s = .next { s with x := s.x.set d q, pc := s.pc + 8 } ∧
      (¬ (s.x[a].toInt = -2 ^ 63 ∧ s.x[b].toInt = -1) →
        q.toInt = s.x[a].toInt.sign * s.x[b].toInt.sign * (s.x[a].toInt.natAbs / s.x[b].toInt.natAbs : Nat)) ∧
      (s.x[a].toInt = -2 ^ 63 ∧ s.x[b].toInt = -1 → q.toInt = -2 ^ 63)

/-- 40_arithmetic.md R163, 60_exceptions.md R232: a word that decodes to a DIV with legal fields and a divisor of zero raises
`DivisionByZero`, recording the whole word (log 9), and changes no register, flag or byte. -/
def Obligations.DivByZeroRaises : Prop :=
  Cause.divisionByZero.number = 2 ∧
  ∀ (w : Word) (d a b : Reg) (p : Payload) (s : State), decode w = .ok (.div d.field a.field b.field p) → s.x[b] = 0 →
    exec (.div d.field a.field b.field p) s =
      .next { s with run := .halted, cause := .divisionByZero, cinfo := w }

/-- 41_logical.md R170 to R173 (bitwise: decision D41): AND, OR, XOR and NOT complete from every state, bit by bit over all
64 bits; nothing but the destination and `pc` changes. -/
def Obligations.LogicalResults : Prop :=
  ∀ (d a b : Reg) (s : State), ∃ vAnd vOr vXor vNot : Word,
    exec (.and d.field a.field b.field) s = .next { s with x := s.x.set d vAnd, pc := s.pc + 8 } ∧
      exec (.or d.field a.field b.field) s = .next { s with x := s.x.set d vOr, pc := s.pc + 8 } ∧
      exec (.xor d.field a.field b.field) s = .next { s with x := s.x.set d vXor, pc := s.pc + 8 } ∧
      exec (.not d.field a.field) s = .next { s with x := s.x.set d vNot, pc := s.pc + 8 } ∧
      ∀ i < 64, vAnd.getLsbD i = (s.x[a].getLsbD i && s.x[b].getLsbD i) ∧
        vOr.getLsbD i = (s.x[a].getLsbD i || s.x[b].getLsbD i) ∧
        vXor.getLsbD i = (s.x[a].getLsbD i != s.x[b].getLsbD i) ∧ vNot.getLsbD i = !s.x[a].getLsbD i

/-! ## Data transfer -/

/-- 42_data_transfer.md R180, R181 (sign extension: decision D5): MOVI and MOVR complete from every state; the immediate
keeps its signed value. -/
def Obligations.MoveImmediateAndRegister : Prop :=
  ∀ (d a : Reg) (p : Payload) (s : State),
    (∃ v : Word, v.toInt = p.toInt ∧
      exec (.movi d.field p) s = .next { s with x := s.x.set d v, pc := s.pc + 8 }) ∧
    exec (.movr d.field a.field) s = .next { s with x := s.x.set d s.x[a], pc := s.pc + 8 }

/-- 42_data_transfer.md R182, R186, R187, 20_memory.md R101: MOVL completes where its 8 bytes can be read: 8 accesses, no
byte of Memory changed, and, where cache and Memory agree, the little-endian value Memory holds at `zext_64(payload)`. -/
def Obligations.LoadDirectResult : Prop :=
  ∀ (d : Reg) (p : Payload) (s : State), s.wf → Readable s.config s.storage (p.setWidth 64) →
    ∃ v st, memRead s.config s.storage (p.setWidth 64) = .ok v st ∧
      exec (.movl d.field p) s = .next { s with x := s.x.set d v, pc := s.pc + 8, storage := st } ∧
      (∀ a, st.memory.peek a = s.peek a) ∧ st.cache.accessCount = s.storage.cache.accessCount + 8 ∧
      (Coherent s.storage → v = s.storage.memory.peekWord (p.setWidth 64))

/-- 42_data_transfer.md R183, R186, R188: MOVLI reads the pointer at `zext_64(payload)`, then the value the pointer names:
16 accesses, no byte of Memory changed, and, where cache and Memory agree, both values are Memory's. -/
def Obligations.LoadIndirectResult : Prop :=
  ∀ (d : Reg) (p : Payload) (s : State), s.wf → Readable s.config s.storage (p.setWidth 64) →
    (∀ ea st, memRead s.config s.storage (p.setWidth 64) = .ok ea st → Readable s.config st ea) →
    ∃ ea st v st', memRead s.config s.storage (p.setWidth 64) = .ok ea st ∧ memRead s.config st ea = .ok v st' ∧
      exec (.movli d.field p) s = .next { s with x := s.x.set d v, pc := s.pc + 8, storage := st' } ∧
      (∀ a, st'.memory.peek a = s.peek a) ∧ st'.cache.accessCount = s.storage.cache.accessCount + 16 ∧
      (Coherent s.storage → ea = s.storage.memory.peekWord (p.setWidth 64) ∧ v = s.storage.memory.peekWord ea)

/-- 42_data_transfer.md R184, R187, 20_memory.md R54, R88, R102: MOVS completes where its 8 bytes can be written: Memory
holds the register's bytes, low byte first, from `zext_64(payload)` on; every byte of storage elsewhere is as before; 8
accesses; no register and no flag changes. -/
def Obligations.StoreDirectResult : Prop :=
  ∀ (a : Reg) (p : Payload) (s : State), s.wf → Writable s.config s.storage (p.setWidth 64) s.x[a] →
    ∃ st, memWrite s.config s.storage (p.setWidth 64) s.x[a] = .ok () st ∧
      exec (.movs a.field p) s = .next { s with pc := s.pc + 8, storage := st } ∧
      StoredPart s.storage st (p.setWidth 64) s.x[a] 8

/-- 42_data_transfer.md R185, R186, R188 (one pointer read: decision D10): MOVSI stores to the pointer read at
`zext_64(payload)` before any byte is written; every byte of storage elsewhere is as before; 16 accesses. -/
def Obligations.StoreIndirectResult : Prop :=
  ∀ (a : Reg) (p : Payload) (s : State), s.wf → Readable s.config s.storage (p.setWidth 64) →
    (∀ ea st, memRead s.config s.storage (p.setWidth 64) = .ok ea st → Writable s.config st ea s.x[a]) →
    ∃ ea st st', memRead s.config s.storage (p.setWidth 64) = .ok ea st ∧
      memWrite s.config st ea s.x[a] = .ok () st' ∧
      exec (.movsi a.field p) s = .next { s with pc := s.pc + 8, storage := st' } ∧
      (∀ c, st.memory.peek c = s.peek c) ∧ st.cache.accessCount = s.storage.cache.accessCount + 8 ∧
      StoredPart st st' ea s.x[a] 8 ∧
      (Coherent s.storage → ea = s.storage.memory.peekWord (p.setWidth 64))

/-- 42_data_transfer.md R182, R183, R185, 43_control_transfer.md R191, 60_exceptions.md R236, R241 (decision D26): a load, the
pointer read of an indirect form, or the data read of MOVLI that meets a missing page at the cap raises
`AddressTranslationExhausted` with the address; no register, no flag and no byte changes. -/
def Obligations.ReadRaisesExhausted : Prop :=
  ∀ (r : Reg) (p : Payload) (s : State) (va : Addr) (st : Storage), s.wf →
    (memRead s.config s.storage (p.setWidth 64) = .exhausted va st →
      (∀ i : Instr, i = .movl r.field p ∨ i = .movli r.field p ∨ i = .movsi r.field p ∨ i = .jmpi p ∨
          (i = .jei p ∧ s.flags.zero = true) ∨ (i = .jnei p ∧ s.flags.zero = false) ∨
          (i = .jgei p ∧ (s.flags.zero = true ∨ s.flags.greaterThan = true)) ∨
          (i = .jli p ∧ s.flags.lessThan = true) →
        exec i s =
          .next { s with storage := st, run := .halted, cause := .addressTranslationExhausted, cinfo := va }) ∧
      ∀ a, st.memory.peek a = s.peek a) ∧
    ∀ ea st1, memRead s.config s.storage (p.setWidth 64) = .ok ea st1 → memRead s.config st1 ea = .exhausted va st →
      exec (.movli r.field p) s =
        .next { s with storage := st, run := .halted, cause := .addressTranslationExhausted, cinfo := va } ∧
      ∀ a, st.memory.peek a = s.peek a

/-- 42_data_transfer.md R184, R185, 60_exceptions.md R236, R241, 20_memory.md R97 (decision D26): a store that meets a
missing page at the cap raises with the address that has no page: the bytes before the one that raised stay written and
counted, and no other byte changes, but that, with lines longer than a page, the byte whose line could not be filled has
reached Memory too. -/
def Obligations.StoreRaiseKeepsEarlierBytes : Prop :=
  ∀ (a : Reg) (p : Payload) (s : State) (va : Addr) (st : Storage), s.wf →
    (memWrite s.config s.storage (p.setWidth 64) s.x[a] = .exhausted va st →
      exec (.movs a.field p) s =
          .next { s with storage := st, run := .halted, cause := .addressTranslationExhausted, cinfo := va } ∧
        lookupPage st.memory.top va = none ∧ StoreRaised s.config s.storage st (p.setWidth 64) va s.x[a]) ∧
    ∀ ea st1, memRead s.config s.storage (p.setWidth 64) = .ok ea st1 →
      memWrite s.config st1 ea s.x[a] = .exhausted va st →
      exec (.movsi a.field p) s =
          .next { s with storage := st, run := .halted, cause := .addressTranslationExhausted, cinfo := va } ∧
        lookupPage st.memory.top va = none ∧ StoreRaised s.config st1 st ea va s.x[a]

/-! ## Comparison and control transfer -/

/-- 44_compare.md R211: CMP completes from every state with the signed comparison of its registers in the flags, exactly one
of them true; no register changes. -/
def Obligations.CompareExclusivity : Prop :=
  ∀ (a b : Reg) (s : State), ∃ f : Flags,
    exec (.cmp a.field b.field) s = .next { s with flags := f, pc := s.pc + 8 } ∧
      (f.zero = true ↔ s.x[a].toInt = s.x[b].toInt) ∧ (f.greaterThan = true ↔ s.x[a].toInt > s.x[b].toInt) ∧
      (f.lessThan = true ↔ s.x[a].toInt < s.x[b].toInt) ∧
      (f = ⟨true, false, false⟩ ∨ f = ⟨false, true, false⟩ ∨ f = ⟨false, false, true⟩)

/-- 10_state.md R26: the flags are written by CMP alone, and read by the conditional jumps alone: any other instruction does
the same whatever they are. -/
def Obligations.FlagsWrittenByCmpReadByJumps : Prop :=
  (∀ (i : Instr) (s t : State), exec i s = .next t → i.opcode ≠ .cmp → t.flags = s.flags) ∧
  ∀ (i : Instr) (s t : State) (f : Flags), i.opcode.isConditional = false → exec i s = .next t →
    exec i { s with flags := f } =
      .next { t with flags := if i.opcode = .cmp ∧ i.wellFormed = true then t.flags else f }

/-- 43_control_transfer.md R190, R192, R194, R196, R198, R200, R201, R203 (flag expressions: decision D11; no pointer read by
an untaken jump: D34): the direct jumps complete from every state, and so does an indirect conditional jump that is not taken;
only `pc` changes. -/
def Obligations.DirectAndUntakenJumps : Prop :=
  ∀ (p : Payload) (s : State),
    exec (.jmp p) s = .next { s with pc := p.setWidth 64 } ∧
      exec (.je p) s = .next { s with pc := if s.flags.zero then p.setWidth 64 else s.pc + 8 } ∧
      exec (.jne p) s = .next { s with pc := if s.flags.zero then s.pc + 8 else p.setWidth 64 } ∧
      exec (.jge p) s =
        .next { s with pc := if s.flags.zero || s.flags.greaterThan then p.setWidth 64 else s.pc + 8 } ∧
      exec (.jl p) s = .next { s with pc := if s.flags.lessThan then p.setWidth 64 else s.pc + 8 } ∧
      (s.flags.zero = false → exec (.jei p) s = .next { s with pc := s.pc + 8 }) ∧
      (s.flags.zero = true → exec (.jnei p) s = .next { s with pc := s.pc + 8 }) ∧
      (s.flags.zero = false ∧ s.flags.greaterThan = false → exec (.jgei p) s = .next { s with pc := s.pc + 8 }) ∧
      (s.flags.lessThan = false → exec (.jli p) s = .next { s with pc := s.pc + 8 })

/-- 43_control_transfer.md R191, R193, R195, R197, R199, R200, R201: a taken indirect jump completes where the pointer can be
read: `pc` becomes the 8-byte value at `zext_64(payload)`, Memory's where cache and Memory agree; 8 accesses, no byte of
Memory changed, nothing else changed. -/
def Obligations.IndirectJumpsTaken : Prop :=
  ∀ (p : Payload) (s : State), s.wf → Readable s.config s.storage (p.setWidth 64) →
    ∃ v st, memRead s.config s.storage (p.setWidth 64) = .ok v st ∧
      exec (.jmpi p) s = .next { s with pc := v, storage := st } ∧
      (s.flags.zero = true → exec (.jei p) s = .next { s with pc := v, storage := st }) ∧
      (s.flags.zero = false → exec (.jnei p) s = .next { s with pc := v, storage := st }) ∧
      (s.flags.zero = true ∨ s.flags.greaterThan = true →
        exec (.jgei p) s = .next { s with pc := v, storage := st }) ∧
      (s.flags.lessThan = true → exec (.jli p) s = .next { s with pc := v, storage := st }) ∧
      (∀ a, st.memory.peek a = s.peek a) ∧ st.cache.accessCount = s.storage.cache.accessCount + 8 ∧
      (Coherent s.storage → v = s.storage.memory.peekWord (p.setWidth 64))

/-! ## Console and halt -/

/-- 45_io.md R215, 70_reset_and_hazards.md R274 (decisions D24, D33): READ_KEYBOARD completes where a character is waiting: it
takes the first one, zero-extended into the destination register; nothing else changes. A code of 2^64 or more, for which the
rule states no value, leaves a free value (log 7). With no character it does not move on and does not halt, and its fetch
does not happen; that the model then answers the state itself is its choice (log 4). -/
def Obligations.ReadKeyboardTakesFirstOrWaits : Prop :=
  (∀ (d : Reg) (s : State) (c : Nat) (rest : List Nat), s.cin = c :: rest →
    ∃ v : Word, exec (.readKeyboard d.field) s = .next { s with x := s.x.set d v, cin := rest, pc := s.pc + 8 } ∧
      (c < 2 ^ 64 → v.toNat = c)) ∧
  (∀ (d : Reg) (s : State), s.cin = [] → exec (.readKeyboard d.field) s = .next s) ∧
  ∀ (s : State) (w : Word) (st : Storage) (d : Reg), legalConfig s.config = true → s.run = .running →
    memRead s.config s.storage s.pc = .ok w st → decode w = .ok (.readKeyboard d.field) → s.cin = [] →
    step s = .next s

/-- 45_io.md R216: WRITE_SCREEN completes from every state, appending the register's 64 bits to the output. -/
def Obligations.WriteScreenAppends : Prop :=
  ∀ (a : Reg) (s : State),
    exec (.writeScreen a.field) s = .next { s with cout := s.cout ++ [s.x[a]], pc := s.pc + 8 }

/-- 46_halt.md R220 (`pc` stays: decision D12): HALT completes from every state; only the run state changes. -/
def Obligations.HaltResult : Prop := ∀ s : State, exec .halt s = .next { s with run := .halted }

/-- 45_io.md R217: the console is reached by READ_KEYBOARD and WRITE_SCREEN alone; a step takes characters from the front and
adds values at the back. -/
def Obligations.ConsoleOnlyByIo : Prop :=
  ∀ (i : Instr) (s t : State), exec i s = .next t →
    (i.opcode ≠ .readKeyboard → t.cin = s.cin) ∧ (i.opcode ≠ .writeScreen → t.cout = s.cout) ∧
      t.cin <:+ s.cin ∧ s.cout <+: t.cout

/-! ## Frames and conditions, over all instructions -/

/-- 10_state.md R21, R26, R31: an instruction writes no general register but its destination, and never the
configuration. -/
def Obligations.RegisterFrame : Prop :=
  ∀ (i : Instr) (s t : State), exec i s = .next t →
    t.config = s.config ∧ ∀ r : Reg, i.destination ≠ some r.field → t.x[r] = s.x[r]

/-- 20_memory.md R50: only MOVS and MOVSI change a byte of Memory. -/
def Obligations.NonStoringKeepsMemory : Prop :=
  ∀ (i : Instr) (s t : State), s.wf → exec i s = .next t → i.opcode ≠ .movs → i.opcode ≠ .movsi →
    ∀ a, t.peek a = s.peek a

/-- 10_state.md R24 (decisions D2, D12): an instruction of a running core that is no jump leaves `pc` at the next
instruction, or where it was if the core halts. -/
def Obligations.ProgramCounterAdvance : Prop :=
  ∀ (i : Instr) (s t : State), s.run = .running → exec i s = .next t → waitsForConsole i s = false →
    (t.run = .halted → t.pc = s.pc) ∧ (t.run = .running → i.opcode.isJump = false → t.pc = s.pc + 8)

/-- 10_state.md R28, R29, 46_halt.md R220, 60_exceptions.md R230, R237, R240: a running core halts exactly by HALT, with
nothing recorded, or by a condition, one of the kinds 1, 2, 3 and 6. -/
def Obligations.HaltsByHaltOrCondition : Prop :=
  ∀ (s t : State), s.wf → s.run = .running → step s = .next t →
    t.cause.number ∈ [0, 1, 2, 3, 6] ∧
    (t.run = .halted → t.cause ≠ .none ∨ (t.cinfo = 0 ∧
      ∃ w st, memRead s.config s.storage s.pc = .ok w st ∧ decode w = .ok .halt)) ∧
    (t.run = .running → t.cause = .none ∧ t.cinfo = 0)

/-- 60_exceptions.md R240, R241 (decisions D12, D26): a step that records a condition leaves registers, flags, `pc` and the
console channels as they were before it. -/
def Obligations.ConditionIsPrecise : Prop :=
  ∀ (s t : State), s.wf → s.run = .running → step s = .next t → t.cause ≠ .none →
    t.run = .halted ∧ t.x = s.x ∧ t.flags = s.flags ∧ t.pc = s.pc ∧ t.cin = s.cin ∧ t.cout = s.cout

/-! ## Translation and Memory -/

/-- 20_memory.md R66, R67: the four indices and the offset of an address, as numbers, and the slots the indices select. -/
def Obligations.AddressSplit : Prop :=
  ∀ a : Addr,
    (index4 a).toNat = a.toNat / 2 ^ 39 % 512 ∧ (index3 a).toNat = a.toNat / 2 ^ 30 % 512 ∧
      (index2 a).toNat = a.toNat / 2 ^ 21 % 512 ∧ (index1 a).toNat = a.toNat / 2 ^ 12 % 512 ∧
      (offsetOf a).toNat = a.toNat % 4096 ∧
      ∀ top : Level4Table, lookupPage top a =
        (((top.get (index4 a)).bind fun t3 => t3.get (index3 a)).bind fun t2 => t2.get (index2 a)).bind fun t1 =>
          t1.get (index1 a)

/-- 20_memory.md R74 (decision D36): bits 63:48 take no part in translation. -/
def Obligations.HighAddressBitsIgnored : Prop :=
  ∀ (maxPages : Option Nat) (m : Memory) (a b : Addr), sameByte a b →
    Machine.translate maxPages m a = Machine.translate maxPages m b ∧ offsetOf a = offsetOf b ∧ m.peek a = m.peek b

/-- 20_memory.md R77: a byte write raises where the address does not translate, and otherwise changes that byte of storage
and no other. -/
def Obligations.MemoryByteWrite : Prop :=
  ∀ (maxPages : Option Nat) (m : Memory) (a : Addr) (b : Byte), m.wf →
    ((Machine.translate maxPages m a).1 = none → ∃ m', memWriteByte maxPages m a b = .exhausted a m' ∧
      ∀ c, m'.peek c = m.peek c) ∧
    ((Machine.translate maxPages m a).1 ≠ none → ∃ m', memWriteByte maxPages m a b = .ok () m' ∧
      ∀ c, m'.peek c = if sameByte c a then b else m.peek c)

/-- 20_memory.md R68, R69, R70, R71, R76: a byte read of an address with no page creates one, of zeros, with the next index,
or raises at the cap; a read of an address with a page creates nothing, whatever the cap. No byte of Memory changes. -/
def Obligations.MemoryByteRead : Prop :=
  ∀ (maxPages : Option Nat) (m : Memory) (a : Addr), m.wf →
    (lookupPage m.top a = none → (∀ n ∈ maxPages, m.pageCount < n) →
      ∃ m', memReadByte maxPages m a = .ok 0 m' ∧ m'.pageCount = m.pageCount + 1 ∧
        lookupPage m'.top a = some ⟨m.pageCount⟩ ∧ ∀ c, m'.peek c = m.peek c) ∧
    (lookupPage m.top a = none → (∃ n ∈ maxPages, n ≤ m.pageCount) →
      ∃ m', memReadByte maxPages m a = .exhausted a m' ∧ m'.pageCount = m.pageCount ∧ ∀ c, m'.peek c = m.peek c) ∧
    (lookupPage m.top a ≠ none → memReadByte maxPages m a = .ok (m.peek a) m)

/-- 20_memory.md R79: after any writes from the empty Memory a byte reads as the last one written to it, and 0 if none
was. -/
def Obligations.MemoryHoldsLastWrite : Prop :=
  ∀ (ws : List (Addr × Byte)) (a : Addr),
    (Memory.writeAll ws State.reset.storage.memory).peek a =
      ((ws.reverse.find? (fun w => decide (sameByte w.1 a))).map (·.2)).getD 0

/-- 20_memory.md R72: along any run a page, once an address has one, stays that address's page; and addresses with different
bits 47:12 have different pages. -/
def Obligations.PagesNeverMove : Prop :=
  (∀ (s t : State) (a : Addr) (p : MemoryPage), Reaches s t → lookupPage s.storage.memory.top a = some p →
    lookupPage t.storage.memory.top a = some p) ∧
  ∀ (s : State) (a b : Addr) (p : MemoryPage), s.wf → lookupPage s.storage.memory.top a = some p →
    lookupPage s.storage.memory.top b = some p → a.extractLsb' 12 36 = b.extractLsb' 12 36

/-- 70_reset_and_hazards.md R262 (decision D23): the host's load places the image's bytes and changes no other. -/
def Obligations.ImageLoadPlacesBytes : Prop :=
  ∀ (bs : List Byte) (a : Addr) (m : Memory), m.wf → bs.length ≤ 2 ^ 48 →
    ∃ m', loadImage none bs a m = .ok () m' ∧ m'.wf ∧
      (∀ i < bs.length, m'.peek (a + BitVec.ofNat 64 i) = bs.getD i 0) ∧
      ∀ c, (∀ i < bs.length, ¬ sameByte c (a + BitVec.ofNat 64 i)) → m'.peek c = m.peek c

/-! ## Cache -/

/-- 20_memory.md R85, R95 (decision D20): a completed byte access counts once: a hit if some level holds the line, a miss if
none does. -/
def Obligations.ByteAccessCountsOnce : Prop :=
  ∀ (s : State) (a : Addr) (b : Byte) (st : Storage), s.wf →
    ((∃ v, cacheRead s.config s.storage a = .ok v st) ∨ cacheWrite s.config s.storage a b = .ok () st) →
    (NotCached s.config s.storage a → st.cache.hitCount = s.storage.cache.hitCount ∧
      st.cache.missCount = s.storage.cache.missCount + 1) ∧
    (¬ NotCached s.config s.storage a → st.cache.hitCount = s.storage.cache.hitCount + 1 ∧
      st.cache.missCount = s.storage.cache.missCount)

/-- 20_memory.md R96 (decision D32): the hit percentage is `100 * h / (h + m)`, and 0 when there was no access. -/
def Obligations.HitPercentageFormula : Prop :=
  ∀ c : CacheHierarchy,
    (c.hitCount.toNat + c.missCount.toNat = 0 → c.hitPercentage = 0) ∧
      (c.hitCount.toNat + c.missCount.toNat ≠ 0 →
        c.hitPercentage * ((c.hitCount.toNat + c.missCount.toNat : Nat) : Rat) = 100 * (c.hitCount.toNat : Rat))

/-- 20_memory.md R99: a byte written through the cache is the byte the next read of that address answers, by a hit, alias
hazard or not; the first access to a line that no level holds is a miss, and the next access to any byte of that line a
hit. -/
def Obligations.CacheRoundTripAndColdMiss : Prop :=
  (∀ (s : State) (a : Addr) (b : Byte) (st : Storage), s.wf → cacheWrite s.config s.storage a b = .ok () st →
    ∃ st', cacheRead s.config st a = .ok b st' ∧ st'.cache.hitCount = st.cache.hitCount + 1) ∧
  ∀ (s : State) (a a' : Addr) (b : Byte) (st : Storage), s.wf → NotCached s.config s.storage a →
    lineBase s.config a' = lineBase s.config a →
    ((∃ v, cacheRead s.config s.storage a = .ok v st) ∨ cacheWrite s.config s.storage a b = .ok () st) →
    st.cache.missCount = s.storage.cache.missCount + 1 ∧
      ∃ v' st', cacheRead s.config st a' = .ok v' st' ∧ st'.cache.hitCount = st.cache.hitCount + 1 ∧
        st'.cache.missCount = st.cache.missCount

/-- 20_memory.md R100: an access to one more line than level 1 holds, at capacity, puts the line in front, evicts the last,
least recently accessed line from the level and keeps the others, in their order. -/
def Obligations.LruEviction : Prop :=
  ∀ (s : State) (a : Addr) (b : Byte) (st : Storage) (lvl : Level) (lower : List Level) (last : Line), s.wf →
    s.storage.cache.levels = lvl :: lower → lvl.length = capOf s.config 1 → lvl.getLast? = some last →
    NotCached s.config s.storage a →
    ((∃ v, cacheRead s.config s.storage a = .ok v st) ∨ cacheWrite s.config s.storage a b = .ok () st) →
    ∃ e lower', st.cache.levels = (e :: lvl.dropLast) :: lower' ∧ e.base = lineBase s.config a ∧
      ∀ d ∈ e :: lvl.dropLast, d.base ≠ last.base

/-- 20_memory.md R94 (with R87, R92): a hit, by a read or by a completed write, leaves the line in the level that holds it,
at its front, before the level's other lines in their order; no other level changes; the read answers the line's byte. -/
def Obligations.HitStaysInItsLevel : Prop :=
  ∀ (s : State) (a : Addr) (pos : Nat) (e : Line), s.wf →
    lookupLine (lineBase s.config a) s.storage.cache.levels = some (pos, e) →
    ∃ lvl st, s.storage.cache.levels[pos]? = some lvl ∧ e ∈ lvl ∧
      cacheRead s.config s.storage a = .ok (e.byteAt (lineOffset s.config a)) st ∧
      st.cache.levels = s.storage.cache.levels.set pos (e :: lvl.filter (fun d => d.base != e.base)) ∧
      st.memory = s.storage.memory ∧
      ∀ b st', cacheWrite s.config s.storage a b = .ok () st' →
        st'.cache.levels = s.storage.cache.levels.set pos
          (e.putByte (lineOffset s.config a) b :: lvl.filter (fun d => d.base != e.base))

/-- 20_memory.md R87, R88, R89 (decisions D15, D16): a completed byte write is in Memory at once, hit or miss; on a miss the
line is allocated at the front of level 1, every byte of it as Memory holds it after the write. -/
def Obligations.WriteThroughAndAllocate : Prop :=
  ∀ (s : State) (a : Addr) (b : Byte) (st : Storage), s.wf → cacheWrite s.config s.storage a b = .ok () st →
    (∀ c, st.memory.peek c = if sameByte c a then b else s.peek c) ∧
      (NotCached s.config s.storage a → ∃ e lvl lower, st.cache.levels = (e :: lvl) :: lower ∧
        e.base = lineBase s.config a ∧
        ∀ j < s.config.lineSize, e.byteAt j = st.memory.peek (e.base + BitVec.ofNat 64 j))

/-- 20_memory.md R97, R98, 60_exceptions.md R236: a byte access that raises changes no level and no counter. A read that
raises names the first address of its line that has no page (the line's base, with lines no longer than a page) and changes no
byte. A write that raises names its own address, which has no page, and changes no byte; or, with lines longer than a page only,
it names the first address of its line that has no page, and its byte has reached Memory. -/
def Obligations.ExhaustedByteAddress : Prop :=
  ∀ (s : State) (a va : Addr) (b : Byte) (st : Storage), s.wf →
    (cacheRead s.config s.storage a = .exhausted va st →
      st.cache = s.storage.cache ∧ (∀ c, st.memory.peek c = s.peek c) ∧
        FirstMissing s.config st.memory (lineBase s.config a) va ∧
        (s.config.lineSize ≤ pageSize → va = lineBase s.config a)) ∧
    (cacheWrite s.config s.storage a b = .exhausted va st →
      st.cache = s.storage.cache ∧
        ((va = a ∧ lookupPage st.memory.top a = none ∧ ∀ c, st.memory.peek c = s.peek c) ∨
          (pageSize < s.config.lineSize ∧ FirstMissing s.config st.memory (lineBase s.config a) va ∧
            ∀ c, st.memory.peek c = if sameByte c a then b else s.peek c)))

/-- 20_memory.md R93 (decision D17): with victims dropped, levels 2 and up stay empty: construction leaves them so and every
step keeps them so. -/
def Obligations.LowerLevelsEmptyUnderDrop : Prop :=
  (∀ c : Config, ∀ lvl ∈ (State.construct c).storage.cache.levels.tail, lvl = []) ∧
  ∀ s t : State, s.wf → s.config.victimPolicy = .drop → (∀ lvl ∈ s.storage.cache.levels.tail, lvl = []) →
    step s = .next t → ∀ lvl ∈ t.storage.cache.levels.tail, lvl = []

/-- 20_memory.md R58, R95, 43_control_transfer.md R203: a step that records no condition makes 8 accesses for its fetch and
those of its instruction: 8 for a load, a store or a taken indirect jump, 16 for an indirect load or store. -/
def Obligations.AccessesPerStep : Prop :=
  ∀ (s t : State) (w : Word) (st : Storage) (i : Instr), s.wf → s.run = .running →
    memRead s.config s.storage s.pc = .ok w st → decode w = .ok i → waitsForConsole i s = false →
    step s = .next t → t.cause = .none →
    t.storage.cache.accessCount =
      s.storage.cache.accessCount + 8 + BitVec.ofNat 64 (i.dataAccesses s.flags)

/-- 70_reset_and_hazards.md R265: the alias hazard. A write through one address of a byte leaves the line that holds the byte
under another address as it was: while that line stays cached, a read through it answers the old byte, though Memory holds the
new one. -/
def Obligations.AliasHazardStaleRead : Prop :=
  ∀ (s : State) (a1 a2 : Addr) (b : Byte) (st : Storage) (e : Line), s.wf → sameByte a1 a2 →
    lineBase s.config a1 ≠ lineBase s.config a2 → e ∈ s.storage.cache.lines → e.base = lineBase s.config a2 →
    cacheWrite s.config s.storage a1 b = .ok () st → (∃ d ∈ st.cache.lines, d.base = e.base) →
    (∃ st', cacheRead s.config st a2 = .ok (e.byteAt (lineOffset s.config a2)) st') ∧ st.memory.peek a2 = b

/-! ## Cache and program -/

/-- 20_memory.md R90, 70_reset_and_hazards.md R265: while a program reaches storage below 2^48 only, every step keeps every
cached byte equal to Memory's. -/
def Obligations.StepKeepsCoherence : Prop :=
  ∀ s t : State, s.wf → Coherent s.storage → AliasFree s.config s.storage → s.pc.toNat + 8 ≤ 2 ^ 48 →
    (∀ i p, decode (s.storage.memory.peekWord s.pc) = .ok i → i.dataPointer? = some p →
      (s.storage.memory.peekWord (p.setWidth 64)).toNat + 8 ≤ 2 ^ 48) →
    step s = .next t → Coherent t.storage ∧ AliasFree t.config t.storage

/-- 20_memory.md R105, R109, 42_data_transfer.md R187, 70_reset_and_hazards.md R266: a stored value is what the very next
instruction loads from that address, and, stored where the next instruction is fetched, is the word the next step runs;
whatever the cache holds. -/
def Obligations.StoredValueSeenNext : Prop :=
  ∀ (a d : Reg) (p : Payload) (s t : State), s.wf → s.config.maxPages = none →
    exec (.movs a.field p) s = .next t →
    (∃ st, exec (.movl d.field p) t = .next { t with x := s.x.set d s.x[a], pc := t.pc + 8, storage := st }) ∧
      (t.pc = p.setWidth 64 → t.run = .running → ∀ i, decode s.x[a] = .ok i → waitsForConsole i t = false →
        ∃ st, step t = exec i { t with storage := st })

/-- 10_state.md R37, 20_memory.md R90, R93, R105: where cache and Memory agree and pages are unbounded, a step's effect on
registers, flags, `pc`, run state, condition record, console and Memory's bytes does not depend on the cache's contents, the
counters, the pages allocated or the cache's configuration. -/
def Obligations.ProgramViewIndependentOfCache : Prop :=
  ∀ s t s' t' : State, s.wf → t.wf → Coherent s.storage → Coherent t.storage → s.config.maxPages = none →
    t.config.maxPages = none → SameProgramView s t → step s = .next s' → step t = .next t' → SameProgramView s' t'

/-! ## Victims, under both policies -/

/-- 20_memory.md R91, R93 (decision D17), for both settings of `VICTIM_POLICY`: an access to a line that no level holds puts
the line in front of level 1, which drops its last line if it was at capacity. Under `drop` no other level changes. Under
`demote` the line evicted from a level goes to the front of the next one, which makes room in the same way, and so on down to
the first level that was not at capacity or past the last level, where the line is discarded; the levels below the first that
was not at capacity do not change. -/
def Obligations.EvictedLinesDroppedOrDemoted : Prop :=
  ∀ (s : State) (a : Addr) (b : Byte) (st : Storage), s.wf → NotCached s.config s.storage a →
    ((∃ v, cacheRead s.config s.storage a = .ok v st) ∨ cacheWrite s.config s.storage a b = .ok () st) →
    ∃ e, e.base = lineBase s.config a ∧ st.cache.levels.length = s.storage.cache.levels.length ∧
      ∀ j lvl, s.storage.cache.levels[j]? = some lvl →
        (s.config.victimPolicy = .drop →
          st.cache.levels[j]? = some (if j = 0 then e :: roomFor s.config 1 lvl else lvl)) ∧
        (s.config.victimPolicy = .demote →
          ((∀ i < j, LevelFull s.config s.storage.cache.levels i) →
            ∃ victim, (if j = 0 then some e else s.storage.cache.levels[j - 1]?.bind List.getLast?) = some victim ∧
              st.cache.levels[j]? = some (victim :: roomFor s.config (j + 1) lvl)) ∧
          (¬ (∀ i < j, LevelFull s.config s.storage.cache.levels i) → st.cache.levels[j]? = some lvl))
end

