-- ==== Sys2Proof/Laws/Memory.lean ====
section
/-! SUPPORT. What the Memory block can do, said once: bytes of the backing store, slots of a table, the walk, one-byte reads and
writes; every operation keeps `Memory.wf`. -/
namespace Sys2Proof.Machine

/-! ## Accesses -/

@[simp] theorem Access.andThen_ok {σ α β : Type} (v : α) (st : σ) (k : α → σ → Access σ β) :
    (Access.ok v st).andThen k = k v st := rfl

@[simp] theorem Access.andThen_exhausted {σ α β : Type} (va : Addr) (st : σ) (k : α → σ → Access σ β) :
    (Access.exhausted va st : Access σ α).andThen k = .exhausted va st := rfl

/-- A sequence of two accesses answers a value only if both do. -/
theorem Access.andThen_eq_ok {σ α β : Type} {r : Access σ α} {k : α → σ → Access σ β} {v : β} {st : σ}
    (h : r.andThen k = .ok v st) : ∃ u su, r = .ok u su ∧ k u su = .ok v st := by
  cases r with
  | ok u su => exact ⟨u, su, rfl, h⟩
  | exhausted va su => simp at h

/-- A sequence of two accesses raises only if one of them does. -/
theorem Access.andThen_eq_exhausted {σ α β : Type} {r : Access σ α} {k : α → σ → Access σ β} {va : Addr} {st : σ}
    (h : r.andThen k = .exhausted va st) :
    r = .exhausted va st ∨ ∃ u su, r = .ok u su ∧ k u su = .exhausted va st := by
  cases r with
  | ok u su => exact .inr ⟨u, su, rfl, h⟩
  | exhausted va' su =>
    simp only [andThen_exhausted, Access.exhausted.injEq] at h
    exact .inl (by rw [h.1, h.2])

/-! ## The backing store -/

theorem mem_writeCell {cs : List Host.Cell} {p : Nat} {b : Byte} {c : Host.Cell} (h : c ∈ writeCell cs p b) :
    c ∈ cs ∨ (c = (p, b) ∧ b ≠ unlistedByte) := by
  induction cs with
  | nil => simp only [writeCell] at h; split at h <;> simp_all
  | cons d cs ih =>
    obtain ⟨k, v⟩ := d
    simp only [writeCell] at h
    split at h
    · split at h
      · exact .inl h
      · rcases List.mem_cons.mp h with h | h
        · exact .inr ⟨h, by assumption⟩
        · exact .inl h
    · split at h
      · split at h
        · exact .inl (List.mem_cons_of_mem _ h)
        · rcases List.mem_cons.mp h with h | h
          · exact .inr ⟨h, by assumption⟩
          · exact .inl (List.mem_cons_of_mem _ h)
      · rcases List.mem_cons.mp h with h | h
        · exact .inl (by simp [h])
        · rcases ih h with h | h
          · exact .inl (List.mem_cons_of_mem _ h)
          · exact .inr h

/-- Writing a byte keeps the canonical form. -/
theorem writeCell_canonical {cs : List Host.Cell} (h : CellsCanonical cs) (p : Nat) (b : Byte) :
    CellsCanonical (writeCell cs p b) := by
  refine ⟨?_, ?_⟩
  · obtain ⟨h, -⟩ := h
    induction cs with
    | nil => simp only [writeCell]; split <;> simp
    | cons d cs ih =>
      obtain ⟨k, v⟩ := d
      rw [List.pairwise_cons] at h
      simp only [writeCell]
      split
      · split
        · exact List.pairwise_cons.mpr h
        · refine List.pairwise_cons.mpr ⟨?_, List.pairwise_cons.mpr h⟩
          intro c hc
          rcases List.mem_cons.mp hc with rfl | hc
          · simpa
          · have := h.1 c hc; simp only at *; omega
      · split
        · rename_i h1; subst h1
          split
          · exact h.2
          · exact List.pairwise_cons.mpr h
        · refine List.pairwise_cons.mpr ⟨?_, ih h.2⟩
          intro c hc
          rcases mem_writeCell hc with hc | ⟨rfl, -⟩
          · exact h.1 c hc
          · simp only; omega
  · intro c hc
    rcases mem_writeCell hc with hc | ⟨rfl, hb⟩
    · exact h.2 c hc
    · exact hb

/-- A physical address below every listed one, or above, reads as an unlisted byte. -/
theorem readCell_unlisted {cs : List Host.Cell} {p : Nat} (h : ∀ c ∈ cs, c.1 ≠ p) : readCell cs p = unlistedByte := by
  induction cs with
  | nil => rfl
  | cons d cs ih =>
    obtain ⟨k, v⟩ := d
    have hk : k ≠ p := h (k, v) (by simp)
    simp only [readCell, if_neg (Ne.symm hk)]
    exact ih fun c hc => h c (List.mem_cons_of_mem _ hc)

/-- Read after write: the byte written at its place, every other byte as before. -/
theorem readCell_writeCell {cs : List Host.Cell} (h : cs.Pairwise (fun c d => c.1 < d.1)) (p q : Nat) (b : Byte) :
    readCell (writeCell cs p b) q = if q = p then b else readCell cs q := by
  induction cs with
  | nil =>
    simp only [writeCell, readCell]
    split
    · rename_i hb; subst hb; simp [readCell]
    · simp [readCell]
  | cons d cs ih =>
    obtain ⟨k, v⟩ := d
    rw [List.pairwise_cons] at h
    simp only [writeCell]
    split
    · rename_i hlt
      split
      · rename_i hb; subst hb
        by_cases hq : q = p
        · subst hq
          rw [if_pos rfl]
          apply readCell_unlisted
          intro c hc
          rcases List.mem_cons.mp hc with rfl | hc
          · simp only; omega
          · have := h.1 c hc; simp only at this; omega
        · rw [if_neg hq]
      · simp [readCell]
    · split
      · rename_i h1; subst h1
        split
        · rename_i hb; subst hb
          by_cases hq : q = p
          · subst hq
            rw [if_pos rfl]
            apply readCell_unlisted
            intro c hc
            have := h.1 c hc; simp only at this; omega
          · simp [readCell, hq]
        · by_cases hq : q = p <;> simp [readCell, hq]
      · rename_i hne
        simp only [readCell, ih h.2]
        by_cases hq : q = k
        · subst hq; simp [Ne.symm hne]
        · simp [hq]

/-! ## Slots -/

/-- A slot after another is filled. -/
theorem getSlot_setSlot {α : Type} (t : List (BitVec 9 × α)) (i j : BitVec 9) (v : α) :
    getSlot (setSlot t i v) j = if j = i then some v else getSlot t j := by
  induction t with
  | nil => simp [setSlot, getSlot]
  | cons e t ih =>
    obtain ⟨k, w⟩ := e
    simp only [setSlot]
    split
    · simp [getSlot]
    · split
      · rename_i h; subst h; by_cases hj : j = i <;> simp [getSlot, hj]
      · rename_i h
        simp only [getSlot, ih]
        by_cases hj : j = k
        · subst hj; simp [Ne.symm h]
        · simp [hj]

theorem mem_setSlot {α : Type} {t : List (BitVec 9 × α)} {i : BitVec 9} {v : α} {e : BitVec 9 × α}
    (h : e ∈ setSlot t i v) : e = (i, v) ∨ e ∈ t := by
  induction t with
  | nil => simpa [setSlot] using h
  | cons d t ih =>
    obtain ⟨k, w⟩ := d
    simp only [setSlot] at h
    split at h
    · exact List.mem_cons.mp h
    · split at h
      · rcases List.mem_cons.mp h with h | h
        · exact .inl h
        · exact .inr (List.mem_cons_of_mem _ h)
      · rcases List.mem_cons.mp h with h | h
        · exact .inr (by simp [h])
        · rcases ih h with h | h
          · exact .inl h
          · exact .inr (List.mem_cons_of_mem _ h)

theorem mem_of_getSlot {α : Type} {t : List (BitVec 9 × α)} {i : BitVec 9} {v : α} (h : getSlot t i = some v) :
    (i, v) ∈ t := by
  induction t with
  | nil => simp [getSlot] at h
  | cons d t ih =>
    obtain ⟨k, w⟩ := d
    simp only [getSlot] at h
    split at h
    · rename_i e; subst e; simp_all
    · exact List.mem_cons_of_mem _ (ih h)

/-- Filling a slot keeps the slots rising. -/
theorem setSlot_rising {α : Type} {t : List (BitVec 9 × α)} (h : t.Pairwise (fun s u => s.1.toNat < u.1.toNat))
    (i : BitVec 9) (v : α) : (setSlot t i v).Pairwise (fun s u => s.1.toNat < u.1.toNat) := by
  induction t with
  | nil => simp [setSlot]
  | cons d t ih =>
    obtain ⟨k, w⟩ := d
    rw [List.pairwise_cons] at h
    simp only [setSlot]
    split
    · refine List.pairwise_cons.mpr ⟨?_, List.pairwise_cons.mpr h⟩
      intro e he
      rcases List.mem_cons.mp he with rfl | he
      · simpa
      · have := h.1 e he; simp only at *; omega
    · split
      · rename_i e; subst e
        exact List.pairwise_cons.mpr h
      · rename_i hlt hne
        refine List.pairwise_cons.mpr ⟨?_, ih h.2⟩
        intro e he
        rcases mem_setSlot he with rfl | he
        · have : k.toNat ≠ i.toNat := fun e => hne (BitVec.eq_of_toNat_eq e.symm)
          simp only; omega
        · exact h.1 e he

/-- What lies under the slots, as lists, after a slot is filled: slot `i` contributes what its new content does, the
rest is as before. -/
theorem flatMap_setSlot {α β : Type} (f : α → List β) {t : List (BitVec 9 × α)}
    (h : t.Pairwise (fun s u => s.1.toNat < u.1.toNat)) (i : BitVec 9) (v : α) :
    ∃ rest, (t.flatMap fun e => f e.2).Perm (((getSlot t i).map f).getD [] ++ rest) ∧
      ((setSlot t i v).flatMap fun e => f e.2).Perm (f v ++ rest) := by
  induction t with
  | nil => exact ⟨[], by simp [getSlot], by simp [setSlot]⟩
  | cons d t ih =>
    obtain ⟨k, w⟩ := d
    rw [List.pairwise_cons] at h
    by_cases hlt : i.toNat < k.toNat
    · have hne : i ≠ k := fun e => by subst e; omega
      have hnone : getSlot t i = none := by
        cases hg : getSlot t i with
        | none => rfl
        | some u => have := h.1 _ (mem_of_getSlot hg); simp only at this; omega
      exact ⟨((k, w) :: t).flatMap fun e => f e.2, by simp [getSlot, hne, hnone], by simp [setSlot, hlt]⟩
    · by_cases hk : i = k
      · subst hk
        exact ⟨t.flatMap fun e => f e.2, by simp [getSlot], by simp [setSlot]⟩
      · obtain ⟨rest, h1, h2⟩ := ih h.2
        refine ⟨f w ++ rest, ?_, ?_⟩
        · simp only [getSlot, if_neg hk, List.flatMap_cons]
          refine (List.Perm.append_left _ h1).trans ?_
          simp only [← List.append_assoc]
          exact List.Perm.append_right _ List.perm_append_comm
        · simp only [setSlot, if_neg hlt, if_neg hk, List.flatMap_cons]
          refine (List.Perm.append_left _ h2).trans ?_
          simp only [← List.append_assoc]
          exact List.Perm.append_right _ List.perm_append_comm

/-- If nothing is listed twice under the slots, an item under two slots is under one. -/
theorem slot_eq_of_nodup {α β : Type} (f : α → List β) {t : List (BitVec 9 × α)}
    (h : (t.flatMap fun e => f e.2).Nodup) {i j : BitVec 9} {v w : α} (hi : getSlot t i = some v)
    (hj : getSlot t j = some w) {x : β} (hv : x ∈ f v) (hw : x ∈ f w) : i = j := by
  by_contra hne
  rw [List.nodup_flatMap] at h
  have hsymm : ∀ a b : BitVec 9 × α, Function.onFun List.Disjoint (fun e : BitVec 9 × α => f e.2) a b →
      Function.onFun List.Disjoint (fun e : BitVec 9 × α => f e.2) b a := fun a b hd => List.Disjoint.symm hd
  have : Std.Symm (Function.onFun List.Disjoint fun e : BitVec 9 × α => f e.2) := ⟨hsymm⟩
  have hd := h.2.forall (mem_of_getSlot hi) (mem_of_getSlot hj) (fun e => hne (congrArg Prod.fst e))
  exact hd hv hw

@[simp] theorem Table.get_empty {α : Type} (i : BitVec 9) : (Table.empty : Table α).get i = none := rfl

theorem Table.get_set {α : Type} (t : Table α) (i j : BitVec 9) (v : α) :
    (t.set i v).get j = if j = i then some v else t.get j := getSlot_setSlot t.slots i j v

theorem Table.child_set {α : Type} (t : Table (Table α)) (i j : BitVec 9) (v : Table α) :
    (t.set i v).child j = if j = i then v else t.child j := by
  simp only [Table.child, Table.get_set]
  split <;> rfl

/-! ## The walk -/

/-- Two addresses have the same four indices. -/
abbrev samePage (a b : Addr) : Prop :=
  index4 a = index4 b ∧ index3 a = index3 b ∧ index2 a = index2 b ∧ index1 a = index1 b

theorem samePage_refl (a : Addr) : samePage a a := ⟨rfl, rfl, rfl, rfl⟩

theorem samePage_symm {a b : Addr} (h : samePage a b) : samePage b a :=
  ⟨h.1.symm, h.2.1.symm, h.2.2.1.symm, h.2.2.2.symm⟩

/-- The page of an address is the content of its slot in the level-1 table its walk reaches. -/
theorem lookupPage_eq (top : Level4Table) (a : Addr) : lookupPage top a = (level1For top a).get (index1 a) := by
  simp only [lookupPage, level1For, Table.child]
  cases top.get (index4 a) with
  | none => rfl
  | some t3 =>
    simp only [Option.getD_some]
    cases t3.get (index3 a) with
    | none => rfl
    | some t2 =>
      simp only [Option.getD_some]
      cases t2.get (index2 a) <;> rfl

theorem level1For_putLevel1 (top : Level4Table) (a b : Addr) (t1 : Level1Table) :
    level1For (putLevel1 top a t1) b =
      if index4 b = index4 a ∧ index3 b = index3 a ∧ index2 b = index2 a then t1 else level1For top b := by
  simp only [level1For, putLevel1, Table.child_set]
  by_cases h4 : index4 b = index4 a
  · simp only [h4, if_pos, Table.child_set, true_and]
    by_cases h3 : index3 b = index3 a
    · simp only [h3, if_pos, Table.child_set, true_and]
    · simp [h3]
  · simp [h4]

/-- The page of `b` after the walk for `a` has left `t1`. -/
theorem lookupPage_putLevel1 (top : Level4Table) (a b : Addr) (t1 : Level1Table) :
    lookupPage (putLevel1 top a t1) b =
      if index4 b = index4 a ∧ index3 b = index3 a ∧ index2 b = index2 a then t1.get (index1 b)
      else lookupPage top b := by
  rw [lookupPage_eq, level1For_putLevel1, lookupPage_eq]
  split <;> rfl

/-- A walk that creates only tables leaves every page as it was. -/
theorem lookupPage_putLevel1_same (top : Level4Table) (a b : Addr) :
    lookupPage (putLevel1 top a (level1For top a)) b = lookupPage top b := by
  rw [lookupPage_putLevel1]
  split
  · rename_i h
    rw [lookupPage_eq]
    simp only [level1For, h]
  · rfl

/-- A walk that creates page `p` for `a`. -/
theorem lookupPage_putLevel1_set (top : Level4Table) (a b : Addr) (p : MemoryPage) :
    lookupPage (putLevel1 top a ((level1For top a).set (index1 a) p)) b =
      if samePage b a then some p else lookupPage top b := by
  rw [lookupPage_putLevel1, Table.get_set]
  by_cases h : index4 b = index4 a ∧ index3 b = index3 a ∧ index2 b = index2 a
  · rw [if_pos h]
    by_cases h1 : index1 b = index1 a
    · simp [h, h1]
    · have : ¬ samePage b a := fun hs => h1 hs.2.2.2
      rw [if_neg h1, if_neg this, lookupPage_eq]
      simp only [level1For, h]
  · have : ¬ samePage b a := fun hs => h ⟨hs.1, hs.2.1, hs.2.2.1⟩
    rw [if_neg h, if_neg this]

/-! ## The pages under a table -/

theorem pages_setSlot {α : Type} {f : Table α → List MemoryPage} (hf : f Table.empty = []) {t : Table (Table α)}
    (h : t.Rising) (i : BitVec 9) {new : Table α} {xs : List MemoryPage} (hp : (f new).Perm (xs ++ f (t.child i))) :
    ((t.set i new).slots.flatMap fun e => f e.2).Perm (xs ++ t.slots.flatMap fun e => f e.2) := by
  obtain ⟨rest, h1, h2⟩ := flatMap_setSlot f h i new
  have hc : ((getSlot t.slots i).map f).getD [] = f (t.child i) := by
    simp only [Table.child, Table.get]
    cases getSlot t.slots i <;> simp [hf]
  rw [hc] at h1
  refine h2.trans ((List.Perm.append_right _ hp).trans ?_)
  rw [List.append_assoc]
  exact List.Perm.append_left _ h1.symm

theorem Table.child_rising {α : Type} {P : Table α → Prop} (hP : P Table.empty) {t : Table (Table α)}
    (h : ∀ e ∈ t.slots, P e.2) (i : BitVec 9) : P (t.child i) := by
  simp only [Table.child, Table.get]
  cases hg : getSlot t.slots i with
  | none => exact hP
  | some v => exact h _ (mem_of_getSlot hg)

abbrev Rising2 (t : Level2Table) : Prop := t.Rising ∧ ∀ e ∈ t.slots, e.2.Rising

abbrev Rising3 (t : Level3Table) : Prop := t.Rising ∧ ∀ e ∈ t.slots, Rising2 e.2

theorem empty_rising {α : Type} : (Table.empty : Table α).Rising := List.Pairwise.nil

theorem empty_rising2 : Rising2 Table.empty := ⟨empty_rising, by simp [Table.empty]⟩

theorem empty_rising3 : Rising3 Table.empty := ⟨empty_rising, by simp [Table.empty]⟩

/-- A walk keeps every table rising. -/
theorem putLevel1_rising {top : Level4Table} (h : TablesRising top) (a : Addr) {t1 : Level1Table} (h1 : t1.Rising) :
    TablesRising (putLevel1 top a t1) := by
  have h3 : Rising3 (top.child (index4 a)) := Table.child_rising empty_rising3 h.2 _
  have h2 : Rising2 ((top.child (index4 a)).child (index3 a)) := Table.child_rising empty_rising2 h3.2 _
  have hset : ∀ {α : Type} {P : Table α → Prop} {t : Table (Table α)} (i : BitVec 9) {v : Table α},
      (∀ e ∈ t.slots, P e.2) → P v → ∀ e ∈ (t.set i v).slots, P e.2 := by
    intro α P t i v ht hv e he
    rcases mem_setSlot he with rfl | he
    · exact hv
    · exact ht e he
  refine ⟨setSlot_rising h.1 _ _, ?_⟩
  refine hset (P := Rising3) _ h.2 ⟨setSlot_rising h3.1 _ _, ?_⟩
  refine hset (P := Rising2) _ h3.2 ⟨setSlot_rising h2.1 _ _, ?_⟩
  exact hset (P := Table.Rising) _ h2.2 h1

theorem level1For_rising {top : Level4Table} (h : TablesRising top) (a : Addr) : (level1For top a).Rising := by
  have h3 : Rising3 (top.child (index4 a)) := Table.child_rising empty_rising3 h.2 _
  have h2 : Rising2 ((top.child (index4 a)).child (index3 a)) := Table.child_rising empty_rising2 h3.2 _
  exact Table.child_rising (P := Table.Rising) empty_rising h2.2 _

/-- The pages after a walk: `xs` more than before, if the level-1 table has `xs` more. -/
theorem pagesOf_putLevel1 {top : Level4Table} (h : TablesRising top) (a : Addr) {t1 : Level1Table}
    {xs : List MemoryPage}
    (hp : (t1.slots.map (·.2)).Perm (xs ++ (level1For top a).slots.map (·.2))) :
    (pagesOf (putLevel1 top a t1)).Perm (xs ++ pagesOf top) := by
  have h3 : Rising3 (top.child (index4 a)) := Table.child_rising empty_rising3 h.2 _
  have h2 : Rising2 ((top.child (index4 a)).child (index3 a)) := Table.child_rising empty_rising2 h3.2 _
  have p2 := pages_setSlot (f := fun t : Level1Table => t.slots.map (·.2)) rfl h2.1 (index2 a) hp
  have p3 := pages_setSlot (f := fun t : Level2Table => t.slots.flatMap fun e => e.2.slots.map (·.2)) rfl h3.1
    (index3 a) p2
  exact pages_setSlot
    (f := fun t : Level3Table => t.slots.flatMap fun e => e.2.slots.flatMap fun e' => e'.2.slots.map (·.2)) rfl h.1
    (index4 a) p3

theorem map_setSlot_of_none {t : List (BitVec 9 × MemoryPage)} {i : BitVec 9} (h : getSlot t i = none)
    (p : MemoryPage) : ((setSlot t i p).map (·.2)).Perm (p :: t.map (·.2)) := by
  induction t with
  | nil => simp [setSlot]
  | cons d t ih =>
    obtain ⟨k, w⟩ := d
    simp only [getSlot] at h
    split at h
    · simp at h
    · rename_i hne
      simp only [setSlot, if_neg hne]
      split
      · simp
      · simp only [List.map_cons]
        exact (List.Perm.cons _ (ih h)).trans (List.Perm.swap _ _ _)

/-- Different pages have different indices: one index, one place in the tables (20_memory.md R72). -/
theorem samePage_of_index_eq {m : Memory} (h : m.wf) {a b : Addr} {p q : MemoryPage}
    (ha : lookupPage m.top a = some p) (hb : lookupPage m.top b = some q) (he : p.index = q.index) : samePage a b := by
  have hn : ((pagesOf m.top).map (·.index)).Nodup := h.2.2.2.2.1
  simp only [pagesOf, List.map_flatMap, List.map_map] at hn
  simp only [lookupPage] at ha hb
  split at ha
  · simp at ha
  rename_i t3 g4
  split at ha
  · simp at ha
  rename_i t2 g3
  split at ha
  · simp at ha
  rename_i t1 g2
  split at hb
  · simp at hb
  rename_i u3 k4
  split at hb
  · simp at hb
  rename_i u2 k3
  split at hb
  · simp at hb
  rename_i u1 k2
  let f1 : MemoryPage → List Nat := fun r => [r.index]
  let f2 : Level1Table → List Nat := fun t => t.slots.flatMap fun e => f1 e.2
  let f3 : Level2Table → List Nat := fun t => t.slots.flatMap fun e => f2 e.2
  let f4 : Level3Table → List Nat := fun t => t.slots.flatMap fun e => f3 e.2
  have e2 : ∀ t : Level1Table, t.slots.map ((fun r : MemoryPage => r.index) ∘ fun e => e.2) = f2 t := by
    intro t; simp only [f2, f1, List.map_eq_flatMap]; rfl
  simp only [e2] at hn
  have hn4 : (m.top.slots.flatMap fun e => f4 e.2).Nodup := hn
  have ma1 : p.index ∈ f2 t1 := List.mem_flatMap.mpr ⟨_, mem_of_getSlot ha, by simp [f1]⟩
  have ma2 : p.index ∈ f3 t2 := List.mem_flatMap.mpr ⟨_, mem_of_getSlot g2, ma1⟩
  have ma3 : p.index ∈ f4 t3 := List.mem_flatMap.mpr ⟨_, mem_of_getSlot g3, ma2⟩
  have mb1 : p.index ∈ f2 u1 := List.mem_flatMap.mpr ⟨_, mem_of_getSlot hb, by simp [f1, he]⟩
  have mb2 : p.index ∈ f3 u2 := List.mem_flatMap.mpr ⟨_, mem_of_getSlot k2, mb1⟩
  have mb3 : p.index ∈ f4 u3 := List.mem_flatMap.mpr ⟨_, mem_of_getSlot k3, mb2⟩
  have i4 := slot_eq_of_nodup f4 hn4 g4 k4 ma3 mb3
  rw [i4] at g4
  obtain rfl : t3 = u3 := by rw [k4] at g4; simpa using g4.symm
  have hn3 : (t3.slots.flatMap fun e => f3 e.2).Nodup := (List.nodup_flatMap.mp hn4).1 _ (mem_of_getSlot g4)
  have i3 := slot_eq_of_nodup f3 hn3 g3 k3 ma2 mb2
  rw [i3] at g3
  obtain rfl : t2 = u2 := by rw [k3] at g3; simpa using g3.symm
  have hn2 : (t2.slots.flatMap fun e => f2 e.2).Nodup := (List.nodup_flatMap.mp hn3).1 _ (mem_of_getSlot g3)
  have i2 := slot_eq_of_nodup f2 hn2 g2 k2 ma1 mb1
  rw [i2] at g2
  obtain rfl : t1 = u1 := by rw [k2] at g2; simpa using g2.symm
  have hn1 : (t1.slots.flatMap fun e => f1 e.2).Nodup := (List.nodup_flatMap.mp hn2).1 _ (mem_of_getSlot g2)
  have i1 := slot_eq_of_nodup f1 hn1 ha hb (x := p.index) (by simp [f1]) (by simp [f1, he])
  exact ⟨i4, i3, i2, i1⟩

/-- A page the tables hold is among the pages, so its index is below `pageCount`. -/
theorem index_lt_of_lookupPage {m : Memory} (h : m.wf) {a : Addr} {p : MemoryPage} (ha : lookupPage m.top a = some p) :
    p.index < m.pageCount := by
  apply h.2.2.2.2.2
  simp only [lookupPage] at ha
  split at ha
  · simp at ha
  rename_i t3 g4
  split at ha
  · simp at ha
  rename_i t2 g3
  split at ha
  · simp at ha
  rename_i t1 g2
  exact List.mem_flatMap.mpr ⟨_, mem_of_getSlot g4, List.mem_flatMap.mpr ⟨_, mem_of_getSlot g3,
    List.mem_flatMap.mpr ⟨_, mem_of_getSlot g2, List.mem_map.mpr ⟨_, mem_of_getSlot ha, rfl⟩⟩⟩⟩

/-! ## Translate -/

/-- Everything `Translate(a)` can do (20_memory.md R68, R71): the page was there and nothing changes; or it is created,
with the next index; or the cap is reached, and only tables may have been created. -/
theorem translate_cases (maxPages : Option Nat) (m : Memory) (a : Addr) :
    (∃ p, lookupPage m.top a = some p ∧ translate maxPages m a = (some p, m)) ∨
    (lookupPage m.top a = none ∧ capReached maxPages m.pageCount = false ∧
      translate maxPages m a =
        (some ⟨m.pageCount⟩,
          { m with top := putLevel1 m.top a ((level1For m.top a).set (index1 a) ⟨m.pageCount⟩),
                   pageCount := m.pageCount + 1 })) ∨
    (lookupPage m.top a = none ∧ capReached maxPages m.pageCount = true ∧
      translate maxPages m a = (none, { m with top := putLevel1 m.top a (level1For m.top a) })) := by
  unfold translate
  cases hl : lookupPage m.top a with
  | some p => exact .inl ⟨p, rfl, rfl⟩
  | none =>
    cases hc : capReached maxPages m.pageCount with
    | false => exact .inr (.inl ⟨rfl, rfl, by simp⟩)
    | true => exact .inr (.inr ⟨rfl, rfl, by simp⟩)

/-- `Translate` keeps the form of Memory. -/
theorem translate_wf {maxPages : Option Nat} {m m' : Memory} {a : Addr} {r : Option MemoryPage} (h : m.wf)
    (ht : translate maxPages m a = (r, m')) : m'.wf := by
  obtain ⟨hb, hlt, htr, hlen, hnd, hix⟩ := h
  rcases translate_cases maxPages m a with ⟨p, -, e⟩ | ⟨hl, -, e⟩ | ⟨hl, -, e⟩ <;> rw [e] at ht <;>
    simp only [Prod.mk.injEq] at ht <;> obtain ⟨-, rfl⟩ := ht
  · exact ⟨hb, hlt, htr, hlen, hnd, hix⟩
  · have hnone : getSlot (level1For m.top a).slots (index1 a) = none := by rw [lookupPage_eq] at hl; exact hl
    have hperm := pagesOf_putLevel1 htr a (xs := [⟨m.pageCount⟩])
      (t1 := (level1For m.top a).set (index1 a) ⟨m.pageCount⟩) (map_setSlot_of_none hnone ⟨m.pageCount⟩)
    refine ⟨hb, ?_, putLevel1_rising htr a (setSlot_rising (level1For_rising htr a) _ _), ?_, ?_, ?_⟩
    · intro c hc; have := hlt c hc; simp only [Nat.add_mul]; omega
    · rw [hperm.length_eq]; simp [hlen]
    · rw [(hperm.map _).nodup_iff]
      simp only [List.singleton_append, List.map_cons, List.nodup_cons, hnd, and_true]
      intro hm
      obtain ⟨q, hq, hqi⟩ := List.mem_map.mp hm
      have := hix q hq
      omega
    · intro q hq
      rcases List.mem_append.mp (hperm.mem_iff.mp hq) with hq | hq
      · simp only [List.mem_singleton] at hq; subst hq; simp
      · have := hix q hq; simp only; omega
  · have hperm := pagesOf_putLevel1 htr a (xs := []) (t1 := level1For m.top a) (by simp)
    refine ⟨hb, hlt, putLevel1_rising htr a (level1For_rising htr a), ?_, ?_, ?_⟩
    · rw [hperm.length_eq]; simp [hlen]
    · rw [(hperm.map _).nodup_iff]; exact hnd
    · intro q hq; exact hix q (hperm.mem_iff.mp hq)

/-- `Translate` changes no byte. -/
theorem translate_peek {maxPages : Option Nat} {m m' : Memory} {a : Addr} {r : Option MemoryPage} (h : m.wf)
    (ht : translate maxPages m a = (r, m')) (b : Addr) : m'.peek b = m.peek b := by
  rcases translate_cases maxPages m a with ⟨p, -, e⟩ | ⟨hl, -, e⟩ | ⟨hl, -, e⟩ <;> rw [e] at ht <;>
    simp only [Prod.mk.injEq] at ht <;> obtain ⟨-, rfl⟩ := ht
  · rfl
  · simp only [Memory.peek, lookupPage_putLevel1_set]
    by_cases hs : samePage b a
    · have hlb : lookupPage m.top b = none := by
        rw [← hl, lookupPage_eq, lookupPage_eq]; simp only [level1For, hs]
      rw [if_pos hs, hlb]
      apply readCell_unlisted
      intro c hc
      have := h.2.1 c hc
      simp only [physicalAddress]; omega
    · rw [if_neg hs]
  · simp only [Memory.peek, lookupPage_putLevel1_same]

/-- The pages after `Translate(a)`: every page there was is still there, under the same addresses (20_memory.md R72). -/
theorem translate_lookup {maxPages : Option Nat} {m m' : Memory} {a : Addr} {r : Option MemoryPage}
    (ht : translate maxPages m a = (r, m')) (b : Addr) :
    lookupPage m'.top b = if samePage b a ∧ lookupPage m.top a = none then r else lookupPage m.top b := by
  rcases translate_cases maxPages m a with ⟨p, hl, e⟩ | ⟨hl, -, e⟩ | ⟨hl, -, e⟩ <;> rw [e] at ht <;>
    simp only [Prod.mk.injEq] at ht <;> obtain ⟨rfl, rfl⟩ := ht
  · simp [hl]
  · simp [lookupPage_putLevel1_set, hl]
  · rw [lookupPage_putLevel1_same]
    split
    · rename_i hs
      rw [← hl, lookupPage_eq, lookupPage_eq]; simp only [level1For, hs.1]
    · rfl

theorem translate_some_lookup {maxPages : Option Nat} {m m' : Memory} {a : Addr} {p : MemoryPage}
    (ht : translate maxPages m a = (some p, m')) : lookupPage m'.top a = some p := by
  rcases translate_cases maxPages m a with ⟨q, hl, e⟩ | ⟨hl, -, e⟩ | ⟨hl, -, e⟩ <;> rw [e] at ht <;>
    simp only [Prod.mk.injEq, Option.some.injEq] at ht <;> obtain ⟨h1, rfl⟩ := ht
  · rw [hl, h1]
  · rw [lookupPage_putLevel1_set, if_pos (samePage_refl a), h1]
  · simp at h1

theorem translate_bytes {maxPages : Option Nat} {m m' : Memory} {a : Addr} {r : Option MemoryPage}
    (ht : translate maxPages m a = (r, m')) : m'.bytes = m.bytes := by
  rcases translate_cases maxPages m a with ⟨p, -, e⟩ | ⟨-, -, e⟩ | ⟨-, -, e⟩ <;> rw [e] at ht <;>
    simp only [Prod.mk.injEq] at ht <;> obtain ⟨-, rfl⟩ := ht <;> rfl

/-- `Translate` answers no page exactly when the page is missing and the cap is reached (20_memory.md R71). -/
theorem translate_none_iff (maxPages : Option Nat) (m : Memory) (a : Addr) :
    (translate maxPages m a).1 = none ↔ lookupPage m.top a = none ∧ capReached maxPages m.pageCount = true := by
  rcases translate_cases maxPages m a with ⟨p, hl, e⟩ | ⟨hl, hc, e⟩ | ⟨hl, hc, e⟩ <;> rw [e] <;> simp [hl] <;>
    simp_all

/-- `pageCount` after `Translate` stays within the cap. -/
theorem translate_cap {maxPages : Option Nat} {m m' : Memory} {a : Addr} {r : Option MemoryPage}
    (ht : translate maxPages m a = (r, m')) (h : ∀ n ∈ maxPages, m.pageCount ≤ n) :
    ∀ n ∈ maxPages, m'.pageCount ≤ n := by
  rcases translate_cases maxPages m a with ⟨p, -, e⟩ | ⟨-, hc, e⟩ | ⟨-, -, e⟩ <;> rw [e] at ht <;>
    simp only [Prod.mk.injEq] at ht <;> obtain ⟨-, rfl⟩ := ht
  · exact h
  · intro n hn
    have : maxPages = some n := hn
    subst this
    simp only [capReached, decide_eq_false_iff_not] at hc
    simp only; omega
  · exact h

/-! ## One byte -/

/-- Addresses of one page, with one offset, are addresses of one byte, and conversely. -/
theorem sameByte_iff (a b : Addr) : a.extractLsb' 0 48 = b.extractLsb' 0 48 ↔ samePage a b ∧ offsetOf a = offsetOf b := by
  constructor
  · intro h
    have key : ∀ (s l : Nat), s + l ≤ 48 → a.extractLsb' s l = b.extractLsb' s l := by
      intro s l hsl
      apply BitVec.eq_of_getLsbD_eq
      intro i hi
      have := congrArg (fun v => BitVec.getLsbD v (s + i)) h
      simp only [BitVec.getLsbD_extractLsb'] at this ⊢
      have h1 : s + i < 48 := by omega
      simpa [h1, hi] using this
    exact ⟨⟨key 39 9 (by omega), key 30 9 (by omega), key 21 9 (by omega), key 12 9 (by omega)⟩, key 0 12 (by omega)⟩
  · rintro ⟨⟨h4, h3, h2, h1⟩, h0⟩
    have bit : ∀ {n s l : Nat}, a.extractLsb' s l = b.extractLsb' s l → s ≤ n → n < s + l →
        a.getLsbD n = b.getLsbD n := by
      intro n s l h hs hn
      have := congrArg (fun v => BitVec.getLsbD v (n - s)) h
      simp only [BitVec.getLsbD_extractLsb'] at this
      have e : s + (n - s) = n := by omega
      have hl : n - s < l := by omega
      simpa [e, hl] using this
    apply BitVec.eq_of_getLsbD_eq
    intro i hi
    simp only [BitVec.getLsbD_extractLsb', hi, decide_true, Bool.true_and, Nat.zero_add]
    by_cases c1 : i < 12
    · exact bit h0 (by omega) (by omega)
    by_cases c2 : i < 21
    · exact bit h1 (by omega) (by omega)
    by_cases c3 : i < 30
    · exact bit h2 (by omega) (by omega)
    by_cases c4 : i < 39
    · exact bit h3 (by omega) (by omega)
    · exact bit h4 (by omega) (by omega)

/-- Everything `MemReadByte(a)` can do (20_memory.md R76): it answers the byte of Memory and changes none; or it raises
for `a`, the page being missing and the cap reached, and changes none. -/
theorem memReadByte_spec {maxPages : Option Nat} {m : Memory} (h : m.wf) (a : Addr) :
    (∃ m', memReadByte maxPages m a = .ok (m.peek a) m' ∧ m'.wf ∧ (∀ b, m'.peek b = m.peek b) ∧
        (lookupPage m'.top a).isSome ∧ (translate maxPages m a).2 = m') ∨
      (∃ m', memReadByte maxPages m a = .exhausted a m' ∧ m'.wf ∧ (∀ b, m'.peek b = m.peek b) ∧
        lookupPage m.top a = none ∧ capReached maxPages m.pageCount = true ∧ (translate maxPages m a).2 = m') := by
  cases ht : translate maxPages m a with
  | mk r m' =>
    have hwf := translate_wf h ht
    have hpk := translate_peek h ht
    cases r with
    | some p =>
      have hl := translate_some_lookup ht
      refine .inl ⟨m', ?_, hwf, hpk, by simp [hl], rfl⟩
      simp only [memReadByte, ht]
      rw [← hpk a]
      simp only [Memory.peek, hl]
    | none =>
      have hn := (translate_none_iff maxPages m a).mp (by rw [ht])
      exact .inr ⟨m', by simp [memReadByte, ht], hwf, hpk, hn.1, hn.2, rfl⟩

/-- The pages after a byte read that completes: the address has one, and every page there was is still there (20_memory.md
R72, R76). -/
theorem memReadByte_pages {maxPages : Option Nat} {m m' : Memory} {a : Addr} {v : Byte}
    (h : memReadByte maxPages m a = .ok v m') :
    lookupPage m'.top a ≠ none ∧ ∀ b, lookupPage m.top b ≠ none → lookupPage m'.top b ≠ none := by
  cases ht : translate maxPages m a with
  | mk r m1 =>
    cases r with
    | none => simp [memReadByte, ht] at h
    | some p =>
      simp only [memReadByte, ht, Access.ok.injEq] at h
      obtain ⟨-, rfl⟩ := h
      refine ⟨by simp [translate_some_lookup ht], fun b hb => ?_⟩
      rw [translate_lookup ht]
      split
      · simp
      · exact hb

/-- A byte read that raises names its own address, which has no page, and creates none (20_memory.md R71, R76). -/
theorem memReadByte_exhausted {maxPages : Option Nat} {m m' : Memory} {a va : Addr}
    (h : memReadByte maxPages m a = .exhausted va m') :
    va = a ∧ lookupPage m.top a = none ∧ ∀ b, lookupPage m'.top b = lookupPage m.top b := by
  cases ht : translate maxPages m a with
  | mk r m1 =>
    cases r with
    | some p => simp [memReadByte, ht] at h
    | none =>
      simp only [memReadByte, ht, Access.exhausted.injEq] at h
      obtain ⟨rfl, rfl⟩ := h
      have hn := ((translate_none_iff maxPages m a).mp (by rw [ht])).1
      refine ⟨rfl, hn, fun b => ?_⟩
      rw [translate_lookup ht]
      split
      · rename_i hs
        rw [← hn, lookupPage_eq, lookupPage_eq]
        simp only [level1For, hs.1]
      · rfl

/-- Everything `MemWriteByte(a, b)` can do (20_memory.md R77): it changes exactly the byte at `a`, under every address
that agrees in bits 47:0 (R74); or it raises for `a`, the page being missing and the cap reached, and changes none. -/
theorem memWriteByte_spec {maxPages : Option Nat} {m : Memory} (h : m.wf) (a : Addr) (b : Byte) :
    (∃ m', memWriteByte maxPages m a b = .ok () m' ∧ m'.wf ∧
        (∀ c, m'.peek c = if c.extractLsb' 0 48 = a.extractLsb' 0 48 then b else m.peek c) ∧
        m'.top = (translate maxPages m a).2.top ∧ m'.pageCount = (translate maxPages m a).2.pageCount ∧
        (lookupPage m'.top a).isSome) ∨
      (∃ m', memWriteByte maxPages m a b = .exhausted a m' ∧ m'.wf ∧ (∀ c, m'.peek c = m.peek c) ∧
        lookupPage m.top a = none ∧ capReached maxPages m.pageCount = true ∧ (translate maxPages m a).2 = m') := by
  cases ht : translate maxPages m a with
  | mk r m' =>
    have hwf := translate_wf h ht
    have hpk := translate_peek h ht
    cases r with
    | none =>
      have hn := (translate_none_iff maxPages m a).mp (by rw [ht])
      exact .inr ⟨m', by simp [memWriteByte, ht], hwf, hpk, hn.1, hn.2, rfl⟩
    | some p =>
      have hl := translate_some_lookup ht
      have hpi := index_lt_of_lookupPage hwf hl
      have hoff : ∀ x : Addr, (offsetOf x).toNat < 4096 := fun x => (offsetOf x).isLt
      refine .inl ⟨{ m' with bytes := writeCell m'.bytes (physicalAddress p (offsetOf a)) b },
        by simp only [memWriteByte, ht], ?_, ?_, rfl, rfl, by simp [hl]⟩
      · obtain ⟨hb, hlt, hrest⟩ := hwf
        refine ⟨writeCell_canonical hb _ _, ?_, hrest⟩
        intro c hc
        rcases mem_writeCell hc with hc | ⟨rfl, -⟩
        · exact hlt c hc
        · have := hoff a
          have : p.index + 1 ≤ m'.pageCount := hpi
          have := Nat.mul_le_mul_right 4096 this
          simp only [physicalAddress, pageSize]; omega
      · intro c
        rw [← hpk c]
        simp only [Memory.peek]
        cases hc : lookupPage m'.top c with
        | none =>
          have : ¬ c.extractLsb' 0 48 = a.extractLsb' 0 48 := by
            intro e
            have hs := ((sameByte_iff c a).mp e).1
            rw [lookupPage_eq] at hc hl
            simp only [level1For, hs] at hc
            simp only [level1For] at hl
            rw [hc] at hl; simp at hl
          rw [if_neg this]
        | some q =>
          simp only
          rw [readCell_writeCell hwf.1.1]
          have hiff : physicalAddress q (offsetOf c) = physicalAddress p (offsetOf a) ↔
              c.extractLsb' 0 48 = a.extractLsb' 0 48 := by
            rw [sameByte_iff]
            have h1 := hoff a
            have h2 := hoff c
            constructor
            · intro e
              simp only [physicalAddress, pageSize] at e
              have hi : q.index = p.index := by omega
              refine ⟨samePage_of_index_eq hwf hc hl hi, BitVec.eq_of_toNat_eq (by omega)⟩
            · rintro ⟨hs, ho⟩
              have : q = p := by
                rw [lookupPage_eq] at hc hl
                simp only [level1For, hs] at hc
                simp only [level1For] at hl
                rw [hc] at hl; simpa using hl
              rw [this, ho]
          by_cases e : c.extractLsb' 0 48 = a.extractLsb' 0 48
          · rw [if_pos (hiff.mpr e), if_pos e]
          · rw [if_neg (fun x => e (hiff.mp x)), if_neg e]

/-- With no cap no access raises (20_memory.md R71: "translation effectively never fails"). -/
theorem memReadByte_unbounded (m : Memory) (a : Addr) : ∃ b m', memReadByte none m a = .ok b m' := by
  rcases translate_cases none m a with ⟨p, -, e⟩ | ⟨-, -, e⟩ | ⟨-, hc, -⟩
  · exact ⟨_, _, by simp only [memReadByte, e]; rfl⟩
  · exact ⟨_, _, by simp only [memReadByte, e]; rfl⟩
  · simp [capReached] at hc

theorem memWriteByte_unbounded (m : Memory) (a : Addr) (b : Byte) : ∃ m', memWriteByte none m a b = .ok () m' := by
  rcases translate_cases none m a with ⟨p, -, e⟩ | ⟨-, -, e⟩ | ⟨-, hc, -⟩
  · exact ⟨_, by simp only [memWriteByte, e]; rfl⟩
  · exact ⟨_, by simp only [memWriteByte, e]; rfl⟩
  · simp [capReached] at hc

/-- Loading an image keeps the form of Memory. -/
theorem loadImage_wf {maxPages : Option Nat} {bs : List Byte} {a : Addr} {m m' : Memory} (h : m.wf)
    (hl : loadImage maxPages bs a m = .ok () m') : m'.wf := by
  induction bs generalizing a m with
  | nil => simp only [loadImage, Access.ok.injEq, true_and] at hl; exact hl ▸ h
  | cons b bs ih =>
    obtain ⟨⟨⟩, m1, h1, h2⟩ := Access.andThen_eq_ok hl
    rcases memWriteByte_spec (maxPages := maxPages) h a b with ⟨m2, e, hwf, -⟩ | ⟨m2, e, -⟩
    · rw [e] at h1
      simp only [Access.ok.injEq, true_and] at h1
      exact ih (h1 ▸ hwf) h2
    · rw [e] at h1; simp at h1

end Sys2Proof.Machine
end

