-- ==== Sys2Proof/Laws/Words.lean ====
section
/-! SUPPORT. Lemmas about words: byte order, the fields of an instruction word, the opcode map, line base and offset. -/
namespace Sys2Proof

theorem add_ofNat_succ (a : Addr) (i : Nat) : a + 1 + BitVec.ofNat 64 i = a + BitVec.ofNat 64 (i + 1) := by
  rw [BitVec.add_assoc]
  congr 1
  apply BitVec.eq_of_toNat_eq
  simp [Nat.add_comm]

@[simp] theorem bytesOfWord_length (w : Word) : (bytesOfWord w).length = 8 := rfl

theorem wordOfBytes_bytesOfWord (w : Word) : wordOfBytes (bytesOfWord w) = w := by
  apply BitVec.eq_of_getLsbD_eq
  intro i hi
  simp only [wordOfBytes, bytesOfWord, BitVec.getLsbD_or, BitVec.getLsbD_shiftLeft, BitVec.getLsbD_setWidth,
    BitVec.getLsbD_extractLsb']
  interval_cases i <;> simp

theorem bytesOfWord_wordOfBytes (b0 b1 b2 b3 b4 b5 b6 b7 : Byte) :
    bytesOfWord (wordOfBytes [b0, b1, b2, b3, b4, b5, b6, b7]) = [b0, b1, b2, b3, b4, b5, b6, b7] := by
  simp only [bytesOfWord, List.cons.injEq, and_true]
  refine ⟨?_, ?_, ?_, ?_, ?_, ?_, ?_, ?_⟩ <;>
  · apply BitVec.eq_of_getLsbD_eq
    intro i hi
    simp only [wordOfBytes, BitVec.getLsbD_or, BitVec.getLsbD_shiftLeft, BitVec.getLsbD_setWidth,
      BitVec.getLsbD_extractLsb']
    interval_cases i <;> simp

theorem fieldsOfWord_wordOfFields (f : Fields) : fieldsOfWord (wordOfFields f) = f := by
  obtain ⟨op, rd, rs1, rs2, p⟩ := f
  simp only [fieldsOfWord, wordOfFields, Fields.mk.injEq]
  refine ⟨?_, ?_, ?_, ?_, ?_⟩ <;>
  · apply BitVec.eq_of_getLsbD_eq
    intro i hi
    simp only [BitVec.getLsbD_extractLsb', BitVec.getLsbD_append]
    interval_cases i <;> simp

theorem wordOfFields_fieldsOfWord (w : Word) : wordOfFields (fieldsOfWord w) = w := by
  apply BitVec.eq_of_getLsbD_eq
  intro i hi
  simp only [fieldsOfWord, wordOfFields, BitVec.getLsbD_extractLsb', BitVec.getLsbD_append]
  interval_cases i <;> simp

/-- Every opcode has a number in the map, and the number selects it. -/
theorem opcodeOfNumber_numberOfOpcode (o : Opcode) : opcodeOfNumber (numberOfOpcode o) = some o := by
  cases o <;> decide

/-- A number that selects an opcode is that opcode's number. -/
theorem numberOfOpcode_of_opcodeOfNumber {n : BitVec 8} {o : Opcode} (h : opcodeOfNumber n = some o) :
    numberOfOpcode o = n := by
  revert o n
  decide +kernel

end Sys2Proof

namespace Sys2Proof.Machine

/-! ## Line base and offset -/

theorem lineBase_add_lineOffset (cfg : Config) (a : Addr) :
    lineBase cfg a + BitVec.ofNat 64 (lineOffset cfg a) = a := by
  have h : (a &&& ~~~(lineMask cfg)) &&& (a &&& lineMask cfg) = 0#64 := by
    apply BitVec.eq_of_getLsbD_eq
    intro i hi
    simp
    grind
  simp only [lineBase, lineOffset, BitVec.ofNat_toNat, BitVec.setWidth_eq]
  rw [BitVec.add_eq_or_of_and_eq_zero _ _ h]
  apply BitVec.eq_of_getLsbD_eq
  intro i hi
  simp
  grind

theorem lineOffset_lt {cfg : Config} (h : 0 < cfg.lineSize) (a : Addr) : lineOffset cfg a < cfg.lineSize := by
  have h1 : (a &&& lineMask cfg).toNat ≤ (lineMask cfg).toNat := by
    simp only [BitVec.toNat_and]; exact Nat.and_le_right
  have h2 : (lineMask cfg).toNat ≤ cfg.lineSize - 1 := by
    simp only [lineMask, BitVec.toNat_ofNat]; exact Nat.mod_le _ _
  simp only [lineOffset]; omega

@[simp] theorem lineBase_lineBase (cfg : Config) (a : Addr) : lineBase cfg (lineBase cfg a) = lineBase cfg a := by
  apply BitVec.eq_of_getLsbD_eq
  intro i hi
  simp [lineBase]

/-- A legal configuration's line size is a power of two. -/
theorem legalConfig_lineSize {cfg : Config} (h : legalConfig cfg = true) : ∃ n, cfg.lineSize = 2 ^ n := by
  simp only [legalConfig, Bool.and_eq_true, beq_iff_eq] at h
  exact ⟨_, h.1.2.symm⟩

theorem legalConfig_lineSize_pos {cfg : Config} (h : legalConfig cfg = true) : 0 < cfg.lineSize := by
  obtain ⟨n, hn⟩ := legalConfig_lineSize h
  rw [hn]; exact Nat.two_pow_pos n

theorem legalConfig_levels {cfg : Config} (h : legalConfig cfg = true) : cfg.levels ≠ [] := by
  simp only [legalConfig, Bool.and_eq_true, beq_iff_eq] at h
  intro e; simp [e] at h

/-- `CAP[k]` is at least 1 for every level of a legal configuration. -/
theorem legalConfig_capOf {cfg : Config} (h : legalConfig cfg = true) {k : Nat} (hk : k < cfg.levels.length) :
    1 ≤ capOf cfg (k + 1) := by
  simp only [legalConfig, Bool.and_eq_true, beq_iff_eq] at h
  have := h.2
  simp only [List.all_eq_true, decide_eq_true_eq] at this
  simp only [capOf, Nat.add_sub_cancel, List.getElem?_eq_getElem hk]
  exact this _ (List.getElem_mem hk)

theorem lineOffset_eq_mod {cfg : Config} (h : legalConfig cfg = true) (a : Addr) :
    lineOffset cfg a = a.toNat % cfg.lineSize := by
  obtain ⟨n, hn⟩ := legalConfig_lineSize h
  simp only [lineOffset, lineMask, hn, BitVec.toNat_and, BitVec.toNat_ofNat]
  by_cases hle : n ≤ 64
  · have h1 : (2 ^ n - 1) % 2 ^ 64 = 2 ^ n - 1 := by
      apply Nat.mod_eq_of_lt
      have : 2 ^ n ≤ 2 ^ 64 := Nat.pow_le_pow_right (by omega) hle
      have : 0 < 2 ^ n := Nat.two_pow_pos n
      omega
    rw [h1, Nat.and_two_pow_sub_one_eq_mod]
  · have hlt : a.toNat < 2 ^ n := Nat.lt_of_lt_of_le a.isLt (Nat.pow_le_pow_right (by omega) (by omega))
    have h1 : (2 ^ n - 1) % 2 ^ 64 = 2 ^ 64 - 1 := by
      obtain ⟨m, rfl⟩ : ∃ m, n = 64 + m := ⟨n - 64, by omega⟩
      have hp : 0 < 2 ^ m := Nat.two_pow_pos m
      rw [Nat.pow_add]
      obtain ⟨q, hq⟩ : ∃ q, 2 ^ m = q + 1 := ⟨2 ^ m - 1, by omega⟩
      rw [hq, Nat.mul_add, Nat.mul_one, Nat.add_sub_assoc (by decide), Nat.mul_add_mod_self_left,
        Nat.mod_eq_of_lt (by decide)]
    rw [h1, Nat.and_two_pow_sub_one_eq_mod, Nat.mod_eq_of_lt a.isLt, Nat.mod_eq_of_lt hlt]

/-- The line base in numbers: the address less its offset. -/
theorem lineBase_toNat {cfg : Config} (h : legalConfig cfg = true) (a : Addr) :
    (lineBase cfg a).toNat = a.toNat - a.toNat % cfg.lineSize := by
  have h1 := lineBase_add_lineOffset cfg a
  have h2 := lineOffset_eq_mod h a
  have h3 : lineBase cfg a = a - BitVec.ofNat 64 (lineOffset cfg a) := BitVec.eq_sub_iff_add_eq.mpr h1
  have h4 : a.toNat % cfg.lineSize ≤ a.toNat := Nat.mod_le _ _
  have h5 := a.isLt
  rw [h3, h2, BitVec.toNat_sub, BitVec.toNat_ofNat, Nat.mod_eq_of_lt (a := _ % cfg.lineSize) (by omega)]
  omega

/-- Two addresses are in one line exactly if their quotients by the line size agree. -/
theorem lineBase_eq_iff {cfg : Config} (h : legalConfig cfg = true) (a b : Addr) :
    lineBase cfg a = lineBase cfg b ↔ a.toNat / cfg.lineSize = b.toNat / cfg.lineSize := by
  have hp := legalConfig_lineSize_pos h
  have key : ∀ c : Addr, (lineBase cfg c).toNat = cfg.lineSize * (c.toNat / cfg.lineSize) := by
    intro c
    rw [lineBase_toNat h]
    have := Nat.div_add_mod c.toNat cfg.lineSize
    omega
  constructor
  · intro e
    have := congrArg BitVec.toNat e
    rw [key, key] at this
    exact Nat.eq_of_mul_eq_mul_left hp this
  · intro e
    apply BitVec.eq_of_toNat_eq
    rw [key, key, e]

/-- An address is given by its line base and its offset. -/
theorem eq_of_lineBase_lineOffset {cfg : Config} {a b : Addr} (h1 : lineBase cfg a = lineBase cfg b)
    (h2 : lineOffset cfg a = lineOffset cfg b) : a = b := by
  rw [← lineBase_add_lineOffset cfg a, ← lineBase_add_lineOffset cfg b, h1, h2]

/-- The offset of the `j`-th byte of a line that fits the address space. -/
theorem lineOffset_base_add {cfg : Config} (h : legalConfig cfg = true) {base : Addr} (hb : lineBase cfg base = base)
    {j : Nat} (hj : j < cfg.lineSize) (h64 : j < 2 ^ 64) :
    lineOffset cfg (base + BitVec.ofNat 64 j) = j ∧ lineBase cfg (base + BitVec.ofNat 64 j) = base := by
  have hp := legalConfig_lineSize_pos h
  obtain ⟨n, hn⟩ := legalConfig_lineSize h
  have hm : base.toNat % cfg.lineSize = 0 := by
    have := lineBase_toNat h base
    rw [hb] at this
    have := Nat.mod_le base.toNat cfg.lineSize
    omega
  have hsum : base.toNat + j < 2 ^ 64 := by
    by_cases hle : n ≤ 64
    · obtain ⟨q, hq⟩ := Nat.dvd_of_mod_eq_zero hm
      have h1 := base.isLt
      obtain ⟨r, hr⟩ : cfg.lineSize ∣ 2 ^ 64 := by rw [hn]; exact Nat.pow_dvd_pow 2 hle
      have hlt : q < r := by
        by_contra hc
        have : cfg.lineSize * r ≤ cfg.lineSize * q := Nat.mul_le_mul_left _ (by omega)
        omega
      have : cfg.lineSize * (q + 1) ≤ cfg.lineSize * r := Nat.mul_le_mul_left _ (by omega)
      rw [Nat.mul_add] at this
      omega
    · have hlt : base.toNat < cfg.lineSize := by
        rw [hn]; exact Nat.lt_of_lt_of_le base.isLt (Nat.pow_le_pow_right (by omega) (by omega))
      rw [Nat.mod_eq_of_lt hlt] at hm
      omega
  have hto : (base + BitVec.ofNat 64 j).toNat = base.toNat + j := by
    rw [BitVec.toNat_add, BitVec.toNat_ofNat, Nat.mod_eq_of_lt (a := j) h64, Nat.mod_eq_of_lt hsum]
  have hoff : lineOffset cfg (base + BitVec.ofNat 64 j) = j := by
    rw [lineOffset_eq_mod h, hto, Nat.add_mod, hm, Nat.zero_add, Nat.mod_mod, Nat.mod_eq_of_lt hj]
  refine ⟨hoff, ?_⟩
  have := lineBase_add_lineOffset cfg (base + BitVec.ofNat 64 j)
  rw [hoff] at this
  exact (BitVec.add_left_inj _).mp this

end Sys2Proof.Machine
end

