-- ==== Sys2Proof/Laws/Cache.lean ====
section
/-! SUPPORT. What the CacheHierarchy can do, said once: lookup, touch, insertion, line fill, and the two byte accesses; every
access keeps the form of cache and Memory. -/
namespace Sys2Proof.Machine

/-! ## Lookup, touch, insertion -/

/-- `Lookup` finds nothing exactly when no level holds the base. -/
theorem lookupFrom_none {base : Addr} {pos : Nat} {levels : List Level} :
    lookupFrom base pos levels = none ↔ ∀ e ∈ levels.flatten, e.base ≠ base := by
  induction levels generalizing pos with
  | nil => simp [lookupFrom]
  | cons lvl rest ih =>
    simp only [lookupFrom]
    cases hf : lvl.find? (fun e => e.base == base) with
    | some e =>
      have h1 := List.mem_of_find?_eq_some hf
      have h2 := List.find?_some hf
      simp only [reduceCtorEq, false_iff]
      intro h
      exact h e (by simp [h1]) (by simpa using h2)
    | none =>
      rw [List.find?_eq_none] at hf
      simp only [ih, List.flatten_cons, List.mem_append]
      constructor
      · rintro h e (he | he)
        · simpa using hf e he
        · exact h e he
      · intro h e he
        exact h e (.inr he)

theorem perm_touchLevel {lvl : Level} {e d : Line} (hf : lvl.find? (fun x => x.base == d.base) = some e) :
    lvl.Perm (e :: lvl.eraseP fun x => x.base == d.base) := by
  induction lvl with
  | nil => simp at hf
  | cons x lvl ih =>
    cases hx : (x.base == d.base) with
    | true =>
      simp only [List.find?_cons, hx, Option.some.injEq] at hf
      subst hf
      simp [hx]
    | false =>
      simp only [List.find?_cons, hx] at hf
      simp only [List.eraseP_cons, hx, cond_false]
      exact ((ih hf).cons x).trans (List.Perm.swap _ _ _)

/-- What a found line and its touch are: the line has the base; the levels hold it and a rest; after the touch they hold
the touched entry and the same rest. -/
theorem lookupFrom_some {base : Addr} {pos p : Nat} {levels : List Level} {e : Line}
    (h : lookupFrom base pos levels = some (p, e)) (d : Line) (hd : d.base = base) :
    e.base = base ∧ pos ≤ p ∧ p - pos < levels.length ∧
      ∃ rest, levels.flatten.Perm (e :: rest) ∧ (touch (p - pos) d levels).flatten.Perm (d :: rest) := by
  induction levels generalizing pos with
  | nil => simp [lookupFrom] at h
  | cons lvl rest ih =>
    simp only [lookupFrom] at h
    cases hf : lvl.find? (fun e => e.base == base) with
    | some x =>
      simp only [hf, Option.some.injEq, Prod.mk.injEq] at h
      obtain ⟨rfl, rfl⟩ := h
      have hb := List.find?_some hf
      refine ⟨by simpa using hb, Nat.le_refl _, by simp, (lvl.eraseP fun x => x.base == d.base) ++ rest.flatten, ?_, ?_⟩
      · have := perm_touchLevel (d := d) (hd ▸ hf)
        simpa using this.append_right rest.flatten
      · simp [touch, touchLevel]
    | none =>
      simp only [hf] at h
      obtain ⟨h1, h2, h3, r, hr1, hr2⟩ := ih h
      have hp : p - pos = (p - (pos + 1)) + 1 := by omega
      refine ⟨h1, by omega, by simp; omega, lvl ++ r, ?_, ?_⟩
      · simp only [List.flatten_cons]
        exact (hr1.append_left lvl).trans List.perm_middle
      · rw [hp]
        simp only [touch, List.modify_succ_cons, List.flatten_cons] at hr2 ⊢
        exact (hr2.append_left lvl).trans List.perm_middle

/-- A touch leaves every level as long as it was. -/
theorem touch_lengths {base : Addr} {pos p : Nat} {levels : List Level} {e : Line}
    (h : lookupFrom base pos levels = some (p, e)) (d : Line) (hd : d.base = base) :
    (touch (p - pos) d levels).map List.length = levels.map List.length := by
  induction levels generalizing pos with
  | nil => simp [lookupFrom] at h
  | cons lvl rest ih =>
    simp only [lookupFrom] at h
    cases hf : lvl.find? (fun e => e.base == base) with
    | some x =>
      simp only [hf, Option.some.injEq, Prod.mk.injEq] at h
      obtain ⟨rfl, rfl⟩ := h
      have := (perm_touchLevel (d := d) (hd ▸ hf)).length_eq
      simp only [List.length_cons] at this
      simp [touch, touchLevel, this]
    | none =>
      simp only [hf] at h
      have h2 := (lookupFrom_some h d hd).2.1
      have hp : p - pos = (p - (pos + 1)) + 1 := by omega
      rw [hp]
      simp only [touch, List.modify_succ_cons, List.map_cons] at ih ⊢
      rw [ih h]

/-- What an insertion does to the lines: the new line is there, the others are some of those there were. -/
theorem insertLine_lines (cfg : Config) (k : Nat) (e : Line) {levels : List Level} (hne : levels ≠ []) :
    ∃ kept dropped, levels.flatten.Perm (kept ++ dropped) ∧ (insertLine cfg k e levels).flatten.Perm (e :: kept) := by
  induction levels generalizing k e with
  | nil => exact absurd rfl hne
  | cons lvl rest ih =>
    simp only [insertLine]
    split
    · rcases List.eq_nil_or_concat lvl with rfl | ⟨init, v, rfl⟩
      · refine ⟨rest.flatten, [], by simp, ?_⟩
        simp
      · simp only [List.concat_eq_append, List.getLast?_append, List.getLast?_singleton, Option.some_or,
          List.dropLast_concat]
        cases cfg.victimPolicy with
        | drop =>
          refine ⟨init ++ rest.flatten, [v], ?_, by simp⟩
          simp only [List.flatten_cons, List.append_assoc]
          exact List.perm_append_comm.append_left init
        | demote =>
          simp only
          cases rest with
          | nil => exact ⟨init, [v], by simp, by simp [insertLine]⟩
          | cons l2 r2 =>
            obtain ⟨kept, dropped, h1, h2⟩ := ih (k + 1) v (by simp)
            refine ⟨init ++ v :: kept, dropped, ?_, ?_⟩
            · simp only [List.flatten_cons (l := init ++ [v]), List.append_assoc, List.singleton_append]
              exact (h1.cons v).append_left init
            · simp only [List.flatten_cons (l := e :: init), List.cons_append]
              exact (h2.append_left init).cons e
    · exact ⟨(lvl :: rest).flatten, [], by simp, by simp⟩

theorem insertLine_length (cfg : Config) (k : Nat) (e : Line) (levels : List Level) :
    (insertLine cfg k e levels).length = levels.length := by
  induction levels generalizing k e with
  | nil => rfl
  | cons lvl rest ih =>
    simp only [insertLine]
    split
    · split <;> simp [ih]
    · simp

/-- Where an insertion at level `k` puts lines under `drop` (20_memory.md R91, R93): in front of that level, which makes room;
the levels below do not change. -/
theorem insertLine_drop {cfg : Config} (hp : cfg.victimPolicy = .drop) (k : Nat) (e : Line) (lvl : Level)
    (rest : List Level) :
    insertLine cfg k e (lvl :: rest) =
      (e :: if lvl.length = capOf cfg k then lvl.dropLast else lvl) :: rest := by
  simp only [insertLine, hp]
  split
  · split
    · rename_i h; cases h
    · rfl
  · rfl

/-- Where an insertion at level `k` puts lines under `demote` (20_memory.md R91, R93): in front of that level; if the level is
at capacity its last line goes into the next level in the same way, else the levels below do not change. -/
theorem insertLine_demote {cfg : Config} (hp : cfg.victimPolicy = .demote) (k : Nat) (e : Line) (lvl : Level)
    (rest : List Level) :
    insertLine cfg k e (lvl :: rest) =
      if lvl.length = capOf cfg k then
        (e :: lvl.dropLast) :: (lvl.getLast?.map fun v => insertLine cfg (k + 1) v rest).getD rest
      else (e :: lvl) :: rest := by
  simp only [insertLine, hp]
  split
  · cases lvl.getLast? <;> rfl
  · rfl

/-- An insertion keeps every level within its capacity. -/
theorem insertLine_capacity {cfg : Config} {k : Nat} (e : Line) {levels : List Level}
    (hpos : ∀ j < levels.length, 1 ≤ capOf cfg (k + j))
    (h : ∀ j < levels.length, (levels.getD j []).length ≤ capOf cfg (k + j)) :
    ∀ j < levels.length, ((insertLine cfg k e levels).getD j []).length ≤ capOf cfg (k + j) := by
  induction levels generalizing k e with
  | nil => simp
  | cons lvl rest ih =>
    have h0 := h 0 (by simp)
    have p0 := hpos 0 (by simp)
    simp only [List.getD_cons_zero, Nat.add_zero] at h0 p0
    have hr : ∀ j < rest.length, (rest.getD j []).length ≤ capOf cfg (k + 1 + j) := by
      intro j hj
      have := h (j + 1) (by simpa using hj)
      simpa [Nat.add_assoc, Nat.add_comm 1 j] using this
    have pr : ∀ j < rest.length, 1 ≤ capOf cfg (k + 1 + j) := by
      intro j hj
      have := hpos (j + 1) (by simpa using hj)
      simpa [Nat.add_assoc, Nat.add_comm 1 j] using this
    intro j hj
    simp only [insertLine]
    split
    · rename_i hfull
      have hlen : (e :: lvl.dropLast).length ≤ capOf cfg k := by
        simp only [List.length_cons, List.length_dropLast]; omega
      split
      · rename_i victim hv _
        cases j with
        | zero => simpa using hlen
        | succ j =>
          have := ih (k := k + 1) victim pr hr j (by simpa using hj)
          simpa [Nat.add_assoc, Nat.add_comm 1 j] using this
      · cases j with
        | zero => simpa using hlen
        | succ j =>
          have := hr j (by simpa using hj)
          simpa [Nat.add_assoc, Nat.add_comm 1 j] using this
    · cases j with
      | zero => simp only [List.getD_cons_zero, List.length_cons, Nat.add_zero]; omega
      | succ j =>
        have := hr j (by simpa using hj)
        simpa [Nat.add_assoc, Nat.add_comm 1 j] using this

/-! ## Line fill -/

/-- Everything `LineFill` can do (20_memory.md R98): it answers the bytes of Memory from `a` on and changes none; or it
raises for one of them, whose page is missing at the cap, and changes none. -/
theorem lineFill_spec {maxPages : Option Nat} (n : Nat) (a : Addr) {m : Memory} (h : m.wf) :
    (∃ data m', lineFill maxPages n a m = .ok data m' ∧ m'.wf ∧ (∀ b, m'.peek b = m.peek b) ∧ data.length = n ∧
        (∀ j < n, data.getD j 0 = m.peek (a + BitVec.ofNat 64 j)) ∧
        ((∀ k ∈ maxPages, m.pageCount ≤ k) → ∀ k ∈ maxPages, m'.pageCount ≤ k)) ∨
      (∃ va m', lineFill maxPages n a m = .exhausted va m' ∧ m'.wf ∧ (∀ b, m'.peek b = m.peek b) ∧
        (∃ j < n, va = a + BitVec.ofNat 64 j) ∧
        ((∀ k ∈ maxPages, m.pageCount ≤ k) → ∀ k ∈ maxPages, m'.pageCount ≤ k)) := by
  induction n generalizing a m with
  | zero => exact .inl ⟨[], m, rfl, h, fun _ => rfl, rfl, by omega, fun hc => hc⟩
  | succ n ih =>
    simp only [lineFill]
    rcases memReadByte_spec (maxPages := maxPages) h a with ⟨m1, e, hwf, hpk, -, ht⟩ | ⟨m1, e, hwf, hpk, -, -, ht⟩
    · have hcap : (∀ k ∈ maxPages, m.pageCount ≤ k) → ∀ k ∈ maxPages, m1.pageCount ≤ k :=
        fun hc => translate_cap (Prod.ext rfl ht) hc
      rw [e]
      simp only [Access.andThen_ok]
      rcases ih (a + 1) hwf with ⟨data, m2, e2, hwf2, hpk2, hlen, hdat, hc2⟩ | ⟨va, m2, e2, hwf2, hpk2, hj, hc2⟩
      · refine .inl ⟨m.peek a :: data, m2, by rw [e2]; rfl, hwf2, fun b => (hpk2 b).trans (hpk b), by simp [hlen], ?_,
          fun hc => hc2 (hcap hc)⟩
        intro j hj
        cases j with
        | zero => simp
        | succ j =>
          simp only [List.getD_cons_succ]
          rw [hdat j (by omega), hpk, add_ofNat_succ]
      · obtain ⟨j, hj, rfl⟩ := hj
        refine .inr ⟨_, m2, by rw [e2]; rfl, hwf2, fun b => (hpk2 b).trans (hpk b), ⟨j + 1, by omega, add_ofNat_succ _ _⟩,
          fun hc => hc2 (hcap hc)⟩
    · refine .inr ⟨a, m1, by rw [e]; rfl, hwf, hpk, ⟨0, by omega, by simp⟩, fun hc => translate_cap (Prod.ext rfl ht) hc⟩

/-- Where `LineFill` fails (20_memory.md R98): at the first of its addresses, ascending, that has no page; the pages it met
or created before stay. -/
theorem lineFill_exhausted {maxPages : Option Nat} {n : Nat} {a va : Addr} {m m' : Memory}
    (h : lineFill maxPages n a m = .exhausted va m') :
    (∀ b, lookupPage m.top b ≠ none → lookupPage m'.top b ≠ none) ∧
      ∃ j < n, va = a + BitVec.ofNat 64 j ∧ lookupPage m'.top va = none ∧
        ∀ i < j, lookupPage m'.top (a + BitVec.ofNat 64 i) ≠ none := by
  induction n generalizing a m with
  | zero => simp [lineFill] at h
  | succ n ih =>
    rcases Access.andThen_eq_exhausted h with h | ⟨v, m1, h1, h⟩
    · obtain ⟨rfl, hl, hk⟩ := memReadByte_exhausted h
      exact ⟨fun b hb => by rwa [hk], 0, by omega, by simp, by rwa [hk], by omega⟩
    · obtain ⟨hl, hk⟩ := memReadByte_pages h1
      rcases Access.andThen_eq_exhausted h with h | ⟨_, _, _, h⟩
      · obtain ⟨hm, j, hj, hva, hn, hi⟩ := ih h
        refine ⟨fun b hb => hm b (hk b hb), j + 1, by omega, by rw [hva, add_ofNat_succ], hn, fun i hi' => ?_⟩
        cases i with
        | zero => simpa using hm a hl
        | succ i => rw [← add_ofNat_succ]; exact hi i (by omega)
      · cases h

theorem lineFill_unbounded (n : Nat) (a : Addr) (m : Memory) : ∃ data m', lineFill none n a m = .ok data m' := by
  induction n generalizing a m with
  | zero => exact ⟨_, _, rfl⟩
  | succ n ih =>
    obtain ⟨b, m1, e⟩ := memReadByte_unbounded m a
    obtain ⟨data, m2, e2⟩ := ih (a + 1) m1
    exact ⟨b :: data, m2, by simp only [lineFill, e, Access.andThen_ok, e2]⟩

/-! ## The form of cache and Memory together -/

/-- Cache and Memory in their form, the page cap kept. -/
abbrev Storage.wf (cfg : Config) (st : Storage) : Prop :=
  st.memory.wf ∧ st.cache.wf cfg ∧ ∀ n ∈ cfg.maxPages, st.memory.pageCount ≤ n

/-- The line `LineFill` makes for an address agrees with Memory at every byte. -/
def FilledFrom (cfg : Config) (m : Memory) (e : Line) : Prop :=
  e.data.length = cfg.lineSize ∧ ∀ j < cfg.lineSize, e.byteAt j = m.peek (e.base + BitVec.ofNat 64 j)

theorem FilledFrom.byteAt_offset {cfg : Config} {m : Memory} {e : Line} (hp : 0 < cfg.lineSize)
    (h : FilledFrom cfg m e) {a : Addr} (ha : e.base = lineBase cfg a) : e.byteAt (lineOffset cfg a) = m.peek a := by
  rw [h.2 _ (lineOffset_lt hp a), ha, lineBase_add_lineOffset]

theorem hit_wf {cfg : Config} {c : CacheHierarchy} (hc : c.wf cfg) {base : Addr} {p : Nat} {e d : Line}
    (hl : lookupLine base c.levels = some (p, e)) (hd : d.base = base) (hdl : d.data.length = e.data.length) :
    (c.hit p d).wf cfg := by
  obtain ⟨h1, h2, h3, h4⟩ := hc
  obtain ⟨hb, -, -, rest, hr1, hr2⟩ := lookupFrom_some hl d hd
  have hlen := touch_lengths hl d hd
  simp only [Nat.sub_zero] at hr2 hlen
  have hll : (touch p d c.levels).length = c.levels.length := by simpa using congrArg List.length hlen
  refine ⟨by simp [CacheHierarchy.hit, hll, h1], ?_, ?_, ?_⟩
  · intro k hk
    have hk' : k ∈ List.range c.levels.length := by simpa [CacheHierarchy.hit, hll] using hk
    have hkl : k < c.levels.length := List.mem_range.mp hk'
    have := h2 k hk'
    have e1 : ((touch p d c.levels).getD k []).length = (c.levels.getD k []).length := by
      have := congrArg (fun l => l.getD k 0) hlen
      simp only [List.getD_eq_getElem?_getD, List.getElem?_map] at this ⊢
      rw [List.getElem?_eq_getElem (by rw [hll]; exact hkl), List.getElem?_eq_getElem hkl] at this ⊢
      simpa using this
    change ((touch p d c.levels).getD k []).length ≤ _
    rw [e1]; exact this
  · intro x hx
    have hx' : x ∈ d :: rest := hr2.mem_iff.mp hx
    have he := h3 e (hr1.mem_iff.mpr (by simp))
    rcases List.mem_cons.mp hx' with rfl | hx'
    · rw [hb] at he
      exact ⟨by rw [hd]; exact he.1, by rw [hdl]; exact he.2⟩
    · exact h3 x (hr1.mem_iff.mpr (by simp [hx']))
  · have e1 : (c.lines.map (·.base)).Perm (base :: rest.map (·.base)) := by
      have := hr1.map (·.base)
      rw [List.map_cons, hb] at this
      exact this
    have e2 : ((c.hit p d).lines.map (·.base)).Perm (base :: rest.map (·.base)) := by
      have := hr2.map (·.base)
      rw [List.map_cons, hd] at this
      exact this
    exact (e2.trans e1.symm).nodup_iff.mpr h4

theorem miss_wf {cfg : Config} (hcfg : legalConfig cfg = true) {c : CacheHierarchy} (hc : c.wf cfg) {d : Line}
    (hl : lookupLine d.base c.levels = none) (hb : lineBase cfg d.base = d.base) (hdl : d.data.length = cfg.lineSize) :
    (c.miss cfg d).wf cfg := by
  obtain ⟨h1, h2, h3, h4⟩ := hc
  have hne : c.levels ≠ [] := by
    intro e; rw [e] at h1; exact legalConfig_levels hcfg (List.length_eq_zero_iff.mp h1.symm)
  obtain ⟨kept, dropped, hk1, hk2⟩ := insertLine_lines cfg 1 d hne
  have hab := lookupFrom_none.mp hl
  refine ⟨by simp [CacheHierarchy.miss, insertLine_length, h1], ?_, ?_, ?_⟩
  · intro k hk
    have hkl : k < c.levels.length := by simpa [CacheHierarchy.miss, insertLine_length] using hk
    have := insertLine_capacity (cfg := cfg) (k := 1) d (levels := c.levels)
      (fun j hj => by rw [Nat.add_comm]; exact legalConfig_capOf hcfg (h1 ▸ hj))
      (fun j hj => by rw [Nat.add_comm]; exact h2 j (List.mem_range.mpr hj)) k hkl
    rw [Nat.add_comm] at this
    exact this
  · intro x hx
    have hx' : x ∈ d :: kept := hk2.mem_iff.mp hx
    rcases List.mem_cons.mp hx' with rfl | hx'
    · exact ⟨hb, hdl⟩
    · exact h3 x (hk1.mem_iff.mpr (by simp [hx']))
  · have e2 : ((c.miss cfg d).lines.map (·.base)).Perm (d.base :: kept.map (·.base)) :=
      hk2.map (·.base)
    have e1 : (c.lines.map (·.base)).Perm (kept.map (·.base) ++ dropped.map (·.base)) := by
      rw [← List.map_append]; exact hk1.map (·.base)
    rw [e2.nodup_iff, List.nodup_cons]
    refine ⟨?_, (List.nodup_append.mp (e1.nodup_iff.mp h4)).1⟩
    intro hm
    obtain ⟨x, hx, hxb⟩ := List.mem_map.mp hm
    exact hab x (hk1.mem_iff.mpr (by simp [hx])) hxb

/-- Everything a miss can do: fill the line from Memory and insert it, or raise with the cache as it was. -/
theorem fillLine_spec {cfg : Config} (hcfg : legalConfig cfg = true) {st : Storage} (h : st.wf cfg) {base : Addr}
    (hb : lineBase cfg base = base) (hl : lookupLine base st.cache.levels = none) :
    (∃ e st', fillLine cfg st base = .ok e st' ∧ st'.wf cfg ∧ (∀ b, st'.memory.peek b = st.memory.peek b) ∧
        e.base = base ∧ FilledFrom cfg st.memory e ∧ (∀ d ∈ st'.cache.lines, d ∈ st.cache.lines ∨ d = e) ∧
        st'.cache = st.cache.miss cfg e) ∨
      (∃ va st', fillLine cfg st base = .exhausted va st' ∧ st'.wf cfg ∧
        (∀ b, st'.memory.peek b = st.memory.peek b) ∧ (∃ j < cfg.lineSize, va = base + BitVec.ofNat 64 j) ∧
        st'.cache = st.cache) := by
  obtain ⟨hm, hc, hcap⟩ := h
  rcases lineFill_spec (maxPages := cfg.maxPages) cfg.lineSize base hm with
    ⟨data, m', e, hwf, hpk, hlen, hdat, hc2⟩ | ⟨va, m', e, hwf, hpk, hj, hc2⟩
  · have hmw : (st.cache.miss cfg ⟨base, data⟩).wf cfg := miss_wf hcfg hc hl hb hlen
    refine .inl ⟨⟨base, data⟩, { cache := st.cache.miss cfg ⟨base, data⟩, memory := m' }, by simp only [fillLine, e],
      ⟨hwf, hmw, hc2 hcap⟩, hpk, rfl, ⟨hlen, hdat⟩, ?_, rfl⟩
    intro d hd
    have hne : st.cache.levels ≠ [] := by
      intro e'; have h1 := hc.1; rw [e'] at h1
      exact legalConfig_levels hcfg (List.length_eq_zero_iff.mp h1.symm)
    obtain ⟨kept, dropped, hk1, hk2⟩ := insertLine_lines cfg 1 ⟨base, data⟩ hne
    rcases List.mem_cons.mp (hk2.mem_iff.mp hd) with rfl | hd
    · exact .inr rfl
    · exact .inl (hk1.mem_iff.mpr (by simp [hd]))
  · exact .inr ⟨va, { st with memory := m' }, by simp only [fillLine, e], ⟨hwf, hc, hc2 hcap⟩, hpk, hj, rfl⟩

/-- Everything `CacheRead(a)` can do (20_memory.md R86, R97): answer the byte of the line that holds `a`, or, with no such
line, of Memory; no byte of Memory changes; the lines after it are lines there were, or the line filled from Memory;
exactly one counter counts. Or raise, the page of a byte of the line missing at the cap; then the cache is as it was. -/
theorem cacheRead_spec {cfg : Config} (hcfg : legalConfig cfg = true) {st : Storage} (h : st.wf cfg) (a : Addr) :
    (∃ v st', cacheRead cfg st a = .ok v st' ∧ st'.wf cfg ∧ (∀ b, st'.memory.peek b = st.memory.peek b) ∧
        (∀ d ∈ st'.cache.lines, d ∈ st.cache.lines ∨ FilledFrom cfg st.memory d) ∧
        ((∃ e ∈ st.cache.lines, e.base = lineBase cfg a ∧ v = e.byteAt (lineOffset cfg a) ∧
            st'.memory = st.memory ∧ st'.cache.hitCount = st.cache.hitCount + 1 ∧
            st'.cache.missCount = st.cache.missCount) ∨
          ((∀ e ∈ st.cache.lines, e.base ≠ lineBase cfg a) ∧ v = st.memory.peek a ∧
            st'.cache.hitCount = st.cache.hitCount ∧ st'.cache.missCount = st.cache.missCount + 1))) ∨
      (∃ va st', cacheRead cfg st a = .exhausted va st' ∧ st'.wf cfg ∧
        (∀ b, st'.memory.peek b = st.memory.peek b) ∧
        (∃ j < cfg.lineSize, va = lineBase cfg a + BitVec.ofNat 64 j) ∧ st'.cache = st.cache) := by
  have hp := legalConfig_lineSize_pos hcfg
  simp only [cacheRead]
  cases hl : lookupLine (lineBase cfg a) st.cache.levels with
  | some pe =>
    obtain ⟨p, e⟩ := pe
    have hb := (lookupFrom_some hl ⟨lineBase cfg a, []⟩ rfl).1
    obtain ⟨-, -, -, rest, hr1, hr2⟩ := lookupFrom_some hl e hb
    simp only [Nat.sub_zero] at hr2
    have hmem : e ∈ st.cache.lines := hr1.mem_iff.mpr (by simp)
    refine .inl ⟨_, _, rfl, ⟨h.1, hit_wf h.2.1 hl hb rfl, h.2.2⟩, fun _ => rfl, ?_,
      .inl ⟨e, hmem, hb, rfl, rfl, rfl, rfl⟩⟩
    intro d hd
    exact .inl (hr1.mem_iff.mpr (hr2.mem_iff.mp hd))
  | none =>
    rcases fillLine_spec hcfg h (lineBase_lineBase cfg a) hl with
      ⟨e, st', he, hwf, hpk, hb, hfill, hlines, hcache⟩ | ⟨va, st', he, hwf, hpk, hj, hcache⟩
    · refine .inl ⟨e.byteAt (lineOffset cfg a), st', by simp only [he, Access.andThen_ok], hwf, hpk, ?_, .inr ⟨lookupFrom_none.mp hl, ?_, ?_, ?_⟩⟩
      · intro d hd
        rcases hlines d hd with hd | rfl
        · exact .inl hd
        · exact .inr hfill
      · exact hfill.byteAt_offset hp hb
      · rw [hcache]; rfl
      · rw [hcache]; rfl
    · exact .inr ⟨va, st', by simp only [he, Access.andThen_exhausted], hwf, hpk, hj, hcache⟩

theorem byteAt_putByte_same {e : Line} {off : Nat} (h : off < e.data.length) (b : Byte) :
    (e.putByte off b).byteAt off = b := by
  simp [Line.byteAt, Line.putByte, List.getD_eq_getElem?_getD, h]

theorem byteAt_putByte_other {e : Line} {off j : Nat} (h : j ≠ off) (b : Byte) :
    (e.putByte off b).byteAt j = e.byteAt j := by
  simp [Line.byteAt, Line.putByte, List.getD_eq_getElem?_getD, Ne.symm h]

/-- Everything `CacheWrite(a, b)` can do (20_memory.md R87, R97): Memory's byte at `a` becomes `b`, no other byte changes
(R77); a line that holds `a` has the byte replaced, in place; with no such line one is filled from Memory after the
write; every other line is one there was; exactly one counter counts. Or raise. -/
theorem cacheWrite_spec {cfg : Config} (hcfg : legalConfig cfg = true) {st : Storage} (h : st.wf cfg) (a : Addr)
    (b : Byte) :
    (∃ st', cacheWrite cfg st a b = .ok () st' ∧ st'.wf cfg ∧
        (∀ c, st'.memory.peek c = if c.extractLsb' 0 48 = a.extractLsb' 0 48 then b else st.memory.peek c) ∧
        ((∃ e ∈ st.cache.lines, e.base = lineBase cfg a ∧
            (∀ d ∈ st'.cache.lines, (d ∈ st.cache.lines ∧ d.base ≠ lineBase cfg a) ∨
              d = e.putByte (lineOffset cfg a) b) ∧
            st'.cache.hitCount = st.cache.hitCount + 1 ∧ st'.cache.missCount = st.cache.missCount) ∨
          ((∀ e ∈ st.cache.lines, e.base ≠ lineBase cfg a) ∧
            (∀ d ∈ st'.cache.lines, d ∈ st.cache.lines ∨ (d.base = lineBase cfg a ∧ FilledFrom cfg st'.memory d)) ∧
            st'.cache.hitCount = st.cache.hitCount ∧ st'.cache.missCount = st.cache.missCount + 1))) ∨
      (∃ va st', cacheWrite cfg st a b = .exhausted va st' ∧ st'.wf cfg ∧ st'.cache = st.cache ∧
        ((va = a ∧ ∀ c, st'.memory.peek c = st.memory.peek c) ∨
          ((∃ j < cfg.lineSize, va = lineBase cfg a + BitVec.ofNat 64 j) ∧
            ∀ c, st'.memory.peek c = if c.extractLsb' 0 48 = a.extractLsb' 0 48 then b else st.memory.peek c))) := by
  obtain ⟨hm, hc, hcap⟩ := h
  rcases memWriteByte_spec (maxPages := cfg.maxPages) hm a b with
    ⟨m, e1, hmwf, hpk, -, hpc, -⟩ | ⟨m, e1, hmwf, hpk, -, -, ht⟩
  · have hmcap : ∀ n ∈ cfg.maxPages, m.pageCount ≤ n := by
      rw [hpc]; exact translate_cap (Prod.ext rfl rfl) hcap
    simp only [cacheWrite, e1]
    cases hl : lookupLine (lineBase cfg a) st.cache.levels with
    | some pe =>
      obtain ⟨p, e⟩ := pe
      have hb := (lookupFrom_some hl ⟨lineBase cfg a, []⟩ rfl).1
      obtain ⟨-, -, -, rest, hr1, hr2⟩ := lookupFrom_some hl (e.putByte (lineOffset cfg a) b) hb
      simp only [Nat.sub_zero] at hr2
      have hmem : e ∈ st.cache.lines := hr1.mem_iff.mpr (by simp)
      refine .inl ⟨_, rfl, ⟨hmwf, hit_wf hc hl hb (by simp [Line.putByte]), hmcap⟩, hpk,
        .inl ⟨e, hmem, hb, ?_, rfl, rfl⟩⟩
      intro d hd
      rcases List.mem_cons.mp (hr2.mem_iff.mp hd) with rfl | hd
      · exact .inr rfl
      · refine .inl ⟨hr1.mem_iff.mpr (by simp [hd]), ?_⟩
        have hn : (e.base :: rest.map (·.base)).Nodup := by
          have := (hr1.map (·.base)).nodup_iff.mp hc.2.2.2
          simpa using this
        intro hdb
        exact (List.nodup_cons.mp hn).1 (List.mem_map.mpr ⟨d, hd, by rw [hdb, hb]⟩)
    | none =>
      have hst : Storage.wf cfg { st with memory := m } := ⟨hmwf, hc, hmcap⟩
      rcases fillLine_spec hcfg hst (lineBase_lineBase cfg a) hl with
        ⟨e, st', he, hwf, hpk2, hb, hfill, hlines, hcache⟩ | ⟨va, st', he, hwf, hpk2, hj, hcache⟩
      · refine .inl ⟨st', by simp only [he, Access.andThen_ok], hwf, fun c => (hpk2 c).trans (hpk c),
          .inr ⟨lookupFrom_none.mp hl, ?_, by rw [hcache]; rfl, by rw [hcache]; rfl⟩⟩
        intro d hd
        rcases hlines d hd with hd | rfl
        · exact .inl hd
        · exact .inr ⟨hb, hfill.1, fun j hj => by rw [hpk2]; exact hfill.2 j hj⟩
      · exact .inr ⟨va, st', by simp only [he, Access.andThen_exhausted], hwf, hcache,
          .inr ⟨hj, fun c => (hpk2 c).trans (hpk c)⟩⟩
  · refine .inr ⟨a, { st with memory := m }, by simp only [cacheWrite, e1], ⟨hmwf, hc, ?_⟩, rfl, .inl ⟨rfl, hpk⟩⟩
    exact translate_cap (Prod.ext rfl ht) hcap

/-- With no cap on pages no access raises. -/
theorem cacheRead_unbounded {cfg : Config} (hc : cfg.maxPages = none) (st : Storage) (a : Addr) :
    ∃ v st', cacheRead cfg st a = .ok v st' := by
  simp only [cacheRead]
  split
  · exact ⟨_, _, rfl⟩
  · obtain ⟨data, m, e⟩ := lineFill_unbounded cfg.lineSize (lineBase cfg a) st.memory
    exact ⟨_, _, by simp only [fillLine, hc, e]; rfl⟩

theorem cacheWrite_unbounded {cfg : Config} (hc : cfg.maxPages = none) (st : Storage) (a : Addr) (b : Byte) :
    ∃ st', cacheWrite cfg st a b = .ok () st' := by
  obtain ⟨m, e⟩ := memWriteByte_unbounded st.memory a b
  simp only [cacheWrite, hc, e]
  split
  · exact ⟨_, rfl⟩
  · obtain ⟨data, m', e'⟩ := lineFill_unbounded cfg.lineSize (lineBase cfg a) m
    exact ⟨_, by simp only [fillLine, hc, e']; rfl⟩

end Sys2Proof.Machine
end

