-- ==== Sys2Proof/Laws/State.lean ====
section
/-! SUPPORT. The record updates of State: one lemma per field per update, and the register read after each update. -/
namespace Sys2Proof.Machine

@[simp] theorem State.setReg_x (s : State) (r : Reg) (v : Word) : (s.setReg r v).x = s.x.set r v := rfl
@[simp] theorem State.setReg_pc (s : State) (r : Reg) (v : Word) : (s.setReg r v).pc = s.pc := rfl
@[simp] theorem State.setReg_flags (s : State) (r : Reg) (v : Word) : (s.setReg r v).flags = s.flags := rfl
@[simp] theorem State.setReg_run (s : State) (r : Reg) (v : Word) : (s.setReg r v).run = s.run := rfl
@[simp] theorem State.setReg_cause (s : State) (r : Reg) (v : Word) : (s.setReg r v).cause = s.cause := rfl
@[simp] theorem State.setReg_cinfo (s : State) (r : Reg) (v : Word) : (s.setReg r v).cinfo = s.cinfo := rfl
@[simp] theorem State.setReg_storage (s : State) (r : Reg) (v : Word) : (s.setReg r v).storage = s.storage := rfl
@[simp] theorem State.setReg_cin (s : State) (r : Reg) (v : Word) : (s.setReg r v).cin = s.cin := rfl
@[simp] theorem State.setReg_cout (s : State) (r : Reg) (v : Word) : (s.setReg r v).cout = s.cout := rfl
@[simp] theorem State.setReg_config (s : State) (r : Reg) (v : Word) : (s.setReg r v).config = s.config := rfl

@[simp] theorem State.jumpTo_x (s : State) (t : Addr) : (s.jumpTo t).x = s.x := rfl
@[simp] theorem State.jumpTo_pc (s : State) (t : Addr) : (s.jumpTo t).pc = t := rfl
@[simp] theorem State.jumpTo_flags (s : State) (t : Addr) : (s.jumpTo t).flags = s.flags := rfl
@[simp] theorem State.jumpTo_run (s : State) (t : Addr) : (s.jumpTo t).run = s.run := rfl
@[simp] theorem State.jumpTo_cause (s : State) (t : Addr) : (s.jumpTo t).cause = s.cause := rfl
@[simp] theorem State.jumpTo_cinfo (s : State) (t : Addr) : (s.jumpTo t).cinfo = s.cinfo := rfl
@[simp] theorem State.jumpTo_storage (s : State) (t : Addr) : (s.jumpTo t).storage = s.storage := rfl
@[simp] theorem State.jumpTo_cin (s : State) (t : Addr) : (s.jumpTo t).cin = s.cin := rfl
@[simp] theorem State.jumpTo_cout (s : State) (t : Addr) : (s.jumpTo t).cout = s.cout := rfl
@[simp] theorem State.jumpTo_config (s : State) (t : Addr) : (s.jumpTo t).config = s.config := rfl

@[simp] theorem State.advance_x (s : State) : (s.advance).x = s.x := rfl
@[simp] theorem State.advance_pc (s : State) : (s.advance).pc = s.pc + 8 := rfl
@[simp] theorem State.advance_flags (s : State) : (s.advance).flags = s.flags := rfl
@[simp] theorem State.advance_run (s : State) : (s.advance).run = s.run := rfl
@[simp] theorem State.advance_cause (s : State) : (s.advance).cause = s.cause := rfl
@[simp] theorem State.advance_cinfo (s : State) : (s.advance).cinfo = s.cinfo := rfl
@[simp] theorem State.advance_storage (s : State) : (s.advance).storage = s.storage := rfl
@[simp] theorem State.advance_cin (s : State) : (s.advance).cin = s.cin := rfl
@[simp] theorem State.advance_cout (s : State) : (s.advance).cout = s.cout := rfl
@[simp] theorem State.advance_config (s : State) : (s.advance).config = s.config := rfl

@[simp] theorem State.withStorage_x (s : State) (st : Storage) : (s.withStorage st).x = s.x := rfl
@[simp] theorem State.withStorage_pc (s : State) (st : Storage) : (s.withStorage st).pc = s.pc := rfl
@[simp] theorem State.withStorage_flags (s : State) (st : Storage) : (s.withStorage st).flags = s.flags := rfl
@[simp] theorem State.withStorage_run (s : State) (st : Storage) : (s.withStorage st).run = s.run := rfl
@[simp] theorem State.withStorage_cause (s : State) (st : Storage) : (s.withStorage st).cause = s.cause := rfl
@[simp] theorem State.withStorage_cinfo (s : State) (st : Storage) : (s.withStorage st).cinfo = s.cinfo := rfl
@[simp] theorem State.withStorage_storage (s : State) (st : Storage) : (s.withStorage st).storage = st := rfl
@[simp] theorem State.withStorage_cin (s : State) (st : Storage) : (s.withStorage st).cin = s.cin := rfl
@[simp] theorem State.withStorage_cout (s : State) (st : Storage) : (s.withStorage st).cout = s.cout := rfl
@[simp] theorem State.withStorage_config (s : State) (st : Storage) : (s.withStorage st).config = s.config := rfl

@[simp] theorem State.setFlags_x (s : State) (f : Flags) : (s.setFlags f).x = s.x := rfl
@[simp] theorem State.setFlags_pc (s : State) (f : Flags) : (s.setFlags f).pc = s.pc := rfl
@[simp] theorem State.setFlags_flags (s : State) (f : Flags) : (s.setFlags f).flags = f := rfl
@[simp] theorem State.setFlags_run (s : State) (f : Flags) : (s.setFlags f).run = s.run := rfl
@[simp] theorem State.setFlags_cause (s : State) (f : Flags) : (s.setFlags f).cause = s.cause := rfl
@[simp] theorem State.setFlags_cinfo (s : State) (f : Flags) : (s.setFlags f).cinfo = s.cinfo := rfl
@[simp] theorem State.setFlags_storage (s : State) (f : Flags) : (s.setFlags f).storage = s.storage := rfl
@[simp] theorem State.setFlags_cin (s : State) (f : Flags) : (s.setFlags f).cin = s.cin := rfl
@[simp] theorem State.setFlags_cout (s : State) (f : Flags) : (s.setFlags f).cout = s.cout := rfl
@[simp] theorem State.setFlags_config (s : State) (f : Flags) : (s.setFlags f).config = s.config := rfl

@[simp] theorem State.raise_x (s : State) (k : Cause) (i : Word) : (s.raise k i).x = s.x := rfl
@[simp] theorem State.raise_pc (s : State) (k : Cause) (i : Word) : (s.raise k i).pc = s.pc := rfl
@[simp] theorem State.raise_flags (s : State) (k : Cause) (i : Word) : (s.raise k i).flags = s.flags := rfl
@[simp] theorem State.raise_run (s : State) (k : Cause) (i : Word) : (s.raise k i).run = .halted := rfl
@[simp] theorem State.raise_cause (s : State) (k : Cause) (i : Word) : (s.raise k i).cause = k := rfl
@[simp] theorem State.raise_cinfo (s : State) (k : Cause) (i : Word) : (s.raise k i).cinfo = i := rfl
@[simp] theorem State.raise_storage (s : State) (k : Cause) (i : Word) : (s.raise k i).storage = s.storage := rfl
@[simp] theorem State.raise_cin (s : State) (k : Cause) (i : Word) : (s.raise k i).cin = s.cin := rfl
@[simp] theorem State.raise_cout (s : State) (k : Cause) (i : Word) : (s.raise k i).cout = s.cout := rfl
@[simp] theorem State.raise_config (s : State) (k : Cause) (i : Word) : (s.raise k i).config = s.config := rfl

@[simp] theorem State.halt_x (s : State) : (s.halt).x = s.x := rfl
@[simp] theorem State.halt_pc (s : State) : (s.halt).pc = s.pc := rfl
@[simp] theorem State.halt_flags (s : State) : (s.halt).flags = s.flags := rfl
@[simp] theorem State.halt_run (s : State) : (s.halt).run = .halted := rfl
@[simp] theorem State.halt_cause (s : State) : (s.halt).cause = s.cause := rfl
@[simp] theorem State.halt_cinfo (s : State) : (s.halt).cinfo = s.cinfo := rfl
@[simp] theorem State.halt_storage (s : State) : (s.halt).storage = s.storage := rfl
@[simp] theorem State.halt_cin (s : State) : (s.halt).cin = s.cin := rfl
@[simp] theorem State.halt_cout (s : State) : (s.halt).cout = s.cout := rfl
@[simp] theorem State.halt_config (s : State) : (s.halt).config = s.config := rfl

@[simp] theorem State.emit_x (s : State) (v : Word) : (s.emit v).x = s.x := rfl
@[simp] theorem State.emit_pc (s : State) (v : Word) : (s.emit v).pc = s.pc := rfl
@[simp] theorem State.emit_flags (s : State) (v : Word) : (s.emit v).flags = s.flags := rfl
@[simp] theorem State.emit_run (s : State) (v : Word) : (s.emit v).run = s.run := rfl
@[simp] theorem State.emit_cause (s : State) (v : Word) : (s.emit v).cause = s.cause := rfl
@[simp] theorem State.emit_cinfo (s : State) (v : Word) : (s.emit v).cinfo = s.cinfo := rfl
@[simp] theorem State.emit_storage (s : State) (v : Word) : (s.emit v).storage = s.storage := rfl
@[simp] theorem State.emit_cin (s : State) (v : Word) : (s.emit v).cin = s.cin := rfl
@[simp] theorem State.emit_cout (s : State) (v : Word) : (s.emit v).cout = s.cout ++ [v] := rfl
@[simp] theorem State.emit_config (s : State) (v : Word) : (s.emit v).config = s.config := rfl

@[simp] theorem State.reg_setReg_same (s : State) (r : Reg) (v : Word) : (s.setReg r v).reg r = v := by
  simp [State.reg]

theorem State.reg_setReg_other (s : State) (v : Word) {r q : Reg} (h : q ≠ r) : (s.setReg r v).reg q = s.reg q := by
  have h1 : (r : Nat) ≠ q := fun e => h (Fin.ext e.symm)
  simp [State.reg, h1]

/-- A register after a register write: the one written holds the value, the others what they held. -/
theorem State.reg_setReg (s : State) (r q : Reg) (v : Word) : (s.setReg r v).reg q = if q = r then v else s.reg q := by
  by_cases h : q = r
  · subst h; simp
  · simp [h, State.reg_setReg_other s v h]

@[simp] theorem State.reg_jumpTo (s : State) (t : Addr) (r : Reg) : (s.jumpTo t).reg r = s.reg r := rfl
@[simp] theorem State.reg_advance (s : State) (r : Reg) : (s.advance).reg r = s.reg r := rfl
@[simp] theorem State.reg_withStorage (s : State) (st : Storage) (r : Reg) : (s.withStorage st).reg r = s.reg r := rfl
@[simp] theorem State.reg_setFlags (s : State) (f : Flags) (r : Reg) : (s.setFlags f).reg r = s.reg r := rfl
@[simp] theorem State.reg_raise (s : State) (k : Cause) (i : Word) (r : Reg) : (s.raise k i).reg r = s.reg r := rfl
@[simp] theorem State.reg_halt (s : State) (r : Reg) : (s.halt).reg r = s.reg r := rfl
@[simp] theorem State.reg_emit (s : State) (v : Word) (r : Reg) : (s.emit v).reg r = s.reg r := rfl

/-- Two states that agree field by field are equal. -/
theorem State.eq_of_fields {s t : State} (hx : s.x = t.x) (hpc : s.pc = t.pc) (hf : s.flags = t.flags) (hr : s.run = t.run)
    (hc : s.cause = t.cause) (hi : s.cinfo = t.cinfo) (hst : s.storage = t.storage) (hin : s.cin = t.cin)
    (hout : s.cout = t.cout) (hcfg : s.config = t.config) : s = t := by
  cases s; cases t; simp_all

/-- Where the console puts a delivered character. -/
theorem State.deliverChar_cin (s : State) (c : Nat) (h : c ≤ s.config.charMax) : (s.deliverChar c).cin = s.cin ++ [c] := by
  simp [State.deliverChar, h]

end Sys2Proof.Machine
end

