-- ==== Sys2Proof/Laws/Ops.lean ====
section
/-! SUPPORT. What the Processor's shared operations can do, said once: sequences of byte accesses, register fields, loads,
stores, fetch; which bytes a read is sure to see. -/
namespace Sys2Proof.Machine

/-! ## Settled bytes -/

/-- A byte whose every copy agrees: Memory holds `b` at `a`, and so does any line of `a`'s base. Reading `a` then answers
`b`, whatever is evicted or filled meanwhile. -/
def Settled (cfg : Config) (st : Storage) (a : Addr) (b : Byte) : Prop :=
  st.memory.peek a = b ∧ ∀ e ∈ st.cache.lines, e.base = lineBase cfg a → e.byteAt (lineOffset cfg a) = b

/-- The lines of a storage that come from another by reads: lines there were, or lines filled from Memory. -/
def LinesFrom (cfg : Config) (st st' : Storage) : Prop :=
  ∀ d ∈ st'.cache.lines, d ∈ st.cache.lines ∨ FilledFrom cfg st.memory d

theorem FilledFrom.congr {cfg : Config} {m m' : Memory} {e : Line} (h : FilledFrom cfg m e)
    (hp : ∀ b, m'.peek b = m.peek b) : FilledFrom cfg m' e :=
  ⟨h.1, fun j hj => by rw [hp]; exact h.2 j hj⟩

theorem LinesFrom.trans {cfg : Config} {st st' st'' : Storage} (h : LinesFrom cfg st st')
    (h' : LinesFrom cfg st' st'') (hp : ∀ b, st'.memory.peek b = st.memory.peek b) : LinesFrom cfg st st'' := by
  intro d hd
  rcases h' d hd with hd | hd
  · exact h d hd
  · exact .inr (hd.congr fun b => (hp b).symm)

/-- In a coherent storage every byte is settled (20_memory.md R90). -/
theorem Coherent.settled {cfg : Config} (hp : 0 < cfg.lineSize) {st : Storage} (hw : st.wf cfg) (h : Coherent st)
    (a : Addr) : Settled cfg st a (st.memory.peek a) := by
  refine ⟨rfl, fun e he hb => ?_⟩
  have hlen := (hw.2.1.2.2.1 e he).2
  rw [h e he _ (by rw [hlen]; exact lineOffset_lt hp a), hb, lineBase_add_lineOffset]

/-- Lines that come by reads from a coherent storage make a coherent storage. -/
theorem LinesFrom.coherent {cfg : Config} {st st' : Storage} (h : LinesFrom cfg st st') (hc : Coherent st)
    (hp : ∀ b, st'.memory.peek b = st.memory.peek b) : Coherent st' := by
  intro e he j hj
  rw [hp]
  rcases h e he with he | hf
  · exact hc e he j hj
  · exact hf.2 j (hf.1 ▸ hj)

/-- Reads leave a settled byte settled. -/
theorem LinesFrom.settled {cfg : Config} (hp : 0 < cfg.lineSize) {st st' : Storage} (h : LinesFrom cfg st st')
    (hk : ∀ b, st'.memory.peek b = st.memory.peek b) {a : Addr} {b : Byte} (hs : Settled cfg st a b) :
    Settled cfg st' a b := by
  refine ⟨(hk a).trans hs.1, fun e he hb => ?_⟩
  rcases h e he with he | hf
  · exact hs.2 e he hb
  · rw [hf.byteAt_offset hp hb, hs.1]

/-- Reading a settled byte answers it. -/
theorem cacheRead_settled {cfg : Config} (hcfg : legalConfig cfg = true) {st st' : Storage} (h : st.wf cfg) {a : Addr}
    {b v : Byte} (hs : Settled cfg st a b) (hr : cacheRead cfg st a = .ok v st') : v = b := by
  rcases cacheRead_spec hcfg h a with ⟨v', st1, e, -, -, -, hv⟩ | ⟨_, _, e, -⟩
  · rw [e] at hr
    simp only [Access.ok.injEq] at hr
    rw [← hr.1]
    rcases hv with ⟨l, hl, hb, rfl, -⟩ | ⟨-, rfl, -⟩
    · exact hs.2 l hl hb
    · exact hs.1
  · rw [e] at hr; simp at hr

/-- A write settles its byte, and leaves every other byte settled that is not the same byte of storage under another
address. -/
theorem cacheWrite_settled {cfg : Config} (hcfg : legalConfig cfg = true) {st st' : Storage} (h : st.wf cfg) {a : Addr}
    {b : Byte} (hr : cacheWrite cfg st a b = .ok () st') :
    Settled cfg st' a b ∧ ∀ c v, ¬ sameByte c a → Settled cfg st c v → Settled cfg st' c v := by
  have hp := legalConfig_lineSize_pos hcfg
  rcases cacheWrite_spec hcfg h a b with ⟨st1, e, hw, hpk, hl⟩ | ⟨_, _, e, -⟩
  · rw [e] at hr
    simp only [Access.ok.injEq, true_and] at hr
    subst hr
    refine ⟨⟨by rw [hpk, if_pos rfl], fun d hd hb => ?_⟩, fun c v hne hs => ⟨?_, fun d hd hb => ?_⟩⟩
    · rcases hl with ⟨l, hlm, hlb, hlines, -⟩ | ⟨hno, hlines, -⟩
      · rcases hlines d hd with ⟨-, hd⟩ | rfl
        · exact absurd hb hd
        · have := (h.2.1.2.2.1 l hlm).2
          exact byteAt_putByte_same (by rw [this]; exact lineOffset_lt hp a) b
      · rcases hlines d hd with hd | ⟨-, hf⟩
        · exact absurd hb (hno d hd)
        · rw [hf.byteAt_offset hp hb, hpk, if_pos rfl]
    · rw [hpk, if_neg hne, hs.1]
    · rcases hl with ⟨l, hlm, hlb, hlines, -⟩ | ⟨hno, hlines, -⟩
      · rcases hlines d hd with ⟨hd, -⟩ | rfl
        · exact hs.2 d hd hb
        · have hoff : lineOffset cfg c ≠ lineOffset cfg a := by
            intro ho
            have hcb : lineBase cfg c = lineBase cfg a := by rw [← hb, ← hlb]; rfl
            exact hne (by rw [eq_of_lineBase_lineOffset hcb ho])
          rw [byteAt_putByte_other hoff]
          exact hs.2 l hlm hb
      · rcases hlines d hd with hd | ⟨-, hf⟩
        · exact hs.2 d hd hb
        · rw [hf.byteAt_offset hp hb, hpk, if_neg hne, hs.1]
  · rw [e] at hr; simp at hr

/-! ## Sequences of reads -/

theorem cacheRead_count {cfg : Config} (hcfg : legalConfig cfg = true) {st st' : Storage} (h : st.wf cfg) {a : Addr}
    {v : Byte} (hr : cacheRead cfg st a = .ok v st') : st'.cache.accessCount = st.cache.accessCount + 1 := by
  rcases cacheRead_spec hcfg h a with ⟨v', st1, e, -, -, -, hv⟩ | ⟨_, _, e, -⟩
  · rw [e] at hr
    simp only [Access.ok.injEq] at hr
    rw [← hr.2]
    simp only [CacheHierarchy.accessCount]
    rcases hv with ⟨l, -, -, -, -, h1, h2⟩ | ⟨-, -, h1, h2⟩ <;> rw [h1, h2]
    · rw [BitVec.add_assoc, BitVec.add_comm 1, ← BitVec.add_assoc]
    · rw [BitVec.add_assoc]
  · rw [e] at hr; simp at hr

/-- Everything a sequence of `CacheRead`s can do (20_memory.md R101): answer `n` bytes, each counted once, or raise at one
of them; no byte of Memory changes; the lines come by reads. -/
theorem readBytes_spec {cfg : Config} (hcfg : legalConfig cfg = true) (n : Nat) (a : Addr) {st : Storage}
    (h : st.wf cfg) :
    (∃ bs st', readBytes cfg n a st = .ok bs st' ∧ st'.wf cfg ∧ (∀ b, st'.memory.peek b = st.memory.peek b) ∧
        LinesFrom cfg st st' ∧ bs.length = n ∧
        st'.cache.accessCount = st.cache.accessCount + BitVec.ofNat 64 n) ∨
      (∃ va st', readBytes cfg n a st = .exhausted va st' ∧ st'.wf cfg ∧
        (∀ b, st'.memory.peek b = st.memory.peek b) ∧ LinesFrom cfg st st' ∧
        ∃ i < n, (∃ j < cfg.lineSize, va = lineBase cfg (a + BitVec.ofNat 64 i) + BitVec.ofNat 64 j) ∧
          st'.cache.accessCount = st.cache.accessCount + BitVec.ofNat 64 i) := by
  induction n generalizing a st with
  | zero => exact .inl ⟨[], st, rfl, h, fun _ => rfl, fun d hd => .inl hd, rfl, by simp⟩
  | succ n ih =>
    simp only [readBytes]
    rcases cacheRead_spec hcfg h a with ⟨v, st1, e, hw, hpk, hl, -⟩ | ⟨va, st1, e, hw, hpk, hj, hc⟩
    · have hcnt := cacheRead_count hcfg h e
      rw [e]
      simp only [Access.andThen_ok]
      rcases ih (a + 1) hw with ⟨bs, st2, e2, hw2, hpk2, hl2, hlen, hc2⟩ | ⟨va, st2, e2, hw2, hpk2, hl2, i, hi, hva, hc2⟩
      · refine .inl ⟨v :: bs, st2, by rw [e2]; rfl, hw2, fun b => (hpk2 b).trans (hpk b), LinesFrom.trans hl hl2 hpk,
          by simp [hlen], ?_⟩
        rw [hc2, hcnt, add_ofNat_succ]
      · refine .inr ⟨va, st2, by rw [e2]; rfl, hw2, fun b => (hpk2 b).trans (hpk b), LinesFrom.trans hl hl2 hpk,
          i + 1, by omega, ?_, ?_⟩
        · simpa only [add_ofNat_succ] using hva
        · rw [hc2, hcnt, add_ofNat_succ]
    · refine .inr ⟨va, st1, by rw [e]; rfl, hw, hpk, fun d hd => .inl (hc ▸ hd), 0, by omega, by simpa using hj, ?_⟩
      simp [hc]

/-- A sequence of reads of settled bytes answers them. -/
theorem readBytes_settled {cfg : Config} (hcfg : legalConfig cfg = true) {n : Nat} {a : Addr} {st st' : Storage}
    (h : st.wf cfg) {f : Nat → Byte} (hs : ∀ i < n, Settled cfg st (a + BitVec.ofNat 64 i) (f i)) {bs : List Byte}
    (hr : readBytes cfg n a st = .ok bs st') : bs = (List.range n).map f := by
  induction n generalizing a st st' f bs with
  | zero => simp only [readBytes, Access.ok.injEq] at hr; simp [← hr.1]
  | succ n ih =>
    obtain ⟨v, st1, e1, hr⟩ := Access.andThen_eq_ok hr
    obtain ⟨bs', st2, e2, hr⟩ := Access.andThen_eq_ok hr
    simp only [Access.ok.injEq] at hr
    rw [← hr.1]
    clear hr
    have hv := cacheRead_settled hcfg h (by simpa using hs 0 (by omega)) e1
    rcases cacheRead_spec hcfg h a with ⟨v', st1', e, hw, hpk, hl, -⟩ | ⟨_, _, e, -⟩
    · rw [e1] at e
      simp only [Access.ok.injEq] at e
      rw [← e.2] at hw hpk hl
      have := ih hw (a := a + 1) (f := fun i => f (i + 1)) (fun i hi => by
        rw [add_ofNat_succ]
        exact LinesFrom.settled (legalConfig_lineSize_pos hcfg) hl hpk (hs (i + 1) (by omega))) e2
      rw [this, hv, List.range_succ_eq_map, List.map_cons, List.map_map]
      rfl
    · rw [e] at e1; simp at e1

theorem readBytes_unbounded {cfg : Config} (hc : cfg.maxPages = none) (n : Nat) (a : Addr) (st : Storage) :
    ∃ bs st', readBytes cfg n a st = .ok bs st' := by
  induction n generalizing a st with
  | zero => exact ⟨_, _, rfl⟩
  | succ n ih =>
    obtain ⟨v, st1, e⟩ := cacheRead_unbounded hc st a
    obtain ⟨bs, st2, e2⟩ := ih (a + 1) st1
    exact ⟨v :: bs, st2, by simp only [readBytes, e, Access.andThen_ok, e2]⟩

/-- With no cap on pages an 8-byte read completes. -/
theorem memRead_unbounded {cfg : Config} (hc : cfg.maxPages = none) (st : Storage) (a : Addr) :
    ∃ v st', memRead cfg st a = .ok v st' := by
  obtain ⟨bs, st', e⟩ := readBytes_unbounded hc 8 a st
  exact ⟨wordOfBytes bs, st', by simp only [memRead, e, Access.andThen_ok]⟩

/-- Everything `MemRead(a, 8)` can do (20_memory.md R101). -/
theorem memRead_spec {cfg : Config} (hcfg : legalConfig cfg = true) {st : Storage} (h : st.wf cfg) (a : Addr) :
    (∃ v st', memRead cfg st a = .ok v st' ∧ st'.wf cfg ∧ (∀ b, st'.memory.peek b = st.memory.peek b) ∧
        LinesFrom cfg st st' ∧ st'.cache.accessCount = st.cache.accessCount + 8 ∧
        (Coherent st → v = st.memory.peekWord a)) ∨
      (∃ va st', memRead cfg st a = .exhausted va st' ∧ st'.wf cfg ∧
        (∀ b, st'.memory.peek b = st.memory.peek b) ∧ LinesFrom cfg st st') := by
  rcases readBytes_spec hcfg 8 a h with ⟨bs, st', e, hw, hpk, hl, -, hc⟩ | ⟨va, st', e, hw, hpk, hl, -⟩
  · refine .inl ⟨wordOfBytes bs, st', by simp only [memRead, e, Access.andThen_ok], hw, hpk, hl, hc, fun hco => ?_⟩
    rw [readBytes_settled hcfg h (f := fun i => st.memory.peek (a + BitVec.ofNat 64 i))
      (fun i _ => hco.settled (legalConfig_lineSize_pos hcfg) h _) e]
    rfl
  · exact .inr ⟨va, st', by simp only [memRead, e, Access.andThen_exhausted], hw, hpk, hl⟩

/-! ## Sequences of writes -/

theorem cacheWrite_count {cfg : Config} (hcfg : legalConfig cfg = true) {st st' : Storage} (h : st.wf cfg) {a : Addr}
    {b : Byte} (hr : cacheWrite cfg st a b = .ok () st') : st'.cache.accessCount = st.cache.accessCount + 1 := by
  rcases cacheWrite_spec hcfg h a b with ⟨st1, e, -, -, hv⟩ | ⟨_, _, e, -⟩
  · rw [e] at hr
    simp only [Access.ok.injEq, true_and] at hr
    rw [← hr]
    simp only [CacheHierarchy.accessCount]
    rcases hv with ⟨l, -, -, -, h1, h2⟩ | ⟨-, -, h1, h2⟩ <;> rw [h1, h2]
    · rw [BitVec.add_assoc, BitVec.add_comm 1, ← BitVec.add_assoc]
    · rw [BitVec.add_assoc]
  · rw [e] at hr; simp at hr

/-- Different bytes of a short access are different bytes of storage. -/
theorem not_sameByte_add (a : Addr) {i j : Nat} (hi : i < 2 ^ 48) (hj : j < 2 ^ 48) (hne : i ≠ j) :
    ¬ sameByte (a + BitVec.ofNat 64 i) (a + BitVec.ofNat 64 j) := by
  intro h
  have := congrArg BitVec.toNat h
  simp only [BitVec.extractLsb'_toNat, Nat.shiftRight_zero, BitVec.toNat_add, BitVec.toNat_ofNat] at this
  omega

/-- Everything a sequence of `CacheWrite`s can do (20_memory.md R102): all bytes are written, each settled and counted
once, and no other byte of Memory changes; or one of them raises, and the bytes before it stay written (R97). -/
theorem writeBytes_spec {cfg : Config} (hcfg : legalConfig cfg = true) (bs : List Byte) (a : Addr) {st : Storage}
    (hn : bs.length ≤ 2 ^ 48) (h : st.wf cfg) :
    (∃ st', writeBytes cfg bs a st = .ok () st' ∧ st'.wf cfg ∧
        (∀ i < bs.length, Settled cfg st' (a + BitVec.ofNat 64 i) (bs.getD i 0)) ∧
        (∀ c, (∀ i < bs.length, ¬ sameByte c (a + BitVec.ofNat 64 i)) →
          st'.memory.peek c = st.memory.peek c ∧ ∀ v, Settled cfg st c v → Settled cfg st' c v) ∧
        st'.cache.accessCount = st.cache.accessCount + BitVec.ofNat 64 bs.length) ∨
      (∃ va st' i, writeBytes cfg bs a st = .exhausted va st' ∧ st'.wf cfg ∧ i < bs.length ∧
        (∀ k < i, st'.memory.peek (a + BitVec.ofNat 64 k) = bs.getD k 0) ∧
        (∀ c, (∀ k ≤ i, ¬ sameByte c (a + BitVec.ofNat 64 k)) → st'.memory.peek c = st.memory.peek c) ∧
        st'.cache.accessCount = st.cache.accessCount + BitVec.ofNat 64 i ∧
        (va = a + BitVec.ofNat 64 i ∧ st'.memory.peek va = st.memory.peek va ∨
          ∃ j < cfg.lineSize, va = lineBase cfg (a + BitVec.ofNat 64 i) + BitVec.ofNat 64 j)) := by
  induction bs generalizing a st with
  | nil => exact .inl ⟨st, rfl, h, by simp, fun c _ => ⟨rfl, fun _ hs => hs⟩, by simp⟩
  | cons b bs ih =>
    simp only [List.length_cons] at hn
    simp only [writeBytes]
    rcases cacheWrite_spec hcfg h a b with ⟨st1, e, hw, hpk, -⟩ | ⟨va, st1, e, hw, hc, hva⟩
    · have hcnt := cacheWrite_count hcfg h e
      obtain ⟨hset, hkeep⟩ := cacheWrite_settled hcfg h e
      rw [e]
      simp only [Access.andThen_ok]
      have hself : ∀ i < bs.length, ¬ sameByte a (a + 1 + BitVec.ofNat 64 i) := by
        intro i hi
        have := not_sameByte_add a (i := 0) (j := i + 1) (by omega) (by omega) (by omega)
        rw [add_ofNat_succ]
        simpa using this
      rcases ih (a + 1) (by omega) hw with
        ⟨st2, e2, hw2, hs2, hk2, hc2⟩ | ⟨va, st2, i, e2, hw2, hi, hp2, hk2, hc2, hva⟩
      · refine .inl ⟨st2, e2, hw2, ?_, ?_, by rw [hc2, hcnt, add_ofNat_succ]; rfl⟩
        · intro i hi
          cases i with
          | zero => simpa using (hk2 a hself).2 b hset
          | succ i =>
            have := hs2 i (by simpa using hi)
            rw [add_ofNat_succ] at this
            simpa using this
        · intro c hcn
          have h0 : ¬ sameByte c a := by simpa using hcn 0 (by simp)
          have h1 := hk2 c (fun i hi => by rw [add_ofNat_succ]; exact hcn (i + 1) (by simpa using hi))
          refine ⟨h1.1.trans (by rw [hpk, if_neg h0]), fun v hs => h1.2 v (hkeep c v h0 hs)⟩
      · refine .inr ⟨va, st2, i + 1, e2, hw2, by simpa using hi, ?_, ?_, by rw [hc2, hcnt, add_ofNat_succ], ?_⟩
        · intro k hk
          cases k with
          | zero =>
            have : st2.memory.peek a = st1.memory.peek a := hk2 a (fun k hk => hself k (by omega))
            simp only [BitVec.ofNat_eq_ofNat, BitVec.add_zero, List.getD_cons_zero]
            rw [this, hpk, if_pos rfl]
          | succ k =>
            have := hp2 k (by omega)
            rw [add_ofNat_succ] at this
            simpa using this
        · intro c hcn
          have h0 : ¬ sameByte c a := by simpa using hcn 0 (by omega)
          rw [hk2 c (fun k hk => by rw [add_ofNat_succ]; exact hcn (k + 1) (by omega)), hpk, if_neg h0]
        · rcases hva with ⟨rfl, hv⟩ | hj
          · refine .inl ⟨add_ofNat_succ a i, ?_⟩
            have h0 : ¬ sameByte (a + 1 + BitVec.ofNat 64 i) a := fun hh => hself i hi hh.symm
            rw [hv, hpk, if_neg h0]
          · rw [add_ofNat_succ] at hj
            exact .inr hj
    · refine .inr ⟨va, st1, 0, by rw [e]; rfl, hw, by simp, by omega, ?_, by simp [hc], ?_⟩
      · intro c hcn
        have h0 : ¬ sameByte c a := by simpa using hcn 0 (by omega)
        rcases hva with ⟨-, hk⟩ | ⟨-, hk⟩
        · exact hk c
        · rw [hk, if_neg h0]
      · rcases hva with ⟨rfl, hk⟩ | ⟨hj, -⟩
        · exact .inl ⟨by simp, hk _⟩
        · exact .inr (by simpa using hj)

theorem writeBytes_unbounded {cfg : Config} (hc : cfg.maxPages = none) (bs : List Byte) (a : Addr) (st : Storage) :
    ∃ st', writeBytes cfg bs a st = .ok () st' := by
  induction bs generalizing a st with
  | nil => exact ⟨_, rfl⟩
  | cons b bs ih =>
    obtain ⟨st1, e⟩ := cacheWrite_unbounded hc st a b
    obtain ⟨st2, e2⟩ := ih (a + 1) st1
    exact ⟨st2, by simp only [writeBytes, e, Access.andThen_ok, e2]⟩

/-- With no cap on pages an 8-byte write completes. -/
theorem memWrite_unbounded {cfg : Config} (hc : cfg.maxPages = none) (st : Storage) (a : Addr) (v : Word) :
    ∃ st', memWrite cfg st a v = .ok () st' := writeBytes_unbounded hc _ a st

/-! ## Register fields -/

@[simp] theorem Reg.field_toNat (r : Reg) : r.field.toNat = r.val := by
  simp only [Reg.field, BitVec.toNat_ofNat]
  omega

/-- A legal register field names its register. -/
@[simp] theorem withReg_field (r : Reg) (s : State) (k : Reg → Result) : withReg r.field s k = k r := by
  simp [withReg]

/-- A register field above 3 raises (30_encoding.md R130). -/
theorem withReg_illegal {f : RegField} (h : RegField.legal f = false) (s : State) (k : Reg → Result) :
    withReg f s k = .next (s.raise .registerIndexOutOfRange (f.setWidth 64)) := by
  simp only [RegField.legal, decide_eq_false_iff_not] at h
  simp [withReg, h]

/-- A legal field is some register's. -/
theorem exists_reg_of_legal {f : RegField} (h : RegField.legal f = true) : ∃ r : Reg, f = r.field := by
  simp only [RegField.legal, decide_eq_true_eq] at h
  exact ⟨⟨f.toNat, h⟩, BitVec.eq_of_toNat_eq (by simp)⟩

/-- What a use of a register field can do: raise, the state otherwise as it was, or go on. -/
theorem withReg_cases (f : RegField) (s : State) (k : Reg → Result) :
    withReg f s k = .next (s.raise .registerIndexOutOfRange (f.setWidth 64)) ∨ ∃ r, withReg f s k = k r := by
  unfold withReg
  split
  · exact .inr ⟨_, rfl⟩
  · exact .inl rfl

/-! ## Loads, stores, fetch over the state -/

@[simp] theorem State.afterAccess_ok {α : Type} (s : State) (v : α) (st : Storage) (k : α → State → Result) :
    s.afterAccess (.ok v st) k = k v (s.withStorage st) := rfl

@[simp] theorem State.afterAccess_exhausted {α : Type} (s : State) (va : Addr) (st : Storage)
    (k : α → State → Result) : s.afterAccess (.exhausted va st : Access Storage α) k =
      .next ((s.withStorage st).raise .addressTranslationExhausted va) := rfl

end Sys2Proof.Machine
end

