-- ==== Sys2Proof/Laws/PerInstr.lean ====
section
/-! SUPPORT. Statements made for every instruction, one lemma per constructor of Instr. -/

/-- The word of an instruction carries its opcode's number in bits 63:56, the field that alone selects the instruction, and
no two opcodes share a number (spec 30_encoding.md R121, R127). -/
def Sys2Proof.Laws.EncodedOpcode.Statement (i : Sys2Proof.Instr) : Prop :=
  (Sys2Proof.encode i).extractLsb' 56 8 = Sys2Proof.numberOfOpcode i.opcode ∧
    Sys2Proof.opcodeOfNumber ((Sys2Proof.encode i).extractLsb' 56 8) = some i.opcode

theorem Sys2Proof.encodedOpcode_of_operands {i : Sys2Proof.Instr}
    (h : ∀ op, (i.operands op).op = op) : Sys2Proof.Laws.EncodedOpcode.Statement i := by
  have h1 : (Sys2Proof.encode i).extractLsb' 56 8 = Sys2Proof.numberOfOpcode i.opcode :=
    (congrArg Sys2Proof.Fields.op (Sys2Proof.fieldsOfWord_wordOfFields _)).trans (h _)
  exact ⟨h1, by rw [h1]; exact Sys2Proof.opcodeOfNumber_numberOfOpcode i.opcode⟩

theorem Sys2Proof.Laws.EncodedOpcode.add (rd rs1 rs2 : Sys2Proof.RegField) :
    Sys2Proof.Laws.EncodedOpcode.Statement (.add rd rs1 rs2) := Sys2Proof.encodedOpcode_of_operands fun _ => rfl

theorem Sys2Proof.Laws.EncodedOpcode.sub (rd rs1 rs2 : Sys2Proof.RegField) :
    Sys2Proof.Laws.EncodedOpcode.Statement (.sub rd rs1 rs2) := Sys2Proof.encodedOpcode_of_operands fun _ => rfl

theorem Sys2Proof.Laws.EncodedOpcode.mul (rd rs1 rs2 : Sys2Proof.RegField) :
    Sys2Proof.Laws.EncodedOpcode.Statement (.mul rd rs1 rs2) := Sys2Proof.encodedOpcode_of_operands fun _ => rfl

theorem Sys2Proof.Laws.EncodedOpcode.div (rd rs1 rs2 : Sys2Proof.RegField) (unused : Sys2Proof.Payload) :
    Sys2Proof.Laws.EncodedOpcode.Statement (.div rd rs1 rs2 unused) := Sys2Proof.encodedOpcode_of_operands fun _ => rfl

theorem Sys2Proof.Laws.EncodedOpcode.and (rd rs1 rs2 : Sys2Proof.RegField) :
    Sys2Proof.Laws.EncodedOpcode.Statement (.and rd rs1 rs2) := Sys2Proof.encodedOpcode_of_operands fun _ => rfl

theorem Sys2Proof.Laws.EncodedOpcode.or (rd rs1 rs2 : Sys2Proof.RegField) :
    Sys2Proof.Laws.EncodedOpcode.Statement (.or rd rs1 rs2) := Sys2Proof.encodedOpcode_of_operands fun _ => rfl

theorem Sys2Proof.Laws.EncodedOpcode.xor (rd rs1 rs2 : Sys2Proof.RegField) :
    Sys2Proof.Laws.EncodedOpcode.Statement (.xor rd rs1 rs2) := Sys2Proof.encodedOpcode_of_operands fun _ => rfl

theorem Sys2Proof.Laws.EncodedOpcode.not (rd rs1 : Sys2Proof.RegField) :
    Sys2Proof.Laws.EncodedOpcode.Statement (.not rd rs1) := Sys2Proof.encodedOpcode_of_operands fun _ => rfl

theorem Sys2Proof.Laws.EncodedOpcode.movi (rd : Sys2Proof.RegField) (imm : Sys2Proof.Payload) :
    Sys2Proof.Laws.EncodedOpcode.Statement (.movi rd imm) := Sys2Proof.encodedOpcode_of_operands fun _ => rfl

theorem Sys2Proof.Laws.EncodedOpcode.movr (rd rs1 : Sys2Proof.RegField) :
    Sys2Proof.Laws.EncodedOpcode.Statement (.movr rd rs1) := Sys2Proof.encodedOpcode_of_operands fun _ => rfl

theorem Sys2Proof.Laws.EncodedOpcode.movl (rd : Sys2Proof.RegField) (addr : Sys2Proof.Payload) :
    Sys2Proof.Laws.EncodedOpcode.Statement (.movl rd addr) := Sys2Proof.encodedOpcode_of_operands fun _ => rfl

theorem Sys2Proof.Laws.EncodedOpcode.movli (rd : Sys2Proof.RegField) (addr : Sys2Proof.Payload) :
    Sys2Proof.Laws.EncodedOpcode.Statement (.movli rd addr) := Sys2Proof.encodedOpcode_of_operands fun _ => rfl

theorem Sys2Proof.Laws.EncodedOpcode.movs (rs1 : Sys2Proof.RegField) (addr : Sys2Proof.Payload) :
    Sys2Proof.Laws.EncodedOpcode.Statement (.movs rs1 addr) := Sys2Proof.encodedOpcode_of_operands fun _ => rfl

theorem Sys2Proof.Laws.EncodedOpcode.movsi (rs1 : Sys2Proof.RegField) (addr : Sys2Proof.Payload) :
    Sys2Proof.Laws.EncodedOpcode.Statement (.movsi rs1 addr) := Sys2Proof.encodedOpcode_of_operands fun _ => rfl

theorem Sys2Proof.Laws.EncodedOpcode.jmp (addr : Sys2Proof.Payload) :
    Sys2Proof.Laws.EncodedOpcode.Statement (.jmp addr) := Sys2Proof.encodedOpcode_of_operands fun _ => rfl

theorem Sys2Proof.Laws.EncodedOpcode.jmpi (addr : Sys2Proof.Payload) :
    Sys2Proof.Laws.EncodedOpcode.Statement (.jmpi addr) := Sys2Proof.encodedOpcode_of_operands fun _ => rfl

theorem Sys2Proof.Laws.EncodedOpcode.je (addr : Sys2Proof.Payload) :
    Sys2Proof.Laws.EncodedOpcode.Statement (.je addr) := Sys2Proof.encodedOpcode_of_operands fun _ => rfl

theorem Sys2Proof.Laws.EncodedOpcode.jei (addr : Sys2Proof.Payload) :
    Sys2Proof.Laws.EncodedOpcode.Statement (.jei addr) := Sys2Proof.encodedOpcode_of_operands fun _ => rfl

theorem Sys2Proof.Laws.EncodedOpcode.jne (addr : Sys2Proof.Payload) :
    Sys2Proof.Laws.EncodedOpcode.Statement (.jne addr) := Sys2Proof.encodedOpcode_of_operands fun _ => rfl

theorem Sys2Proof.Laws.EncodedOpcode.jnei (addr : Sys2Proof.Payload) :
    Sys2Proof.Laws.EncodedOpcode.Statement (.jnei addr) := Sys2Proof.encodedOpcode_of_operands fun _ => rfl

theorem Sys2Proof.Laws.EncodedOpcode.jge (addr : Sys2Proof.Payload) :
    Sys2Proof.Laws.EncodedOpcode.Statement (.jge addr) := Sys2Proof.encodedOpcode_of_operands fun _ => rfl

theorem Sys2Proof.Laws.EncodedOpcode.jgei (addr : Sys2Proof.Payload) :
    Sys2Proof.Laws.EncodedOpcode.Statement (.jgei addr) := Sys2Proof.encodedOpcode_of_operands fun _ => rfl

theorem Sys2Proof.Laws.EncodedOpcode.jl (addr : Sys2Proof.Payload) :
    Sys2Proof.Laws.EncodedOpcode.Statement (.jl addr) := Sys2Proof.encodedOpcode_of_operands fun _ => rfl

theorem Sys2Proof.Laws.EncodedOpcode.jli (addr : Sys2Proof.Payload) :
    Sys2Proof.Laws.EncodedOpcode.Statement (.jli addr) := Sys2Proof.encodedOpcode_of_operands fun _ => rfl

theorem Sys2Proof.Laws.EncodedOpcode.cmp (rs1 rs2 : Sys2Proof.RegField) :
    Sys2Proof.Laws.EncodedOpcode.Statement (.cmp rs1 rs2) := Sys2Proof.encodedOpcode_of_operands fun _ => rfl

theorem Sys2Proof.Laws.EncodedOpcode.readKeyboard (rd : Sys2Proof.RegField) :
    Sys2Proof.Laws.EncodedOpcode.Statement (.readKeyboard rd) := Sys2Proof.encodedOpcode_of_operands fun _ => rfl

theorem Sys2Proof.Laws.EncodedOpcode.writeScreen (rs1 : Sys2Proof.RegField) :
    Sys2Proof.Laws.EncodedOpcode.Statement (.writeScreen rs1) := Sys2Proof.encodedOpcode_of_operands fun _ => rfl

theorem Sys2Proof.Laws.EncodedOpcode.halt :
    Sys2Proof.Laws.EncodedOpcode.Statement .halt := Sys2Proof.encodedOpcode_of_operands fun _ => rfl
end

