-- ==== Sys2Proof/Laws/Step.lean ====
section
/-! SUPPORT. What a step can do, said once: the cases of `step`; that the memory system changes only by byte accesses; that
byte accesses keep its form. -/
namespace Sys2Proof.Machine

/-! ## Sequences of byte accesses -/

/-- `st'` comes from `st` by byte accesses, the last of which may have raised (20_memory.md R51: no path bypasses the
cache). -/
inductive Accesses (cfg : Config) (st : Storage) : Storage → Prop where
  | refl : Accesses cfg st st
  | read {st1 st2 : Storage} {a : Addr} {v : Byte} :
      Accesses cfg st st1 → cacheRead cfg st1 a = .ok v st2 → Accesses cfg st st2
  | readRaise {st1 st2 : Storage} {a va : Addr} :
      Accesses cfg st st1 → cacheRead cfg st1 a = .exhausted va st2 → Accesses cfg st st2
  | write {st1 st2 : Storage} {a : Addr} {b : Byte} :
      Accesses cfg st st1 → cacheWrite cfg st1 a b = .ok () st2 → Accesses cfg st st2
  | writeRaise {st1 st2 : Storage} {a va : Addr} {b : Byte} :
      Accesses cfg st st1 → cacheWrite cfg st1 a b = .exhausted va st2 → Accesses cfg st st2

theorem Accesses.trans {cfg : Config} {st st1 st2 : Storage} (h : Accesses cfg st st1) (h' : Accesses cfg st1 st2) :
    Accesses cfg st st2 := by
  induction h' with
  | refl => exact h
  | read _ e ih => exact .read ih e
  | readRaise _ e ih => exact .readRaise ih e
  | write _ e ih => exact .write ih e
  | writeRaise _ e ih => exact .writeRaise ih e

/-- Byte accesses keep cache and Memory in their form. -/
theorem Accesses.wf {cfg : Config} (hcfg : legalConfig cfg = true) {st st' : Storage} (h : Accesses cfg st st')
    (hw : st.wf cfg) : st'.wf cfg := by
  induction h with
  | refl => exact hw
  | read _ e ih =>
    rename_i a _ _
    rcases cacheRead_spec hcfg ih a with ⟨_, _, e', hw', -⟩ | ⟨_, _, e', -⟩ <;> rw [e] at e' <;>
      simp only [Access.ok.injEq, reduceCtorEq] at e'
    exact e'.2 ▸ hw'
  | readRaise _ e ih =>
    rename_i a _ _
    rcases cacheRead_spec hcfg ih a with ⟨_, _, e', -⟩ | ⟨_, _, e', hw', -⟩ <;> rw [e] at e' <;>
      simp only [Access.exhausted.injEq, reduceCtorEq] at e'
    exact e'.2 ▸ hw'
  | write _ e ih =>
    rename_i a b _
    rcases cacheWrite_spec hcfg ih a b with ⟨_, e', hw', -⟩ | ⟨_, _, e', -⟩ <;> rw [e] at e' <;>
      simp only [Access.ok.injEq, reduceCtorEq, true_and] at e'
    exact e' ▸ hw'
  | writeRaise _ e ih =>
    rename_i a _ b _
    rcases cacheWrite_spec hcfg ih a b with ⟨_, e', -⟩ | ⟨_, _, e', hw', -⟩ <;> rw [e] at e' <;>
      simp only [Access.exhausted.injEq, reduceCtorEq] at e'
    exact e'.2 ▸ hw'

theorem readBytes_accesses {cfg : Config} (n : Nat) (a : Addr) (st : Storage) :
    (∃ bs st', readBytes cfg n a st = .ok bs st' ∧ Accesses cfg st st') ∨
      ∃ va st', readBytes cfg n a st = .exhausted va st' ∧ Accesses cfg st st' := by
  induction n generalizing a st with
  | zero => exact .inl ⟨_, _, rfl, .refl⟩
  | succ n ih =>
    simp only [readBytes]
    cases e : cacheRead cfg st a with
    | exhausted va st1 => exact .inr ⟨_, _, rfl, .readRaise .refl e⟩
    | ok v st1 =>
      simp only [Access.andThen_ok]
      rcases ih (a + 1) st1 with ⟨bs, st2, e2, h⟩ | ⟨va, st2, e2, h⟩
      · exact .inl ⟨v :: bs, st2, by rw [e2]; rfl, Accesses.trans (.read .refl e) h⟩
      · exact .inr ⟨va, st2, by rw [e2]; rfl, Accesses.trans (.read .refl e) h⟩

/-- An 8-byte read answers or raises, and is a sequence of byte accesses. -/
theorem memRead_accesses (cfg : Config) (st : Storage) (a : Addr) :
    (∃ v st', memRead cfg st a = .ok v st' ∧ Accesses cfg st st') ∨
      ∃ va st', memRead cfg st a = .exhausted va st' ∧ Accesses cfg st st' := by
  rcases readBytes_accesses (cfg := cfg) 8 a st with ⟨bs, st', e, h⟩ | ⟨va, st', e, h⟩
  · exact .inl ⟨wordOfBytes bs, st', by simp only [memRead, e, Access.andThen_ok], h⟩
  · exact .inr ⟨va, st', by simp only [memRead, e, Access.andThen_exhausted], h⟩

/-- A write of bytes answers or raises, and is a sequence of byte accesses. -/
theorem writeBytes_accesses (cfg : Config) (bs : List Byte) (a : Addr) (st : Storage) :
    (∃ st', writeBytes cfg bs a st = .ok () st' ∧ Accesses cfg st st') ∨
      ∃ va st', writeBytes cfg bs a st = .exhausted va st' ∧ Accesses cfg st st' := by
  induction bs generalizing a st with
  | nil => exact .inl ⟨_, rfl, .refl⟩
  | cons b bs ih =>
    simp only [writeBytes]
    cases e : cacheWrite cfg st a b with
    | exhausted va st1 => exact .inr ⟨_, _, rfl, .writeRaise .refl e⟩
    | ok v st1 =>
      simp only [Access.andThen_ok]
      rcases ih (a + 1) st1 with ⟨st2, e2, h⟩ | ⟨va, st2, e2, h⟩
      · exact .inl ⟨st2, e2, Accesses.trans (.write .refl e) h⟩
      · exact .inr ⟨va, st2, e2, Accesses.trans (.write .refl e) h⟩

/-! ## The cases of a step -/

/-- Everything a step under a legal configuration can do (30_encoding.md R131). -/
theorem step_cases {s : State} (h : legalConfig s.config = true) :
    (s.run = .halted ∧ step s = .next s) ∨
      s.run = .running ∧
        ((∃ va st, memRead s.config s.storage s.pc = .exhausted va st ∧
            step s = .next ((s.withStorage st).raise .addressTranslationExhausted va)) ∨
          (∃ w st e, memRead s.config s.storage s.pc = .ok w st ∧ decode w = .error e ∧
            step s = .next ((s.withStorage st).raise .invalidOpcode w)) ∨
          (∃ w st i, memRead s.config s.storage s.pc = .ok w st ∧ decode w = .ok i ∧
            waitsForConsole i s = true ∧ step s = .next s) ∨
          ∃ w st i, memRead s.config s.storage s.pc = .ok w st ∧ decode w = .ok i ∧
            waitsForConsole i s = false ∧ step s = exec i (s.withStorage st)) := by
  unfold step
  rw [if_pos h]
  split
  · rename_i hr; exact .inl ⟨hr, rfl⟩
  · rename_i hr
    refine .inr ⟨hr, ?_⟩
    simp only [State.fetch, State.load]
    cases hm : memRead s.config s.storage s.pc with
    | exhausted va st => exact .inl ⟨va, st, rfl, rfl⟩
    | ok w st =>
      simp only [State.afterAccess_ok]
      cases hd : decode w with
      | error e => exact .inr (.inl ⟨w, st, e, rfl, hd, rfl⟩)
      | ok i =>
        cases hw : waitsForConsole i s with
        | true => exact .inr (.inr (.inl ⟨w, st, i, rfl, hd, hw, by simp [hw]⟩))
        | false => exact .inr (.inr (.inr ⟨w, st, i, rfl, hd, hw, by simp [hw]⟩))

end Sys2Proof.Machine
end

