-- ==== Sys2Proof/Tests/Slice0.lean ====
section
/-! SUPPORT. Tests: ill-formed instructions are refused, words written out from the spec decode to their instructions, single
steps give the values of spec/95_test_vectors.md and of the instruction rules' examples; and, for every statement with
hypotheses, a state that meets them. -/
namespace Sys2Proof.Tests

open Sys2Proof.Machine

/- One proof at a time: many kernel evaluations side by side want more threads than the memory limit allows. -/
set_option Elab.async false

/-! ## Helpers -/

/-- The next state, if there is one. -/
def nextOf (r : Result) : Option State :=
  match r with
  | .next s => some s
  | .fault _ => none
  | .refused _ => none

theorem eq_next {r : Result} (h : (nextOf r).isSome = true) : ∃ t, r = .next t := by
  cases r with
  | next s => exact ⟨s, rfl⟩
  | fault f => simp [nextOf] at h
  | refused f => simp [nextOf] at h

/-- A property of the next state. -/
def next (r : Result) (p : State → Bool) : Bool :=
  match r with
  | .next s => p s
  | .fault _ => false
  | .refused _ => false

theorem eq_next_with {r : Result} {p : State → Bool} (h : next r p = true) : ∃ t, r = .next t ∧ p t = true := by
  cases r with
  | next s => exact ⟨s, rfl, h⟩
  | fault f => simp [next] at h
  | refused f => simp [next] at h

/-- A property of a completed access. -/
def done {σ α : Type} (r : Access σ α) (p : α → σ → Bool) : Bool :=
  match r with
  | .ok v st => p v st
  | .exhausted _ _ => false

theorem eq_ok {σ α : Type} {r : Access σ α} {p : α → σ → Bool} (h : done r p = true) :
    ∃ v st, r = .ok v st ∧ p v st = true := by
  cases r with
  | ok v st => exact ⟨v, st, rfl, h⟩
  | exhausted va st => simp [done] at h

/-- A property of an access that raises. -/
def raised {σ α : Type} (r : Access σ α) (p : Addr → σ → Bool) : Bool :=
  match r with
  | .ok _ _ => false
  | .exhausted va st => p va st

theorem eq_exhausted {σ α : Type} {r : Access σ α} {p : Addr → σ → Bool} (h : raised r p = true) :
    ∃ va st, r = .exhausted va st ∧ p va st = true := by
  cases r with
  | ok v st => simp [raised] at h
  | exhausted va st => exact ⟨va, st, rfl, h⟩

/-- Memory with 8-byte words loaded by the host, lowest byte first. -/
def loaded : List (Addr × Word) → Memory → Memory
  | [], m => m
  | (a, w) :: ws, m =>
    match loadImage none (bytesOfWord w) a m with
    | .ok _ m' => loaded ws m'
    | .exhausted _ m' => loaded ws m'

/-- A reset state with words loaded, the registers and `pc` given. -/
def at' (pc : Addr) (image : List (Addr × Word)) (x : Vector Word 4) : State :=
  { State.reset with
    x := x
    pc := pc
    storage := { State.reset.storage with memory := loaded image State.reset.storage.memory } }

/-- A reset state with registers given. -/
def regs (x : Vector Word 4) : State := { State.reset with x := x }

/-- Two levels of two 64-byte lines (95_test_vectors.md C2). -/
def twoByTwo (policy : VictimPolicy) : Config :=
  { Config.default with levels := [⟨128, 1⟩, ⟨128, 1⟩], victimPolicy := policy }

/-- One level of the given number of 64-byte lines. -/
def oneLevel (lines : Nat) : Config := { Config.default with levels := [⟨64 * lines, 1⟩] }

/-- The default configuration with a cap on pages. -/
def capped (n : Nat) : Config := { Config.default with maxPages := some n }

/-- A state with another configuration. -/
def withConfig (c : Config) (s : State) : State :=
  { s with
    config := c
    storage := { s.storage with cache := { s.storage.cache with levels := c.levels.map fun _ => [] } } }

/-- A sequence of byte reads: the bases of the levels' lines and the counters after each. -/
def trace (cfg : Config) : List Addr → Storage → List (List (List Addr) × Nat × Nat)
  | [], _ => []
  | a :: as, st =>
    match cacheRead cfg st a with
    | .ok _ st' =>
      (st'.cache.levels.map (fun l => l.map (·.base)), st'.cache.hitCount.toNat, st'.cache.missCount.toNat) ::
        trace cfg as st'
    | .exhausted _ _ => []

/-- The storage after a sequence of byte reads. -/
def warm (cfg : Config) : List Addr → Storage → Storage
  | [], st => st
  | a :: as, st =>
    match cacheRead cfg st a with
    | .ok _ st' => warm cfg as st'
    | .exhausted _ st' => warm cfg as st'

/-! ## WellFormed: an ill-formed term for each check -/

theorem test_illformed_rd : (Instr.add 4 0 1).wellFormed = false := by decide
theorem test_illformed_rs1 : (Instr.movs 4 0x1000).wellFormed = false := by decide
theorem test_illformed_rs2 : (Instr.cmp 0 0xFF).wellFormed = false := by decide
theorem test_wellformed : (Instr.div 3 3 3 0xFFFFFFFF).wellFormed = true := by decide

/-! ## Decoding: one word for each constructor, written out from 30_encoding.md R121, R127 -/

theorem test_decode_arithmetic :
    decode 0x1002000100000000 = .ok (.add 2 0 1) ∧ decode 0x1100000100000000 = .ok (.sub 0 0 1) ∧
      decode 0x1203010200000000 = .ok (.mul 3 1 2) ∧ decode 0x1300010200000000 = .ok (.div 0 1 2 0) := by
  decide +kernel

theorem test_decode_logical :
    decode 0x2002000100000000 = .ok (.and 2 0 1) ∧ decode 0x2102000100000000 = .ok (.or 2 0 1) ∧
      decode 0x2202000100000000 = .ok (.xor 2 0 1) ∧ decode 0x2303020000000000 = .ok (.not 3 2) := by
  decide +kernel

theorem test_decode_transfer :
    decode 0x3001000080000000 = .ok (.movi 1 0x80000000) ∧ decode 0x3101000000000000 = .ok (.movr 1 0) ∧
      decode 0x3200000000001000 = .ok (.movl 0 0x1000) ∧ decode 0x3302000000002000 = .ok (.movli 2 0x2000) ∧
      decode 0x3400010000002000 = .ok (.movs 1 0x2000) ∧ decode 0x3500030000002000 = .ok (.movsi 3 0x2000) := by
  decide +kernel

theorem test_decode_jumps :
    decode 0x4000000000000020 = .ok (.jmp 0x20) ∧ decode 0x4100000000003000 = .ok (.jmpi 0x3000) ∧
      decode 0x4200000000000100 = .ok (.je 0x100) ∧ decode 0x4300000000003000 = .ok (.jei 0x3000) ∧
      decode 0x4400000000000100 = .ok (.jne 0x100) ∧ decode 0x4500000000003000 = .ok (.jnei 0x3000) ∧
      decode 0x4600000000000100 = .ok (.jge 0x100) ∧ decode 0x4700000000003000 = .ok (.jgei 0x3000) ∧
      decode 0x4800000000000020 = .ok (.jl 0x20) ∧ decode 0x4900000000003000 = .ok (.jli 0x3000) := by
  decide +kernel

theorem test_decode_others :
    decode 0x5000010200000000 = .ok (.cmp 1 2) ∧ decode 0x6002000000000000 = .ok (.readKeyboard 2) ∧
      decode 0x6100010000000000 = .ok (.writeScreen 1) ∧ decode 0x7000000000000000 = .ok .halt := by
  decide +kernel

/-- 95_test_vectors.md part 2.1: the illegal words. -/
theorem test_decode_illegal :
    List.map decode [0, 0x1400000000000000, 0x3600000000000000, 0x4A00000000000000, 0x5100000000000000,
      0x6200000000000000, 0x7100000000000000, 0xFFFFFFFFFFFFFFFF] = List.replicate 8 (.error .invalidOpcode) := by
  decide +kernel

/-- 95_test_vectors.md E2, E4: the byte images, and the encoder's words. -/
theorem test_bytes :
    decodeBytes [0, 0, 0, 0, 1, 0, 2, 0x10] = .ok (.add 2 0 1) ∧
      decodeBytes [0, 0x20, 0, 0, 0, 1, 0, 0x34] = .ok (.movs 1 0x2000) ∧
      encode (.movi 0 0xFFFFFFFE) = 0x30000000FFFFFFFE ∧ encode (.cmp 1 2) = 0x5000010200000000 := by
  decide +kernel

theorem test_table_word :
    decodeTableWord 64 0x6002000000000000 = some (.readKeyboard 2) ∧ decodeTableWord 64 0 = none := by
  decide +kernel

/-! ## Arithmetic (95_test_vectors.md A2 to A17) -/

theorem test_add_wraps :
    next (exec (.add 0 0 1) (regs #v[0x7FFFFFFFFFFFFFFF, 1, 0, 0])) (fun s => s.x[0] == 0x8000000000000000) ∧
      next (exec (.add 0 0 1) (regs #v[0xFFFFFFFFFFFFFFFF, 1, 0, 0])) (fun s => s.x[0] == 0 && s.pc == 8) := by
  decide +kernel

theorem test_add_same_register : next (exec (.add 0 0 0) (regs #v[21, 0, 0, 0])) (fun s => s.x[0] == 42) := by
  decide +kernel

theorem test_sub_wraps :
    next (exec (.sub 0 0 1) (regs #v[3, 5, 0, 0])) (fun s => s.x[0] == 0xFFFFFFFFFFFFFFFE) ∧
      next (exec (.sub 2 0 1) (regs #v[0x8000000000000000, 1, 0, 0])) (fun s => s.x[2] == 0x7FFFFFFFFFFFFFFF) := by
  decide +kernel

theorem test_mul_low_half :
    next (exec (.mul 3 1 2) (regs #v[0, 0xFFFFFFFFFFFFFFFD, 7, 0])) (fun s => s.x[3] == 0xFFFFFFFFFFFFFFEB) ∧
      next (exec (.mul 0 0 0) (regs #v[0x100000000, 0, 0, 0])) (fun s => s.x[0] == 0) ∧
      next (exec (.mul 0 0 1) (regs #v[0x8000000000000000, 0xFFFFFFFFFFFFFFFF, 0, 0]))
        (fun s => s.x[0] == 0x8000000000000000) := by
  decide +kernel

theorem test_div_truncates :
    next (exec (.div 0 1 2 0) (regs #v[0, 0xFFFFFFFFFFFFFFF9, 2, 0])) (fun s => s.x[0] == 0xFFFFFFFFFFFFFFFD) ∧
      next (exec (.div 0 1 2 0) (regs #v[0, 7, 0xFFFFFFFFFFFFFFFE, 0])) (fun s => s.x[0] == 0xFFFFFFFFFFFFFFFD) ∧
      next (exec (.div 0 1 2 0) (regs #v[0, 0x8000000000000000, 0xFFFFFFFFFFFFFFFF, 0]))
        (fun s => s.x[0] == 0x8000000000000000 && s.run == .running) := by
  decide +kernel

/-- A17 with junk in the payload: the whole fetched word is recorded. -/
theorem test_div_by_zero :
    next (step (at' 0 [(0, 0x1300010200000000)] #v[0x77, 9, 0, 0])) (fun s => s.x[0] == 0x77 && s.run == .halted &&
      s.cause == .divisionByZero && s.cinfo == 0x1300010200000000 && s.pc == 0 &&
      s.storage.cache.hitCount == 7 && s.storage.cache.missCount == 1) ∧
    next (exec (.div 0 1 2 0xABCD) (regs #v[0x77, 9, 0, 0])) (fun s => s.cinfo == 0x130001020000ABCD) := by
  decide +kernel

/-! ## Logic (L1 to L8) -/

theorem test_and_or_xor :
    next (exec (.and 2 0 1) (regs #v[0xF0, 0x3C, 0, 0])) (fun s => s.x[2] == 0x30) ∧
      next (exec (.or 2 0 1) (regs #v[0xF0, 0x3C, 0, 0])) (fun s => s.x[2] == 0xFC) ∧
      next (exec (.xor 2 0 1) (regs #v[0xF0, 0x3C, 0, 0])) (fun s => s.x[2] == 0xCC) := by
  decide +kernel

theorem test_not_bitwise :
    next (exec (.not 3 2) (regs #v[0, 0, 0xFFFFFFFFFFFFFFFE, 0])) (fun s => s.x[3] == 1) ∧
      next (exec (.not 0 0) (regs #v[1, 0, 0, 0])) (fun s => s.x[0] == 0xFFFFFFFFFFFFFFFE) := by
  decide +kernel

/-! ## Data transfer (D1 to D11) -/

theorem test_movi_sign :
    next (exec (.movi 1 0x7FFFFFFF) State.reset) (fun s => s.x[1] == 0x7FFFFFFF) ∧
      next (exec (.movi 1 0x80000000) State.reset) (fun s => s.x[1] == 0xFFFFFFFF80000000) := by
  decide +kernel

theorem test_movr : next (exec (.movr 1 0) (regs #v[15, 99, 0, 0])) (fun s => s.x[1] == 15 && s.x[0] == 15) := by
  decide +kernel

/-- D5, D6. -/
theorem test_movl :
    next (exec (.movl 0 0x1000) (at' 0 [(0x1000, 0x0807060504030201)] #v[0, 0, 0, 0])) (fun s =>
      s.x[0] == 0x0807060504030201 && s.storage.cache.hitCount == 7 && s.storage.cache.missCount == 1) ∧
    next (exec (.movl 0 0x9000) (regs #v[5, 0, 0, 0])) (fun s => s.x[0] == 0 && s.storage.memory.pageCount == 1) := by
  decide +kernel

/-- D8, D10. -/
theorem test_movli :
    next (exec (.movli 2 0x2000) (at' 0 [(0x2000, 0x1000), (0x1000, 0xFFFFFFFFFFFFFFFE)] #v[0, 0, 0, 0])) (fun s =>
      s.x[2] == 0xFFFFFFFFFFFFFFFE && s.storage.cache.hitCount == 14 && s.storage.cache.missCount == 2) ∧
    next (exec (.movli 0 0x3000) (at' 0 [(0x3000, 0x100000008), (0x100000008, 0x2A)] #v[0, 0, 0, 0]))
      (fun s => s.x[0] == 0x2A) := by
  decide +kernel

/-- D7: a store that straddles two lines. -/
theorem test_movs :
    next (exec (.movs 0 0x103C) (regs #v[0x0807060504030201, 0, 0, 0])) (fun s =>
      s.peek 0x103C == 1 && s.peek 0x103F == 4 && s.peek 0x1040 == 5 && s.peek 0x1043 == 8 && s.peek 0x1044 == 0 &&
      s.storage.cache.hitCount == 6 && s.storage.cache.missCount == 2 && s.pc == 8) := by
  decide +kernel

/-- D9, and D11: a pointer that points at itself is read once. -/
theorem test_movsi :
    next (exec (.movsi 3 0x2000) (at' 0 [(0x2000, 0x1000)] #v[0, 0, 0, 1])) (fun s =>
      s.storage.memory.peekWord 0x1000 == 1 && s.storage.memory.peekWord 0x2000 == 0x1000) ∧
    next (exec (.movsi 0 0x4000) (at' 0 [(0x4000, 0x4000)] #v[0x5000, 0, 0, 0])) (fun s =>
      s.storage.memory.peekWord 0x4000 == 0x5000 && s.storage.memory.peekWord 0x5000 == 0) := by
  decide +kernel

/-- P6: a store across a page boundary at the cap; its first four bytes stay. -/
theorem test_store_exhausts :
    next (step (withConfig (capped 2) (at' 8 [(8, 0x3400000000001FFC)] #v[0x11223344, 0, 0, 0]))) (fun s =>
      s.run == .halted && s.cause == .addressTranslationExhausted && s.cinfo == 0x2000 && s.pc == 8 &&
      s.peek 0x1FFC == 0x44 && s.peek 0x1FFF == 0x11 && s.storage.memory.pageCount == 2 &&
      s.storage.cache.hitCount == 10 && s.storage.cache.missCount == 2) := by
  decide +kernel

/-! ## Comparison and jumps (44_compare.md R211; J1 to J17) -/

theorem test_cmp_signed :
    next (exec (.cmp 0 1) (regs #v[0xFFFFFFFFFFFFFFFF, 1, 0, 0])) (fun s => s.flags == ⟨false, false, true⟩) ∧
      next (exec (.cmp 0 1) (regs #v[0x7FFFFFFFFFFFFFFF, 0x8000000000000000, 0, 0]))
        (fun s => s.flags == ⟨false, true, false⟩) ∧
      next (exec (.cmp 0 1) (regs #v[5, 5, 0, 0])) (fun s => s.flags == ⟨true, false, false⟩) := by
  decide +kernel

/-- A state at 0x38 with flags, and the pointer 0x40 at 0x3000. -/
def jumping (f : Flags) : State := { at' 0x38 [(0x3000, 0x100)] #v[0, 0, 0, 0] with flags := f }

theorem test_jumps_equal :
    (next (exec (.jmp 0x23) (jumping ⟨false, false, false⟩)) fun s => s.pc == 0x23) ∧
      (next (exec (.je 0x100) (jumping ⟨true, false, false⟩)) fun s => s.pc == 0x100) ∧
      (next (exec (.je 0x100) (jumping ⟨false, false, true⟩)) fun s => s.pc == 0x40) ∧
      (next (exec (.jne 0x100) (jumping ⟨false, false, true⟩)) fun s => s.pc == 0x100) ∧
      (next (exec (.jne 0x100) (jumping ⟨true, false, false⟩)) fun s => s.pc == 0x40) := by
  decide +kernel

theorem test_jumps_order :
    (next (exec (.jge 0x100) (jumping ⟨true, false, false⟩)) fun s => s.pc == 0x100) ∧
      (next (exec (.jge 0x100) (jumping ⟨false, true, false⟩)) fun s => s.pc == 0x100) ∧
      (next (exec (.jge 0x100) (jumping ⟨false, false, true⟩)) fun s => s.pc == 0x40) ∧
      (next (exec (.jl 0x100) (jumping ⟨false, false, true⟩)) fun s => s.pc == 0x100) ∧
      (next (exec (.jl 0x100) (jumping ⟨true, false, false⟩)) fun s => s.pc == 0x40) := by
  decide +kernel

/-- J15: before any CMP. -/
theorem test_jumps_before_cmp :
    (next (exec (.je 0x100) (jumping ⟨false, false, false⟩)) fun s => s.pc == 0x40) ∧
      (next (exec (.jne 0x100) (jumping ⟨false, false, false⟩)) fun s => s.pc == 0x100) ∧
      (next (exec (.jge 0x100) (jumping ⟨false, false, false⟩)) fun s => s.pc == 0x40) ∧
      (next (exec (.jl 0x100) (jumping ⟨false, false, false⟩)) fun s => s.pc == 0x40) := by
  decide +kernel

theorem test_indirect_jumps_taken :
    (next (exec (.jmpi 0x3000) (jumping ⟨false, false, false⟩)) fun s => s.pc == 0x100) ∧
      (next (exec (.jei 0x3000) (jumping ⟨true, false, false⟩)) fun s => s.pc == 0x100) ∧
      (next (exec (.jnei 0x3000) (jumping ⟨false, true, false⟩)) fun s => s.pc == 0x100) ∧
      (next (exec (.jgei 0x3000) (jumping ⟨false, true, false⟩)) fun s => s.pc == 0x100) ∧
      (next (exec (.jli 0x3000) (jumping ⟨false, false, true⟩)) fun s => s.pc == 0x100) := by
  decide +kernel

/-- J13: no pointer read by an untaken indirect jump. -/
theorem test_indirect_jumps_untaken :
    (next (exec (.jei 0x3000) (jumping ⟨false, true, false⟩)) fun s => s.pc == 0x40 && s.storage.cache.missCount == 0) ∧
      (next (exec (.jnei 0x3000) (jumping ⟨true, false, false⟩))
        fun s => s.pc == 0x40 && s.storage.cache.missCount == 0) ∧
      (next (exec (.jgei 0x3000) (jumping ⟨false, false, true⟩))
        fun s => s.pc == 0x40 && s.storage.cache.missCount == 0) ∧
      (next (exec (.jli 0x3000) (jumping ⟨true, false, false⟩))
        fun s => s.pc == 0x40 && s.storage.cache.missCount == 0) := by
  decide +kernel

/-! ## Console and halt (K1 to K7) -/

theorem test_read_keyboard :
    next (exec (.readKeyboard 0) { State.reset with cin := [0x41, 0x42] })
      (fun s => s.x[0] == 0x41 && s.cin == [0x42] && s.pc == 8) ∧
    next (exec (.readKeyboard 2) { State.reset with cin := [0x1F600] }) (fun s => s.x[2] == 0x1F600) := by
  decide +kernel

/-- K3: nothing happens, the fetch's effects included. -/
theorem test_read_keyboard_waits :
    next (step (at' 0 [(0, 0x6000000000000000)] #v[1, 2, 3, 4]))
      (fun s => decide (s = at' 0 [(0, 0x6000000000000000)] #v[1, 2, 3, 4])) := by
  decide +kernel

theorem test_write_screen :
    next (exec (.writeScreen 1) { regs #v[0, 0xFFFFFFFFFFFFFFFF, 0, 0] with cout := [7] })
      (fun s => s.cout == [7, 0xFFFFFFFFFFFFFFFF] && s.pc == 8) := by
  decide +kernel

theorem test_halt :
    next (exec .halt { State.reset with pc := 0x18 })
      (fun s => s.run == .halted && s.cause == .none && s.cinfo == 0 && s.pc == 0x18) := by
  decide +kernel

/-! ## Conditions (X1 to X7) -/

theorem test_invalid_opcode :
    next (step State.reset) (fun s => s.run == .halted && s.cause == .invalidOpcode && s.cinfo == 0 && s.pc == 0 &&
      s.storage.cache.hitCount == 7 && s.storage.cache.missCount == 1) ∧
    next (step (at' 0 [(0, 0xFF04040500000000)] #v[0, 0, 0, 0]))
      (fun s => s.cause == .invalidOpcode && s.cinfo == 0xFF04040500000000) := by
  decide +kernel

theorem test_register_index :
    next (step (at' 0 [(0, 0x1004050000000000)] #v[0, 0, 0, 0])) (fun s => s.run == .halted &&
      s.cause == .registerIndexOutOfRange && s.cinfo == 4) ∧
    next (step (at' 0 [(0, 0x5009010700000000)] #v[0, 0, 0, 0])) (fun s => s.cinfo == 7) ∧
    next (step (at' 0 [(0, 0x1304010200000000)] #v[0, 0, 0, 0]))
      (fun s => s.cause == .registerIndexOutOfRange && s.cinfo == 4) ∧
    next (step (at' 0 [(0, 0x4009090900000010)] #v[0, 0, 0, 0])) (fun s => s.run == .running && s.pc == 0x10) := by
  decide +kernel

/-- 10_state.md R24, 20_memory.md R56 (decision D30): a fetch at the top of the address space wraps to address 0. The image's
last four bytes lie at 0. -/
theorem test_fetch_wraps :
    next (step (at' 0xFFFFFFFFFFFFFFFC [(0xFFFFFFFFFFFFFFFC, 0x300000000000002A)] #v[0, 0, 0, 0]))
      (fun s => s.x[0] == 0x2A && s.pc == 4 && s.storage.cache.missCount == 2) := by
  decide +kernel

/-! ## Cache (C1 to C4, V3, V4) -/

theorem test_line_identity :
    lineBase Config.default 0x0123456789ABCDEF = 0x0123456789ABCDC0 ∧
      lineOffset Config.default 0x0123456789ABCDEF = 0x2F ∧ lineBase Config.default 0x3F = 0 ∧
      lineBase Config.default 0x40 = 0x40 := by
  decide +kernel

theorem test_lru_source_scenario :
    trace (oneLevel 2) [0, 64, 128, 0, 64] (withConfig (oneLevel 2) State.reset).storage =
      [([[0]], 0, 1), ([[64, 0]], 0, 2), ([[128, 64]], 0, 3), ([[0, 128]], 0, 4), ([[64, 0]], 0, 5)] := by
  decide +kernel

theorem test_lru_property :
    trace (oneLevel 3) [0, 64, 128, 0, 192] (withConfig (oneLevel 3) State.reset).storage =
      [([[0]], 0, 1), ([[64, 0]], 0, 2), ([[128, 64, 0]], 0, 3), ([[0, 128, 64]], 1, 3), ([[192, 0, 128]], 1, 4)] := by
  decide +kernel

theorem test_two_levels_drop :
    trace (twoByTwo .drop) [0, 64, 128, 0, 192] (withConfig (twoByTwo .drop) State.reset).storage =
      [([[0], []], 0, 1), ([[64, 0], []], 0, 2), ([[128, 64], []], 0, 3), ([[0, 128], []], 0, 4),
        ([[192, 0], []], 0, 5)] := by
  decide +kernel

theorem test_two_levels_demote :
    trace (twoByTwo .demote) [0, 64, 128, 0, 192, 256, 64] (withConfig (twoByTwo .demote) State.reset).storage =
      [([[0], []], 0, 1), ([[64, 0], []], 0, 2), ([[128, 64], [0]], 0, 3), ([[128, 64], [0]], 1, 3),
        ([[192, 128], [64, 0]], 1, 4), ([[256, 192], [128, 64]], 1, 5), ([[256, 192], [64, 128]], 2, 5)] := by
  decide +kernel

/-- C4: the alias hazard. -/
theorem test_alias_hazard :
    done ((cacheRead Config.default State.reset.storage 0x0001000000003000).andThen fun v0 st1 =>
      (cacheWrite Config.default st1 0x3000 0x55).andThen fun _ st2 =>
        (cacheRead Config.default st2 0x3000).andThen fun v1 st3 =>
          (cacheRead Config.default st3 0x0001000000003000).andThen fun v2 st4 => .ok (v0, v1, v2) st4)
      (fun v st => v == (0, 0x55, 0) && st.memory.peek 0x0001000000003000 == 0x55 && st.memory.pageCount == 1 &&
        st.cache.hitCount == 2 && st.cache.missCount == 2 &&
        st.cache.levels.map (fun l => l.map (·.base)) == [[0x0001000000003000, 0x3000], [], []]) := by
  decide +kernel

theorem test_hit_percentage :
    CacheHierarchy.hitPercentage ⟨[], 31, 1⟩ = 96875 / 1000 ∧ CacheHierarchy.hitPercentage ⟨[], 198, 2⟩ = 99 ∧
      CacheHierarchy.hitPercentage ⟨[], 0, 0⟩ = 0 := by
  decide +kernel

/-! ## Translation (T8, T9, V10) -/

theorem test_address_split :
    index4 0x0123456789ABCDEF = 138 ∧ index3 0x0123456789ABCDEF = 414 ∧ index2 0x0123456789ABCDEF = 77 ∧
      index1 0x0123456789ABCDEF = 188 ∧ offsetOf 0x0123456789ABCDEF = 0xDEF := by
  decide +kernel

theorem test_lazy_allocation :
    done ((memReadByte (some 2) State.reset.storage.memory 0x5000).andThen fun _ m1 =>
      (memReadByte (some 2) m1 0x5FFF).andThen fun _ m2 => memWriteByte (some 2) m2 0x6000 7)
      (fun _ m => m.pageCount == 2 && raised (memReadByte (some 2) m 0x7000) (fun va _ => va == 0x7000) &&
        done (memReadByte (some 2) m 0x6000) (fun v _ => v == 7) &&
        done (memReadByte (some 2) m 0x5123) (fun v _ => v == 0)) := by
  decide +kernel

theorem test_translate_roundtrip :
    done (cacheWrite Config.default State.reset.storage 0x0123456789ABCDEF 42) (fun _ st =>
      done (cacheRead Config.default st 0x0123456789ABCDEF) (fun v _ => v == 42) &&
        st.memory.peek 0x0000456789ABCDEF == 42) := by
  decide +kernel

/-! ## The host's probe -/

theorem test_withFetchWord :
    next (step (State.reset.withFetchWord 64 0x6002000000000000)) (fun s => s.x[2] == 0 && s.pc == 8) ∧
      next (step (State.reset.withFetchWord 64 0x7000000000000000)) (fun s => s.run == .halted) := by
  decide +kernel

/-! ## Witnesses: for every statement with hypotheses, states and operands that meet them, each clause at a boundary -/

theorem reads {cfg : Config} {st : Storage} {a : Addr} {w : Word}
    (h : done (memRead cfg st a) (fun v _ => v == w) = true) : ∃ st', memRead cfg st a = .ok w st' := by
  obtain ⟨v, st', h1, h2⟩ := eq_ok h
  exact ⟨st', by rw [h1, eq_of_beq h2]⟩

theorem completes {σ : Type} {r : Access σ Unit} (h : done r (fun _ _ => true) = true) : ∃ st, r = .ok () st := by
  obtain ⟨⟨⟩, st, h1, -⟩ := eq_ok h
  exact ⟨st, h1⟩

theorem raises {σ α : Type} {r : Access σ α} {a : Addr} (h : raised r (fun va _ => va == a) = true) :
    ∃ st, r = .exhausted a st := by
  obtain ⟨va, st, h1, h2⟩ := eq_exhausted h
  exact ⟨st, by rw [h1, eq_of_beq h2]⟩

/-- A state whose cache is warm: lines 0, 0x1000 and 0x2000 were read. -/
def warmed (s : State) : State := { s with storage := warm s.config [0, 0x1000, 0x2000] s.storage }

/-- A state at address 0 about to run the word, with a pointer at 0x2000 to a value at 0x1000, its cache warm. -/
def about (w : Word) : State := warmed (at' 0 [(0, w), (0x1000, 0x2A), (0x2000, 0x1000)] #v[1, 2, 3, 4])

/-- The same with a cold cache, pages capped at the three in use. -/
def full (w : Word) : State := withConfig (capped 3) (about w)

theorem witness_ConstructWellFormed :
    legalConfig Config.default = true ∧ legalConfig ⟨[⟨1, -1⟩], 1, .demote, some 0, 0xFFFFFFFFFFFFFFFF, 0⟩ = true := by
  decide +kernel

theorem witness_StepKeepsWellFormed :
    ((about 0x1002000100000000).wf ∧ ∃ t, step (about 0x1002000100000000) = .next t) ∧
      (full 0x3400010000003000).wf ∧ ∃ t, step (full 0x3400010000003000) = .next t :=
  ⟨⟨by decide +kernel, eq_next (by decide +kernel)⟩, by decide +kernel, eq_next (by decide +kernel)⟩

theorem witness_StepAnswersNextOrRefuses :
    legalConfig State.reset.config = true ∧ (State.construct ⟨[], 64, .drop, none, 0, 0⟩).config.levels = [] ∧
      (∃ l ∈ (State.construct (oneLevel 0)).config.levels, l.size / (State.construct (oneLevel 0)).config.lineSize = 0) ∧
      (∀ n, (State.construct ⟨[⟨64, 1⟩], 0, .drop, none, 0, 0⟩).config.lineSize ≠ 2 ^ n) ∧
      ∀ n, (State.construct ⟨[⟨64, 1⟩], 3, .drop, none, 0, 0⟩).config.lineSize ≠ 2 ^ n := by
  refine ⟨by decide +kernel, rfl, by decide +kernel, fun n h => ?_, fun n h => ?_⟩
  · have h0 : (0 : Nat) = 2 ^ n := h
    have := Nat.two_pow_pos n
    omega
  · cases n with
    | zero => simp [State.construct] at h
    | succ n =>
      have h3 : (3 : Nat) = 2 ^ (n + 1) := h
      omega

theorem witness_HaltedIsTerminal :
    ∃ s t, s.run = .halted ∧ Reaches s t ∧ step s = .next t := by
  have h : (nextOf (step { State.reset with run := .halted })).isSome = true := by decide +kernel
  obtain ⟨t, ht⟩ := eq_next h
  exact ⟨{ State.reset with run := .halted }, t, rfl, .tail (.refl _) ht, ht⟩

theorem witness_StepRunsDecodedInstruction :
    ∃ st, legalConfig (about 0x1002000100000000).config = true ∧ (about 0x1002000100000000).run = .running ∧
      memRead (about 0x1002000100000000).config (about 0x1002000100000000).storage (about 0x1002000100000000).pc =
        .ok 0x1002000100000000 st ∧
      decode 0x1002000100000000 = .ok (.add 2 0 1) ∧ waitsForConsole (.add 2 0 1) (about 0x1002000100000000) = false := by
  obtain ⟨st, h⟩ := reads (cfg := (about 0x1002000100000000).config) (st := (about 0x1002000100000000).storage)
    (a := (about 0x1002000100000000).pc) (w := 0x1002000100000000) (by decide +kernel)
  exact ⟨st, by decide +kernel, by decide +kernel, h, by decide +kernel, by decide +kernel⟩

theorem witness_StepRunsInstructionInMemory :
    (about 0x1002000100000000).wf ∧ Coherent (about 0x1002000100000000).storage ∧
      (about 0x1002000100000000).run = .running ∧
      Readable (about 0x1002000100000000).config (about 0x1002000100000000).storage (about 0x1002000100000000).pc ∧
      decode ((about 0x1002000100000000).storage.memory.peekWord (about 0x1002000100000000).pc) = .ok (.add 2 0 1) ∧
      waitsForConsole (.add 2 0 1) (about 0x1002000100000000) = false := by
  refine ⟨by decide +kernel, by unfold Coherent; decide +kernel, by decide +kernel, .inl (by decide +kernel),
    by decide +kernel, by decide +kernel⟩

theorem witness_FetchAndDecodeConditions :
    (∃ st, legalConfig (about 0x6200000000000000).config = true ∧ (about 0x6200000000000000).run = .running ∧
      memRead (about 0x6200000000000000).config (about 0x6200000000000000).storage (about 0x6200000000000000).pc =
        .ok 0x6200000000000000 st ∧
      ((0x6200000000000000 : Word).extractLsb' 56 8).toNat ∉ [0x10, 0x11, 0x12, 0x13, 0x20, 0x21, 0x22, 0x23, 0x30,
        0x31, 0x32, 0x33, 0x34, 0x35, 0x40, 0x41, 0x42, 0x43, 0x44, 0x45, 0x46, 0x47, 0x48, 0x49, 0x50, 0x60, 0x61,
        0x70]) ∧
    ∃ st, legalConfig (State.construct (capped 0)).config = true ∧ (State.construct (capped 0)).run = .running ∧
      memRead (State.construct (capped 0)).config (State.construct (capped 0)).storage (State.construct (capped 0)).pc =
        .exhausted 0 st := by
  obtain ⟨st, h⟩ := reads (cfg := (about 0x6200000000000000).config) (st := (about 0x6200000000000000).storage)
    (a := (about 0x6200000000000000).pc) (w := 0x6200000000000000) (by decide +kernel)
  obtain ⟨st', h'⟩ := raises (r := memRead (State.construct (capped 0)).config (State.construct (capped 0)).storage
    (State.construct (capped 0)).pc) (a := 0) (by decide +kernel)
  exact ⟨⟨st, by decide +kernel, by decide +kernel, h, by decide +kernel⟩, st', by decide +kernel, by decide +kernel, h'⟩

theorem witness_ReadKeyboardTakesFirstOrWaits :
    ({ State.reset with cin := [0x10FFFF, 0] }.cin = 0x10FFFF :: [0] ∧ (0x10FFFF : Nat) < 2 ^ 64) ∧
    State.reset.cin = [] ∧
    ∃ st, legalConfig (about 0x6003000000000000).config = true ∧ (about 0x6003000000000000).run = .running ∧
      memRead (about 0x6003000000000000).config (about 0x6003000000000000).storage (about 0x6003000000000000).pc =
        .ok 0x6003000000000000 st ∧
      decode 0x6003000000000000 = .ok (.readKeyboard (3 : Reg).field) ∧ (about 0x6003000000000000).cin = [] := by
  obtain ⟨st, h⟩ := reads (cfg := (about 0x6003000000000000).config) (st := (about 0x6003000000000000).storage)
    (a := (about 0x6003000000000000).pc) (w := 0x6003000000000000) (by decide +kernel)
  exact ⟨by decide +kernel, rfl, st, by decide +kernel, by decide +kernel, h, by decide +kernel, by decide +kernel⟩

theorem witness_DecodeEncodeRoundTrip :
    (decode 0x30030000FFFFFFFF = .ok (.movi 3 0xFFFFFFFF) ∧
      ((Instr.movi 3 0xFFFFFFFF).opcode.usesRs1 = false → (fieldsOfWord 0x30030000FFFFFFFF).rs1 = 0) ∧
      ((Instr.movi 3 0xFFFFFFFF).opcode.usesRs2 = false → (fieldsOfWord 0x30030000FFFFFFFF).rs2 = 0)) ∧
    decode 0x7000000000000000 = .ok .halt ∧
      (Instr.halt.opcode.usesRd = false → (fieldsOfWord 0x7000000000000000).rd = 0) ∧
      (Instr.halt.opcode.usesRs1 = false → (fieldsOfWord 0x7000000000000000).rs1 = 0) ∧
      (Instr.halt.opcode.usesRs2 = false → (fieldsOfWord 0x7000000000000000).rs2 = 0) ∧
      (Instr.halt.opcode.usesPayload = false → Instr.halt.opcode ≠ .div → (fieldsOfWord 0x7000000000000000).payload = 0) := by
  decide +kernel

theorem witness_UnusedFieldsIgnored :
    (decode 0x4000000000000010 = .ok (.jmp 0x10) ∧
      (fieldsOfWord 0x40FF090900000010).op = (fieldsOfWord 0x4000000000000010).op ∧
      (fieldsOfWord 0x40FF090900000010).payload = (fieldsOfWord 0x4000000000000010).payload ∧
      (Instr.jmp 0x10).opcode ≠ .div) ∧
    decode 0x1300010200000000 = .ok (.div 0 1 2 0) ∧
      (fieldsOfWord 0x13000102FFFFFFFF).op = (fieldsOfWord 0x1300010200000000).op ∧
      (fieldsOfWord 0x13000102FFFFFFFF).rd = (fieldsOfWord 0x1300010200000000).rd ∧
      (fieldsOfWord 0x13000102FFFFFFFF).rs1 = (fieldsOfWord 0x1300010200000000).rs1 ∧
      (fieldsOfWord 0x13000102FFFFFFFF).rs2 = (fieldsOfWord 0x1300010200000000).rs2 ∧
      (Instr.div 0 1 2 0).opcode = .div ∧
      ∃ t, exec (.div 0 1 2 0) (regs #v[0, 9, 2, 0]) = .next t ∧ decide (t.cause ≠ .divisionByZero) = true :=
  ⟨by decide +kernel, by decide +kernel, by decide +kernel, by decide +kernel, by decide +kernel, by decide +kernel,
    by decide +kernel, eq_next_with (by decide +kernel)⟩

theorem witness_RegisterFieldAboveThreeRaises :
    (Instr.add 3 4 255).usedFields.find? (fun f => 4 ≤ f.toNat) = some 4 ∧
      (Instr.cmp 3 255).usedFields.find? (fun f => 4 ≤ f.toNat) = some 255 ∧
      (Instr.readKeyboard 4).usedFields.find? (fun f => 4 ≤ f.toNat) = some 4 := by
  decide +kernel

theorem witness_DivResult :
    ((regs #v[0, 7, 0xFFFFFFFFFFFFFFFE, 0]).x[(2 : Reg)] ≠ 0 ∧
      ¬ ((regs #v[0, 7, 0xFFFFFFFFFFFFFFFE, 0]).x[(1 : Reg)].toInt = -2 ^ 63 ∧
        (regs #v[0, 7, 0xFFFFFFFFFFFFFFFE, 0]).x[(2 : Reg)].toInt = -1)) ∧
    (regs #v[0, 0x8000000000000000, 0xFFFFFFFFFFFFFFFF, 0]).x[(2 : Reg)] ≠ 0 ∧
      (regs #v[0, 0x8000000000000000, 0xFFFFFFFFFFFFFFFF, 0]).x[(1 : Reg)].toInt = -2 ^ 63 ∧
      (regs #v[0, 0x8000000000000000, 0xFFFFFFFFFFFFFFFF, 0]).x[(2 : Reg)].toInt = -1 := by
  decide +kernel

theorem witness_DivByZeroRaises :
    decode 0x13000102FFFFFFFF = .ok (.div (0 : Reg).field (1 : Reg).field (2 : Reg).field 0xFFFFFFFF) ∧
      (regs #v[5, 6, 0, 7]).x[(2 : Reg)] = 0 := by
  decide +kernel

/-! ### Data transfer -/

theorem witness_LoadDirectResult :
    ((about 0).wf ∧ Readable (about 0).config (about 0).storage ((0xFFFFFFFF : Payload).setWidth 64) ∧
      Coherent (about 0).storage) ∧
    (full 0).wf ∧ Readable (full 0).config (full 0).storage ((0x1000 : Payload).setWidth 64) ∧
      Coherent (full 0).storage := by
  obtain ⟨st, h⟩ := reads (cfg := (full 0).config) (st := (full 0).storage) (a := (0x1000 : Payload).setWidth 64)
    (w := 0x2A) (by decide +kernel)
  exact ⟨⟨by decide +kernel, .inl (by decide +kernel), by unfold Coherent; decide +kernel⟩, by decide +kernel,
    .inr ⟨_, st, h⟩, by unfold Coherent; decide +kernel⟩

theorem witness_LoadIndirectResult :
    ((about 0).wf ∧ Readable (about 0).config (about 0).storage ((0x2000 : Payload).setWidth 64) ∧
      (∀ ea st, memRead (about 0).config (about 0).storage ((0x2000 : Payload).setWidth 64) = .ok ea st →
        Readable (about 0).config st ea)) ∧
    (full 0).wf ∧ Readable (full 0).config (full 0).storage ((0x2000 : Payload).setWidth 64) ∧
      ∀ ea st, memRead (full 0).config (full 0).storage ((0x2000 : Payload).setWidth 64) = .ok ea st →
        Readable (full 0).config st ea := by
  obtain ⟨ea, st, h, hp⟩ := eq_ok (r := memRead (full 0).config (full 0).storage ((0x2000 : Payload).setWidth 64))
    (p := fun ea st => done (memRead (full 0).config st ea) (fun v _ => v == 0x2A)) (by decide +kernel)
  obtain ⟨st', h'⟩ := reads hp
  refine ⟨⟨by decide +kernel, .inl (by decide +kernel), fun _ _ _ => .inl (by decide +kernel)⟩, by decide +kernel,
    .inr ⟨_, _, h⟩, fun ea' st'' h'' => ?_⟩
  rw [h] at h''
  cases h''
  exact .inr ⟨_, _, h'⟩

theorem witness_StoreDirectResult :
    ((about 0).wf ∧ Writable (about 0).config (about 0).storage ((0xFFFFFFFF : Payload).setWidth 64)
      (about 0).x[(3 : Reg)]) ∧
    (full 0).wf ∧ Writable (full 0).config (full 0).storage ((0x1FF8 : Payload).setWidth 64) (full 0).x[(3 : Reg)] := by
  obtain ⟨st, h⟩ := completes (r := memWrite (full 0).config (full 0).storage ((0x1FF8 : Payload).setWidth 64)
    (full 0).x[(3 : Reg)]) (by decide +kernel)
  exact ⟨⟨by decide +kernel, .inl (by decide +kernel)⟩, by decide +kernel, .inr ⟨st, h⟩⟩

theorem witness_StoreIndirectResult :
    ((about 0).wf ∧ Readable (about 0).config (about 0).storage ((0x2000 : Payload).setWidth 64) ∧
      (∀ ea st, memRead (about 0).config (about 0).storage ((0x2000 : Payload).setWidth 64) = .ok ea st →
        Writable (about 0).config st ea (about 0).x[(3 : Reg)]) ∧ Coherent (about 0).storage) ∧
    (full 0).wf ∧ Readable (full 0).config (full 0).storage ((0x2000 : Payload).setWidth 64) ∧
      ∀ ea st, memRead (full 0).config (full 0).storage ((0x2000 : Payload).setWidth 64) = .ok ea st →
        Writable (full 0).config st ea (full 0).x[(3 : Reg)] := by
  obtain ⟨ea, st, h, hp⟩ := eq_ok (r := memRead (full 0).config (full 0).storage ((0x2000 : Payload).setWidth 64))
    (p := fun ea st => done (memWrite (full 0).config st ea (full 0).x[(3 : Reg)]) (fun _ _ => true)) (by decide +kernel)
  obtain ⟨st', h'⟩ := completes hp
  refine ⟨⟨by decide +kernel, .inl (by decide +kernel), fun _ _ _ => .inl (by decide +kernel),
    by unfold Coherent; decide +kernel⟩, by decide +kernel, .inr ⟨_, _, h⟩, fun ea' st'' h'' => ?_⟩
  rw [h] at h''
  cases h''
  exact .inr ⟨_, h'⟩

/-- A state at the cap with the pointer 0x2FFC at 0x2000: of the 8 bytes from 0x2FFC on, four have a page. -/
def edge : State := withConfig (capped 3) (warmed (at' 0 [(0, 0), (0x1000, 0x2A), (0x2000, 0x2FFC)] #v[1, 2, 3, 4]))

/-- A read of 0x2FFC at the cap raises at the next page; so does the data read of MOVLI. -/
theorem witness_ReadRaisesExhausted :
    edge.wf ∧ (∃ st, memRead edge.config edge.storage ((0x2FFC : Payload).setWidth 64) = .exhausted 0x3000 st) ∧
      ∃ ea st1 st, memRead edge.config edge.storage ((0x2000 : Payload).setWidth 64) = .ok ea st1 ∧
        memRead edge.config st1 ea = .exhausted 0x3000 st := by
  obtain ⟨ea, st1, h, hp⟩ := eq_ok (r := memRead edge.config edge.storage ((0x2000 : Payload).setWidth 64))
    (p := fun ea st => raised (memRead edge.config st ea) (fun va _ => va == 0x3000)) (by decide +kernel)
  obtain ⟨st, h'⟩ := raises hp
  exact ⟨by decide +kernel, raises (by decide +kernel), ea, st1, st, h, h'⟩

/-- One level of one line of two pages, one page allowed: a byte written at 0x1000 reaches Memory, then the fill of its line
raises at 0. -/
def longLine : State := { State.construct ⟨[⟨8192, 1⟩], 8192, .drop, some 1, 0, 0x10FFFF⟩ with x := #v[0, 0, 0, 0x2A] }

theorem witness_StoreRaiseKeepsEarlierBytes :
    edge.wf ∧
      (∃ st, memWrite edge.config edge.storage ((0x2FFC : Payload).setWidth 64) edge.x[(0 : Reg)] = .exhausted 0x3000 st) ∧
      (∃ st, memWrite edge.config edge.storage ((0x3000 : Payload).setWidth 64) edge.x[(0 : Reg)] = .exhausted 0x3000 st) ∧
      (∃ ea st1 st, memRead edge.config edge.storage ((0x2000 : Payload).setWidth 64) = .ok ea st1 ∧
        memWrite edge.config st1 ea edge.x[(0 : Reg)] = .exhausted 0x3000 st) ∧
      longLine.wf ∧ ∃ st, memWrite longLine.config longLine.storage ((0x1000 : Payload).setWidth 64)
        longLine.x[(3 : Reg)] = .exhausted 0 st := by
  obtain ⟨ea, st1, h, hp⟩ := eq_ok (r := memRead edge.config edge.storage ((0x2000 : Payload).setWidth 64))
    (p := fun ea st => raised (memWrite edge.config st ea edge.x[(0 : Reg)]) (fun va _ => va == 0x3000)) (by decide +kernel)
  obtain ⟨st, h'⟩ := raises hp
  exact ⟨by decide +kernel, raises (by decide +kernel), raises (by decide +kernel), ⟨ea, st1, st, h, h'⟩,
    by decide +kernel, raises (by decide +kernel)⟩

/-! ### Comparison, jumps, console, frames -/

theorem witness_FlagsWrittenByCmpReadByJumps :
    ((Instr.movl 0 0x1000).opcode ≠ .cmp ∧ ∃ t, exec (.movl 0 0x1000) (about 0) = .next t) ∧
      (Instr.cmp 0 1).opcode.isConditional = false ∧ (Instr.cmp 0 1).wellFormed = true ∧
      ∃ t, exec (.cmp 0 1) (about 0) = .next t :=
  ⟨⟨by decide, eq_next (by decide +kernel)⟩, by decide, by decide, eq_next (by decide +kernel)⟩

theorem witness_DirectAndUntakenJumps :
    (jumping ⟨false, false, true⟩).flags.zero = false ∧ (jumping ⟨true, false, false⟩).flags.zero = true ∧
      ((jumping ⟨false, false, true⟩).flags.zero = false ∧ (jumping ⟨false, false, true⟩).flags.greaterThan = false) ∧
      (jumping ⟨true, false, false⟩).flags.lessThan = false :=
  ⟨rfl, rfl, ⟨rfl, rfl⟩, rfl⟩

theorem witness_IndirectJumpsTaken :
    (full 0).wf ∧ Readable (full 0).config (full 0).storage ((0x2000 : Payload).setWidth 64) ∧
      (full 0).flags.zero = false ∧ Coherent (full 0).storage ∧
      ((jumping ⟨true, false, false⟩).wf ∧ (jumping ⟨true, false, false⟩).flags.zero = true) ∧
      ((jumping ⟨false, true, false⟩).wf ∧ (jumping ⟨false, true, false⟩).flags.greaterThan = true) ∧
      ((jumping ⟨false, false, true⟩).wf ∧ (jumping ⟨false, false, true⟩).flags.lessThan = true) ∧
      (jumping ⟨false, false, true⟩).config.maxPages = none := by
  obtain ⟨st, h⟩ := reads (cfg := (full 0).config) (st := (full 0).storage) (a := (0x2000 : Payload).setWidth 64)
    (w := 0x1000) (by decide +kernel)
  exact ⟨by decide +kernel, .inr ⟨_, st, h⟩, by decide +kernel, by unfold Coherent; decide +kernel, by decide +kernel,
    by decide +kernel, by decide +kernel, rfl⟩

theorem witness_ConsoleOnlyByIo :
    (∃ t, exec (.writeScreen 3) (about 0) = .next t) ∧ (Instr.writeScreen 3).opcode ≠ .readKeyboard ∧
      (∃ t, exec (.readKeyboard 0) { about 0 with cin := [0] } = .next t) ∧
      (Instr.readKeyboard 0).opcode ≠ .writeScreen :=
  ⟨eq_next (by decide +kernel), by decide, eq_next (by decide +kernel), by decide⟩

theorem witness_RegisterFrame :
    (∃ t, exec (.add 2 0 1) (about 0) = .next t) ∧ (Instr.add 2 0 1).destination ≠ some (3 : Reg).field ∧
      (∃ t, exec (.movs 3 0x1000) (about 0) = .next t) ∧ (Instr.movs 3 0x1000).destination ≠ some (3 : Reg).field :=
  ⟨eq_next (by decide +kernel), by decide, eq_next (by decide +kernel), by decide⟩

theorem witness_NonStoringKeepsMemory :
    (about 0).wf ∧ (∃ t, exec (.movli 0 0x2000) (about 0) = .next t) ∧ (Instr.movli 0 0x2000).opcode ≠ .movs ∧
      (Instr.movli 0 0x2000).opcode ≠ .movsi :=
  ⟨by decide +kernel, eq_next (by decide +kernel), by decide, by decide⟩

theorem witness_ProgramCounterAdvance :
    (about 0).run = .running ∧
      (∃ t, exec .halt (about 0) = .next t ∧ decide (t.run = .halted) = true) ∧ waitsForConsole .halt (about 0) = false ∧
      (∃ t, exec (.movs 0 0x1000) { about 0 with pc := 0xFFFFFFFFFFFFFFF8 } = .next t ∧ decide (t.run = .running) = true) ∧
      (Instr.movs 0 0x1000).opcode.isJump = false ∧ waitsForConsole (.movs 0 0x1000) (about 0) = false :=
  ⟨by decide +kernel, eq_next_with (by decide +kernel), by decide +kernel, eq_next_with (by decide +kernel), by decide,
    by decide +kernel⟩

theorem witness_HaltsByHaltOrCondition :
    ((about 0x7000000000000000).wf ∧ (about 0x7000000000000000).run = .running ∧
      ∃ t, step (about 0x7000000000000000) = .next t ∧ decide (t.run = .halted ∧ t.cause = .none) = true) ∧
    ((about 0).wf ∧ (about 0).run = .running ∧ ∃ t, step (about 0) = .next t ∧ decide (t.cause = .invalidOpcode) = true) ∧
    (about 0x4000000000000000).wf ∧ (about 0x4000000000000000).run = .running ∧
      ∃ t, step (about 0x4000000000000000) = .next t ∧ decide (t.run = .running) = true :=
  ⟨⟨by decide +kernel, by decide +kernel, eq_next_with (by decide +kernel)⟩,
    ⟨by decide +kernel, by decide +kernel, eq_next_with (by decide +kernel)⟩, by decide +kernel, by decide +kernel,
    eq_next_with (by decide +kernel)⟩

theorem witness_ConditionIsPrecise :
    (full 0x3300000000002FFC).wf ∧ (full 0x3300000000002FFC).run = .running ∧
      ∃ t, step (full 0x3300000000002FFC) = .next t ∧ decide (t.cause ≠ .none) = true :=
  ⟨by decide +kernel, by decide +kernel, eq_next_with (by decide +kernel)⟩

/-! ### Translation and Memory -/

theorem witness_HighAddressBitsIgnored : sameByte 0xFFFF000000003000 0x3000 ∧ sameByte 0x0000FFFFFFFFFFFF 0xFFFFFFFFFFFFFFFF := by
  decide +kernel

theorem witness_MemoryByteWrite :
    (full 0).storage.memory.wf ∧ (Machine.translate (some 3) (full 0).storage.memory 0x3000).1 = none ∧
      (Machine.translate (some 3) (full 0).storage.memory 0xFFFF000000002FFF).1 ≠ none := by
  decide +kernel

theorem witness_MemoryByteRead :
    (about 0).storage.memory.wf ∧
      (lookupPage (about 0).storage.memory.top 0xFFFFFFFFFFFFFFFF = none ∧ ∀ n ∈ some 4, (about 0).storage.memory.pageCount < n) ∧
      (∃ n ∈ some 3, n ≤ (about 0).storage.memory.pageCount) ∧ lookupPage (about 0).storage.memory.top 0x2FFF ≠ none := by
  decide +kernel

theorem witness_PagesNeverMove :
    (∃ t, Reaches (about 0x1002000100000000) t ∧ step (about 0x1002000100000000) = .next t) ∧
      (about 0x1002000100000000).wf ∧ lookupPage (about 0x1002000100000000).storage.memory.top 0x1FFF = some ⟨1⟩ ∧
      lookupPage (about 0x1002000100000000).storage.memory.top 0xFFFF000000001000 = some ⟨1⟩ := by
  obtain ⟨t, ht⟩ := eq_next (r := step (about 0x1002000100000000)) (by decide +kernel)
  exact ⟨⟨t, .tail (.refl _) ht, ht⟩, by decide +kernel, by decide +kernel, by decide +kernel⟩

theorem witness_ImageLoadPlacesBytes :
    (about 0).storage.memory.wf ∧ ([1, 2] : List Byte).length ≤ 2 ^ 48 ∧ 1 < ([1, 2] : List Byte).length ∧
      ∀ i < ([1, 2] : List Byte).length, ¬ sameByte 0x1001 (0xFFFFFFFFFFFFFFFF + BitVec.ofNat 64 i) := by
  decide +kernel

/-! ### Cache -/

theorem read_ok {cfg : Config} {st : Storage} {a : Addr} (h : done (cacheRead cfg st a) (fun _ _ => true) = true) :
    ∃ v st', cacheRead cfg st a = .ok v st' := by
  obtain ⟨v, st', h1, -⟩ := eq_ok h
  exact ⟨v, st', h1⟩

theorem witness_ByteAccessCountsOnce :
    (about 0).wf ∧
      ((∃ v st, cacheRead (about 0).config (about 0).storage 0x1040 = .ok v st) ∧
        (∃ st, cacheWrite (about 0).config (about 0).storage 0x1040 7 = .ok () st) ∧
        NotCached (about 0).config (about 0).storage 0x1040) ∧
      (∃ v st, cacheRead (about 0).config (about 0).storage 0x103F = .ok v st) ∧
        (∃ st, cacheWrite (about 0).config (about 0).storage 0x103F 7 = .ok () st) ∧
        ¬ NotCached (about 0).config (about 0).storage 0x103F :=
  ⟨by decide +kernel, ⟨read_ok (by decide +kernel), completes (by decide +kernel), by decide +kernel⟩,
    read_ok (by decide +kernel), completes (by decide +kernel), by decide +kernel⟩

theorem witness_HitPercentageFormula :
    (⟨[], 0, 0⟩ : CacheHierarchy).hitCount.toNat + (⟨[], 0, 0⟩ : CacheHierarchy).missCount.toNat = 0 ∧
      (⟨[], 31, 1⟩ : CacheHierarchy).hitCount.toNat + (⟨[], 31, 1⟩ : CacheHierarchy).missCount.toNat ≠ 0 := by
  decide

theorem witness_CacheRoundTripAndColdMiss :
    (about 0).wf ∧ (∃ st, cacheWrite (about 0).config (about 0).storage 0x1040 7 = .ok () st) ∧
      NotCached (about 0).config (about 0).storage 0x1040 ∧
      lineBase (about 0).config 0x107F = lineBase (about 0).config 0x1040 ∧
      ∃ v st, cacheRead (about 0).config (about 0).storage 0x1040 = .ok v st :=
  ⟨by decide +kernel, completes (by decide +kernel), by decide +kernel, by decide +kernel, read_ok (by decide +kernel)⟩

theorem first_level {levels : List Level} {p : Level → Bool} (h : (levels.head?.map p).getD false = true) :
    ∃ lvl lower, levels = lvl :: lower ∧ p lvl = true := by
  cases levels with
  | nil => simp at h
  | cons lvl lower => exact ⟨lvl, lower, rfl, h⟩

/-- One level of two lines, both in use. -/
def twoLines : State :=
  let s := withConfig (oneLevel 2) (at' 0 [] #v[0, 0, 0, 0])
  { s with storage := warm s.config [0, 64] s.storage }

theorem witness_LruEviction :
    ∃ lvl lower last, twoLines.wf ∧ twoLines.storage.cache.levels = lvl :: lower ∧ lvl.length = capOf twoLines.config 1 ∧
      lvl.getLast? = some last ∧ NotCached twoLines.config twoLines.storage 128 ∧
      (∃ v st, cacheRead twoLines.config twoLines.storage 128 = .ok v st) ∧
      ∃ st, cacheWrite twoLines.config twoLines.storage 128 7 = .ok () st := by
  obtain ⟨lvl, lower, h, hp⟩ := first_level (levels := twoLines.storage.cache.levels)
    (p := fun lvl => lvl.length == capOf twoLines.config 1 && lvl.getLast?.isSome) (by decide +kernel)
  obtain ⟨hl, hs⟩ := Bool.and_eq_true_iff.mp hp
  obtain ⟨last, hlast⟩ := Option.isSome_iff_exists.mp hs
  exact ⟨lvl, lower, last, by decide +kernel, h, eq_of_beq hl, hlast, by decide +kernel, read_ok (by decide +kernel),
    completes (by decide +kernel)⟩

/-- Two levels of two lines, a line demoted to the second. -/
def demoted : State :=
  let s := withConfig (twoByTwo .demote) (at' 0 [] #v[0, 0, 0, 0])
  { s with storage := warm s.config [0, 64, 128] s.storage }

/-- The same, no line in the cache yet. -/
def cold : State := withConfig (twoByTwo .demote) (at' 0 [] #v[0, 0, 0, 0])

theorem witness_EvictedLinesDroppedOrDemoted :
    (twoLines.wf ∧ NotCached twoLines.config twoLines.storage 128 ∧ twoLines.config.victimPolicy = .drop ∧
      ∃ v st, cacheRead twoLines.config twoLines.storage 128 = .ok v st) ∧
    (demoted.wf ∧ NotCached demoted.config demoted.storage 192 ∧ demoted.config.victimPolicy = .demote ∧
      (∀ i < 1, LevelFull demoted.config demoted.storage.cache.levels i) ∧
      ∃ st, cacheWrite demoted.config demoted.storage 192 7 = .ok () st) ∧
    cold.wf ∧ NotCached cold.config cold.storage 0 ∧ cold.config.victimPolicy = .demote ∧
      ¬ (∀ i < 1, LevelFull cold.config cold.storage.cache.levels i) ∧
      ∃ v st, cacheRead cold.config cold.storage 0 = .ok v st :=
  ⟨⟨by decide +kernel, by decide +kernel, by decide +kernel, read_ok (by decide +kernel)⟩,
    ⟨by decide +kernel, by decide +kernel, by decide +kernel, by decide +kernel, completes (by decide +kernel)⟩,
    by decide +kernel, by decide +kernel, by decide +kernel, by decide +kernel, read_ok (by decide +kernel)⟩

theorem found {r : Option (Nat × Line)} {pos : Nat} (h : (r.map (·.1) == some pos) = true) : ∃ e, r = some (pos, e) := by
  cases r with
  | none => simp at h
  | some x => exact ⟨x.2, by simp at h; rw [← h]⟩

theorem witness_HitStaysInItsLevel :
    demoted.wf ∧ (∃ e, lookupLine (lineBase demoted.config 127) demoted.storage.cache.levels = some (0, e)) ∧
      (∃ e, lookupLine (lineBase demoted.config 0) demoted.storage.cache.levels = some (1, e)) ∧
      ∃ st, cacheWrite demoted.config demoted.storage 0 7 = .ok () st :=
  ⟨by decide +kernel, found (by decide +kernel), found (by decide +kernel), completes (by decide +kernel)⟩

theorem witness_WriteThroughAndAllocate :
    twoLines.wf ∧ (∃ st, cacheWrite twoLines.config twoLines.storage 0xFFFFFFFFFFFFFFFF 7 = .ok () st) ∧
      NotCached twoLines.config twoLines.storage 0xFFFFFFFFFFFFFFFF :=
  ⟨by decide +kernel, completes (by decide +kernel), by decide +kernel⟩

/-- One level of one page-long line, no page allowed. -/
def pageLine : State := State.construct ⟨[⟨4096, 1⟩], 4096, .drop, some 0, 0, 0x10FFFF⟩

theorem witness_ExhaustedByteAddress :
    pageLine.wf ∧ pageLine.config.lineSize ≤ pageSize ∧
      (∃ st, cacheRead pageLine.config pageLine.storage 0x1FFF = .exhausted 0x1000 st) ∧
      (∃ st, cacheWrite pageLine.config pageLine.storage 0x1FFF 7 = .exhausted 0x1FFF st) ∧
      longLine.wf ∧ ∃ st, cacheWrite longLine.config longLine.storage 0x1FFF 7 = .exhausted 0 st :=
  ⟨by decide +kernel, by decide +kernel, raises (by decide +kernel), raises (by decide +kernel), by decide +kernel,
    raises (by decide +kernel)⟩

theorem witness_LowerLevelsEmptyUnderDrop :
    (about 0x1002000100000000).wf ∧ (about 0x1002000100000000).config.victimPolicy = .drop ∧
      (∀ lvl ∈ (about 0x1002000100000000).storage.cache.levels.tail, lvl = []) ∧
      ∃ t, step (about 0x1002000100000000) = .next t :=
  ⟨by decide +kernel, by decide +kernel, by decide +kernel, eq_next (by decide +kernel)⟩

theorem witness_AccessesPerStep :
    ∃ st, (about 0x3302000000002000).wf ∧ (about 0x3302000000002000).run = .running ∧
      memRead (about 0x3302000000002000).config (about 0x3302000000002000).storage (about 0x3302000000002000).pc =
        .ok 0x3302000000002000 st ∧
      decode 0x3302000000002000 = .ok (.movli 2 0x2000) ∧ waitsForConsole (.movli 2 0x2000) (about 0x3302000000002000) = false ∧
      ∃ t, step (about 0x3302000000002000) = .next t ∧ decide (t.cause = .none) = true := by
  obtain ⟨st, h⟩ := reads (cfg := (about 0x3302000000002000).config) (st := (about 0x3302000000002000).storage)
    (a := (about 0x3302000000002000).pc) (w := 0x3302000000002000) (by decide +kernel)
  exact ⟨st, by decide +kernel, by decide +kernel, h, by decide +kernel, by decide +kernel, eq_next_with (by decide +kernel)⟩

/-- A state whose cache holds the line of 0x1000 under an address above 2^48. -/
def aliased : State :=
  let s := at' 0 [(0x1000, 0x2A)] #v[0, 0, 0, 0]
  { s with storage := warm s.config [0x0001000000001000] s.storage }

theorem witness_AliasHazardStaleRead :
    ∃ e st, aliased.wf ∧ sameByte 0x1000 0x0001000000001000 ∧
      lineBase aliased.config 0x1000 ≠ lineBase aliased.config 0x0001000000001000 ∧ e ∈ aliased.storage.cache.lines ∧
      e.base = lineBase aliased.config 0x0001000000001000 ∧
      cacheWrite aliased.config aliased.storage 0x1000 7 = .ok () st ∧ ∃ d ∈ st.cache.lines, d.base = e.base := by
  have he : ∃ e ∈ aliased.storage.cache.lines, e.base = lineBase aliased.config 0x0001000000001000 := by decide +kernel
  obtain ⟨e, hm, hb⟩ := he
  obtain ⟨⟨⟩, st, h, hp⟩ := eq_ok (r := cacheWrite aliased.config aliased.storage 0x1000 7)
    (p := fun _ st => decide (∃ d ∈ st.cache.lines, d.base = lineBase aliased.config 0x0001000000001000)) (by decide +kernel)
  exact ⟨e, st, by decide +kernel, by decide +kernel, by decide +kernel, hm, hb, h, by rw [hb]; exact of_decide_eq_true hp⟩

/-! ### Cache and program -/

theorem witness_StepKeepsCoherence :
    (about 0x3302000000002000).wf ∧ Coherent (about 0x3302000000002000).storage ∧
      AliasFree (about 0x3302000000002000).config (about 0x3302000000002000).storage ∧
      (about 0x3302000000002000).pc.toNat + 8 ≤ 2 ^ 48 ∧
      (∀ i p, decode ((about 0x3302000000002000).storage.memory.peekWord (about 0x3302000000002000).pc) = .ok i →
        i.dataPointer? = some p →
        ((about 0x3302000000002000).storage.memory.peekWord (p.setWidth 64)).toNat + 8 ≤ 2 ^ 48) ∧
      ∃ t, step (about 0x3302000000002000) = .next t := by
  have hd : decode ((about 0x3302000000002000).storage.memory.peekWord (about 0x3302000000002000).pc) =
      .ok (.movli 2 0x2000) := by decide +kernel
  refine ⟨by decide +kernel, by unfold Coherent; decide +kernel, by decide +kernel, by decide +kernel, ?_,
    eq_next (by decide +kernel)⟩
  intro i p h hp
  rw [hd] at h
  cases h
  cases hp
  decide +kernel

/-- A state at 0x1038 whose register 0 holds the word of `ADD R2, R0, R1`. -/
def storing : State := at' 0x1038 [] #v[0x1002000100000000, 2, 3, 4]

theorem witness_StoredValueSeenNext :
    storing.wf ∧ storing.config.maxPages = none ∧
      ∃ t, exec (.movs (0 : Reg).field 0x1040) storing = .next t ∧
        (decide (t.pc = (0x1040 : Payload).setWidth 64) && decide (t.run = .running) &&
          !waitsForConsole (.add 2 0 1) t) = true ∧
        decode storing.x[(0 : Reg)] = .ok (.add 2 0 1) := by
  obtain ⟨t, ht, hp⟩ := eq_next_with (r := exec (.movs (0 : Reg).field 0x1040) storing)
    (p := fun t => decide (t.pc = (0x1040 : Payload).setWidth 64) && decide (t.run = .running) &&
      !waitsForConsole (.add 2 0 1) t) (by decide +kernel)
  exact ⟨by decide +kernel, by decide +kernel, t, ht, hp, by decide +kernel⟩

/-- A warm state and the same state with a cold cache of another shape. -/
theorem witness_ProgramViewIndependentOfCache :
    (about 0x3302000000002000).wf ∧ (withConfig (oneLevel 2) (about 0x3302000000002000)).wf ∧
      Coherent (about 0x3302000000002000).storage ∧
      Coherent (withConfig (oneLevel 2) (about 0x3302000000002000)).storage ∧
      (about 0x3302000000002000).config.maxPages = none ∧
      (withConfig (oneLevel 2) (about 0x3302000000002000)).config.maxPages = none ∧
      SameProgramView (about 0x3302000000002000) (withConfig (oneLevel 2) (about 0x3302000000002000)) ∧
      (∃ t, step (about 0x3302000000002000) = .next t) ∧
      ∃ t, step (withConfig (oneLevel 2) (about 0x3302000000002000)) = .next t :=
  ⟨by decide +kernel, by decide +kernel, by unfold Coherent; decide +kernel, by unfold Coherent; decide +kernel,
    by decide +kernel, by decide +kernel, ⟨rfl, rfl, rfl, rfl, rfl, rfl, rfl, rfl, fun _ => rfl⟩,
    eq_next (by decide +kernel), eq_next (by decide +kernel)⟩

end Sys2Proof.Tests
end

/-! ## What an instruction can do, said once for all 28: the state it ends in is one of a few updates of the state it
starts from, after byte accesses to the memory system. -/

namespace Sys2Proof.Machine

/-! ### The ends of a meaning -/

/-- Every state a meaning ends in satisfies `P`. -/
def Ends (P : State → Prop) (r : Result) : Prop := ∀ t, r = .next t → P t

theorem ends_next {P : State → Prop} {t : State} (h : P t) : Ends P (.next t) := by
  rintro _ ⟨⟩
  exact h

/-- A register field is used: the meaning raises, or goes on with the register the field names. -/
theorem ends_withReg {P : State → Prop} {f : RegField} {s : State} {k : Reg → Result}
    (hraise : P (s.raise .registerIndexOutOfRange (f.setWidth 64)))
    (hk : ∀ r : Reg, f = r.field → Ends P (k r)) : Ends P (withReg f s k) := by
  cases hf : RegField.legal f with
  | false =>
    rw [withReg_illegal hf]
    exact ends_next hraise
  | true =>
    obtain ⟨r, rfl⟩ := exists_reg_of_legal hf
    rw [withReg_field]
    exact hk r rfl

/-- A load is made: the meaning raises, or goes on with the value; the memory system has changed by byte accesses alone. -/
theorem ends_load {P : State → Prop} {s : State} {a : Addr} {k : Word → State → Result}
    (hraise : ∀ va st, Accesses s.config s.storage st → P ((s.withStorage st).raise .addressTranslationExhausted va))
    (hk : ∀ v st, Accesses s.config s.storage st → Ends P (k v (s.withStorage st))) : Ends P (s.load a k) := by
  unfold State.load
  rcases memRead_accesses s.config s.storage a with ⟨v, st, e, h⟩ | ⟨va, st, e, h⟩ <;> rw [e]
  · exact hk v st h
  · exact ends_next (hraise va st h)

/-- A store is made: the meaning raises, or goes on; the memory system has changed by byte accesses alone. -/
theorem ends_store {P : State → Prop} {s : State} {a : Addr} {v : Word} {k : State → Result}
    (hraise : ∀ va st, Accesses s.config s.storage st → P ((s.withStorage st).raise .addressTranslationExhausted va))
    (hk : ∀ st, Accesses s.config s.storage st → Ends P (k (s.withStorage st))) : Ends P (s.store a v k) := by
  unfold State.store memWrite
  rcases writeBytes_accesses s.config (bytesOfWord v) a s.storage with ⟨st, e, h⟩ | ⟨va, st, e, h⟩ <;> rw [e]
  · exact hk st h
  · exact ends_next (hraise va st h)

/-! ### The states an instruction ends in -/

/-- `Executed i s t`: instruction `i` takes `s` to `t` in one of the ways the meanings have (30_encoding.md R131,
60_exceptions.md R240). -/
inductive Executed (i : Instr) (s : State) : State → Prop where
  /-- A condition is taken, the memory effects before it kept. -/
  | raised {st : Storage} {k : Cause} {info : Word} (acc : Accesses s.config s.storage st)
      (kind : k ∈ [.divisionByZero, .registerIndexOutOfRange, .addressTranslationExhausted]) :
      Executed i s ((s.withStorage st).raise k info)
  /-- A value goes to the destination register. -/
  | wrote {st : Storage} {d : Reg} {v : Word} (acc : Accesses s.config s.storage st)
      (dest : i.destination = some d.field) : Executed i s ((s.withStorage st).setReg d v).advance
  /-- A store is complete, or a conditional jump is not taken. -/
  | advanced {st : Storage} (acc : Accesses s.config s.storage st) : Executed i s (s.withStorage st).advance
  /-- A jump is taken. -/
  | jumped {st : Storage} {target : Addr} (acc : Accesses s.config s.storage st) (jump : i.opcode.isJump = true) :
      Executed i s ((s.withStorage st).jumpTo target)
  /-- CMP writes the flags. -/
  | compared {a b : Reg} (cmp : i = .cmp a.field b.field) :
      Executed i s (s.setFlags (compareFlags (s.reg a) (s.reg b))).advance
  /-- READ_KEYBOARD waits. -/
  | waited (wait : waitsForConsole i s = true) : Executed i s s
  /-- READ_KEYBOARD takes the first character. -/
  | readChar {d : Reg} {c : Nat} {rest : List Nat} (read : i = .readKeyboard d.field) (chars : s.cin = c :: rest) :
      Executed i s ({ s with cin := rest }.setReg d (charWord c)).advance
  /-- WRITE_SCREEN emits a register. -/
  | emitted {a : Reg} (write : i = .writeScreen a.field) : Executed i s (s.emit (s.reg a)).advance
  /-- HALT. -/
  | halted (halt : i = .halt) : Executed i s s.halt

section
variable {i : Instr} {s : State}

theorem executed_withReg {f : RegField} {k : Reg → Result}
    (hk : ∀ r : Reg, f = r.field → Ends (Executed i s) (k r)) : Ends (Executed i s) (withReg f s k) :=
  ends_withReg (.raised (st := s.storage) .refl (by simp)) hk

/-- A load from the state that earlier accesses of the instruction have left. -/
theorem executed_load {st : Storage} (acc : Accesses s.config s.storage st) {a : Addr} {k : Word → State → Result}
    (hk : ∀ v st', Accesses s.config s.storage st' → Ends (Executed i s) (k v (s.withStorage st'))) :
    Ends (Executed i s) ((s.withStorage st).load a k) :=
  ends_load (fun _ _ h => .raised (acc.trans h) (by simp)) fun v st' h => hk v st' (acc.trans h)

/-- A store from the state that earlier accesses of the instruction have left. -/
theorem executed_store {st : Storage} (acc : Accesses s.config s.storage st) {a : Addr} {v : Word}
    {k : State → Result} (hk : ∀ st', Accesses s.config s.storage st' → Ends (Executed i s) (k (s.withStorage st'))) :
    Ends (Executed i s) ((s.withStorage st).store a v k) :=
  ends_store (fun _ _ h => .raised (acc.trans h) (by simp)) fun st' h => hk st' (acc.trans h)

/-- The end of an instruction that writes register `d`, the destination its field names. -/
theorem executed_wrote {st : Storage} (acc : Accesses s.config s.storage st) {rd : RegField} {d : Reg}
    (dest : i.destination = some rd) (hd : rd = d.field) (v : Word) :
    Ends (Executed i s) (.next ((s.withStorage st).setReg d v).advance) :=
  ends_next (.wrote acc (hd ▸ dest))

theorem executed_threeRegister {rd rs1 rs2 : RegField} (dest : i.destination = some rd) (f : Word → Word → Word) :
    Ends (Executed i s) (threeRegister f rd rs1 rs2 s) :=
  executed_withReg fun _ hd => executed_withReg fun _ _ => executed_withReg fun _ _ =>
    executed_wrote .refl dest hd _

theorem executed_jumpDirect (jump : i.opcode.isJump = true) (taken : Bool) (addr : Payload) :
    Ends (Executed i s) (jumpDirect taken addr s) := by
  cases taken with
  | false => exact ends_next (.advanced .refl)
  | true => exact ends_next (.jumped .refl jump)

theorem executed_jumpIndirect (jump : i.opcode.isJump = true) (taken : Bool) (addr : Payload) :
    Ends (Executed i s) (jumpIndirect taken addr s) := by
  cases taken with
  | false => exact ends_next (.advanced .refl)
  | true =>
    simp only [jumpIndirect, if_true, withPointer]
    exact executed_load (st := s.storage) .refl fun _ _ acc => ends_next (.jumped acc jump)

end

theorem executed_div (rd rs1 rs2 : RegField) (unused : Payload) (s : State) :
    Ends (Executed (.div rd rs1 rs2 unused) s) (execDiv rd rs1 rs2 unused s) := by
  refine executed_withReg fun d hd => executed_withReg fun a _ => executed_withReg fun b _ => ?_
  split
  · exact ends_next (.raised (st := s.storage) .refl (by simp))
  · exact executed_wrote .refl rfl hd _

theorem executed_readKeyboard (rd : RegField) (s : State) :
    Ends (Executed (.readKeyboard rd) s) (execReadKeyboard rd s) := by
  refine executed_withReg fun d hd => ?_
  subst hd
  split
  · rename_i hc
    exact ends_next (.waited (by simp [waitsForConsole, RegField.legal, hc]))
  · rename_i c rest hc
    exact ends_next (.readChar rfl hc)

/-- Everything an instruction can do. -/
theorem exec_cases (i : Instr) (s : State) : Ends (Executed i s) (exec i s) := by
  cases i with
  | add | sub | mul | and | or | xor => exact executed_threeRegister rfl _
  | div rd rs1 rs2 unused => exact executed_div rd rs1 rs2 unused s
  | not rd rs1 =>
    simp only [exec, execNot]
    exact executed_withReg fun _ hd => executed_withReg fun _ _ => executed_wrote .refl rfl hd _
  | movi rd imm =>
    simp only [exec, execMovi]
    exact executed_withReg fun _ hd => executed_wrote .refl rfl hd _
  | movr rd rs1 =>
    simp only [exec, execMovr]
    exact executed_withReg fun _ hd => executed_withReg fun _ _ => executed_wrote .refl rfl hd _
  | movl rd addr =>
    simp only [exec, execMovl]
    exact executed_withReg fun _ hd => executed_load (st := s.storage) .refl fun v _ acc =>
      executed_wrote acc rfl hd v
  | movli rd addr =>
    simp only [exec, execMovli]
    exact executed_withReg fun _ hd => executed_load (st := s.storage) .refl fun _ _ ptr =>
      executed_load ptr fun v _ acc => executed_wrote acc rfl hd v
  | movs rs1 addr =>
    simp only [exec, execMovs]
    exact executed_withReg fun _ _ => executed_store (st := s.storage) .refl fun _ acc => ends_next (.advanced acc)
  | movsi rs1 addr =>
    simp only [exec, execMovsi]
    exact executed_withReg fun _ _ => executed_load (st := s.storage) .refl fun _ _ ptr =>
      executed_store ptr fun _ acc => ends_next (.advanced acc)
  | jmp addr => exact executed_jumpDirect (i := .jmp addr) rfl true addr
  | jmpi addr => exact executed_jumpIndirect (i := .jmpi addr) rfl true addr
  | je | jne | jge | jl => exact executed_jumpDirect rfl _ _
  | jei | jnei | jgei | jli => exact executed_jumpIndirect rfl _ _
  | cmp rs1 rs2 =>
    simp only [exec, execCmp]
    exact executed_withReg fun _ ha => executed_withReg fun _ hb => ends_next (.compared (by rw [ha, hb]))
  | readKeyboard rd => exact executed_readKeyboard rd s
  | writeScreen rs1 =>
    simp only [exec, execWriteScreen]
    exact executed_withReg fun _ ha => ends_next (.emitted (by rw [ha]))
  | halt => exact ends_next (.halted rfl)

end Sys2Proof.Machine

/-! ## The machine's invariant -/

namespace Sys2Proof.Machine

theorem accesses_of_memRead_ok {cfg : Config} {st st' : Storage} {a : Addr} {v : Word}
    (h : memRead cfg st a = .ok v st') : Accesses cfg st st' := by
  rcases memRead_accesses cfg st a with ⟨_, _, e, acc⟩ | ⟨_, _, e, -⟩ <;> rw [h] at e <;> cases e
  exact acc

theorem accesses_of_memRead_exhausted {cfg : Config} {st st' : Storage} {a va : Addr}
    (h : memRead cfg st a = .exhausted va st') : Accesses cfg st st' := by
  rcases memRead_accesses cfg st a with ⟨_, _, e, -⟩ | ⟨_, _, e, acc⟩ <;> rw [h] at e <;> cases e
  exact acc

/-- The flags of a comparison: exactly one is true (10_state.md R27). -/
theorem compareFlags_oneHot (a b : Word) : (compareFlags a b).oneHot = true := by
  rcases lt_trichotomy a.toInt b.toInt with h | h | h
  · simp [compareFlags, Flags.oneHot, h, h.ne, h.le]
  · simp [compareFlags, Flags.oneHot, h]
  · simp [compareFlags, Flags.oneHot, h, h.ne', h.le]

namespace State

variable {s : State}

theorem wf.legal (h : s.wf) : legalConfig s.config = true := h.1

/-- Cache and Memory of a well-formed state are in their form, the page cap kept. -/
theorem wf.storage (h : s.wf) : s.storage.wf s.config := by
  obtain ⟨-, hmem, hcache, hcap, -⟩ := h
  exact ⟨hmem, hcache, hcap⟩

theorem wf.withStorage (h : s.wf) {st : Storage} (acc : Accesses s.config s.storage st) : (s.withStorage st).wf := by
  obtain ⟨hmem, hcache, hcap⟩ := acc.wf h.legal h.storage
  obtain ⟨hcfg, -, -, -, hrest⟩ := h
  exact ⟨hcfg, hmem, hcache, hcap, hrest⟩

theorem wf.raise (h : s.wf) (k : Cause) (info : Word) : (s.raise k info).wf := by
  obtain ⟨hcfg, hmem, hcache, hcap, hflags, -, hcin⟩ := h
  exact ⟨hcfg, hmem, hcache, hcap, hflags, by simp, hcin⟩

theorem wf.halt (h : s.wf) : s.halt.wf := by
  obtain ⟨hcfg, hmem, hcache, hcap, hflags, -, hcin⟩ := h
  exact ⟨hcfg, hmem, hcache, hcap, hflags, by simp, hcin⟩

theorem wf.setFlags (h : s.wf) {f : Flags} (hf : f.oneHot = true) : (s.setFlags f).wf := by
  obtain ⟨hcfg, hmem, hcache, hcap, -, hrest⟩ := h
  exact ⟨hcfg, hmem, hcache, hcap, .inl hf, hrest⟩

/-- Taking the first character leaves codes that waited before. -/
theorem wf.takeChar (h : s.wf) {c : Nat} {rest : List Nat} (hc : s.cin = c :: rest) :
    State.wf { s with cin := rest } := by
  obtain ⟨hcfg, hmem, hcache, hcap, hflags, hrun, hcin⟩ := h
  exact ⟨hcfg, hmem, hcache, hcap, hflags, hrun, fun d hd => hcin d (hc ▸ List.mem_cons_of_mem c hd)⟩

/-! The invariant does not speak of registers, `pc` and the console's output. -/

theorem wf.setReg (h : s.wf) (d : Reg) (v : Word) : (s.setReg d v).wf := h

theorem wf.advance (h : s.wf) : s.advance.wf := h

theorem wf.jumpTo (h : s.wf) (target : Addr) : (s.jumpTo target).wf := h

theorem wf.emit (h : s.wf) (v : Word) : (s.emit v).wf := h

end State

/-- An instruction keeps the machine well formed. -/
theorem Executed.wf {i : Instr} {s t : State} (h : Executed i s t) (hs : s.wf) : t.wf := by
  cases h with
  | raised acc kind => exact (hs.withStorage acc).raise _ _
  | wrote acc dest => exact ((hs.withStorage acc).setReg _ _).advance
  | advanced acc => exact (hs.withStorage acc).advance
  | jumped acc jump => exact (hs.withStorage acc).jumpTo _
  | compared cmp => exact (hs.setFlags (compareFlags_oneHot _ _)).advance
  | waited wait => exact hs
  | readChar read chars => exact ((hs.takeChar chars).setReg _ _).advance
  | emitted write => exact (hs.emit _).advance
  | halted halt => exact hs.halt

/-- Settles O4: the fetch keeps the invariant by its byte accesses, the instruction by the way it ends. -/
theorem stepKeepsWellFormed : Obligations.StepKeepsWellFormed := by
  unfold Obligations.StepKeepsWellFormed
  intro s t hs hstep
  rcases step_cases hs.legal with ⟨-, e⟩ | ⟨-, hcases⟩
  · rw [e] at hstep
    cases hstep
    exact hs
  · rcases hcases with ⟨va, st, hfetch, e⟩ | ⟨w, st, err, hfetch, -, e⟩ | ⟨w, st, i, -, -, -, e⟩ |
      ⟨w, st, i, hfetch, -, -, e⟩ <;> rw [e] at hstep
    · cases hstep
      exact (hs.withStorage (accesses_of_memRead_exhausted hfetch)).raise _ _
    · cases hstep
      exact (hs.withStorage (accesses_of_memRead_ok hfetch)).raise _ _
    · cases hstep
      exact hs
    · exact (exec_cases i _ t hstep).wf (hs.withStorage (accesses_of_memRead_ok hfetch))

/-! ## Halted is terminal -/

theorem legalConfig_of_step {s t : State} (h : step s = .next t) : legalConfig s.config = true := by
  by_contra hcfg
  simp [step, hcfg] at h

theorem step_of_halted {s : State} (hcfg : legalConfig s.config = true) (hrun : s.run = .halted) :
    step s = .next s := by
  simp only [step, hcfg, if_true, hrun]

/-- Settles O6, by induction on the number of steps. -/
theorem haltedIsTerminal : Obligations.HaltedIsTerminal := by
  unfold Obligations.HaltedIsTerminal
  intro s t hrun hreach
  induction hreach with
  | refl => rfl
  | tail _ hstep ih =>
    subst ih
    rw [step_of_halted (legalConfig_of_step hstep) hrun] at hstep
    cases hstep
    rfl

/-! ## Frames -/

/-- An instruction leaves the configuration as it was, and every register but its destination. -/
theorem Executed.frame {i : Instr} {s t : State} (h : Executed i s t) :
    t.config = s.config ∧ ∀ r : Reg, i.destination ≠ some r.field → t.reg r = s.reg r := by
  have other : ∀ {u : State} {d r : Reg} {v : Word}, i.destination = some d.field →
      i.destination ≠ some r.field → ((u.setReg d v).advance).reg r = u.reg r := by
    intro u d r v hd hr
    exact u.reg_setReg_other v fun e => hr (by rw [hd, e])
  cases h with
  | wrote acc dest => exact ⟨rfl, fun r hr => other dest hr⟩
  | readChar read chars => exact ⟨rfl, fun r hr => other (by rw [read]; rfl) hr⟩
  | raised | advanced | jumped | compared | waited | emitted | halted => exact ⟨rfl, fun _ _ => rfl⟩

/-- Settles O35, from what an instruction can do. -/
theorem registerFrame : Obligations.RegisterFrame := by
  unfold Obligations.RegisterFrame
  intro i s t h
  exact (exec_cases i s t h).frame

/-- Where an instruction of a running core that does not wait leaves `pc` (10_state.md R24). -/
theorem Executed.pc {i : Instr} {s t : State} (h : Executed i s t) (hrun : s.run = .running)
    (hwait : waitsForConsole i s = false) :
    (t.run = .halted → t.pc = s.pc) ∧ (t.run = .running → i.opcode.isJump = false → t.pc = s.pc + 8) := by
  cases h with
  | raised | halted => simp
  | wrote | advanced | compared | readChar | emitted => simp [hrun]
  | jumped acc jump => simp [hrun, jump]
  | waited wait => simp [hwait] at wait

/-- Settles O37, from what an instruction can do. -/
theorem programCounterAdvance : Obligations.ProgramCounterAdvance := by
  unfold Obligations.ProgramCounterAdvance
  intro i s t hrun h hwait
  exact (exec_cases i s t h).pc hrun hwait

theorem Executed.flags {i : Instr} {s t : State} (h : Executed i s t) (hi : i.opcode ≠ .cmp) : t.flags = s.flags := by
  cases h with
  | compared cmp => exact absurd (by rw [cmp]; rfl) hi
  | raised | wrote | advanced | jumped | waited | readChar | emitted | halted => rfl

/-! ## Construction -/

/-- Settles O1, register by register. -/
theorem resetRegistersAndFlagsZero : Obligations.ResetRegistersAndFlagsZero := by
  unfold Obligations.ResetRegistersAndFlagsZero
  intro c
  refine ⟨fun r => ?_, rfl⟩
  fin_cases r <;> rfl

end Sys2Proof.Machine

/-! ## Two runs side by side -/

namespace Sys2Proof.Machine

/-- Where the first meaning ends, so does the second, in a state related by `R`. -/
def Simulates (R : State → State → Prop) (r r' : Result) : Prop := ∀ u, r = .next u → ∃ u', r' = .next u' ∧ R u u'

theorem simulates_next {R : State → State → Prop} {u u' : State} (h : R u u') :
    Simulates R (.next u) (.next u') := by
  rintro _ ⟨⟩
  exact ⟨u', rfl, h⟩

theorem simulates_withReg {R : State → State → Prop} {f : RegField} {s t : State} {k k' : Reg → Result}
    (hraise : R (s.raise .registerIndexOutOfRange (f.setWidth 64)) (t.raise .registerIndexOutOfRange (f.setWidth 64)))
    (hk : ∀ r : Reg, Simulates R (k r) (k' r)) : Simulates R (withReg f s k) (withReg f t k') := by
  cases hf : RegField.legal f with
  | false =>
    rw [withReg_illegal hf, withReg_illegal hf]
    exact simulates_next hraise
  | true =>
    obtain ⟨r, rfl⟩ := exists_reg_of_legal hf
    rw [withReg_field, withReg_field]
    exact hk r

/-! ### Other flags -/

/-- The second state is the first with flags `f`. -/
def FlagsReplaced (f : Flags) (u u' : State) : Prop := u' = u.setFlags f

section
variable {f : Flags} {s : State}

theorem flagsReplaced_withReg {x : RegField} {k k' : Reg → Result}
    (hk : ∀ r : Reg, Simulates (FlagsReplaced f) (k r) (k' r)) :
    Simulates (FlagsReplaced f) (withReg x s k) (withReg x (s.setFlags f) k') :=
  simulates_withReg rfl hk

theorem flagsReplaced_load {a : Addr} {k k' : Word → State → Result}
    (hk : ∀ v s', Simulates (FlagsReplaced f) (k v s') (k' v (s'.setFlags f))) :
    Simulates (FlagsReplaced f) (s.load a k) ((s.setFlags f).load a k') := by
  simp only [State.load, State.setFlags_config, State.setFlags_storage]
  cases memRead s.config s.storage a with
  | ok v st => exact hk v (s.withStorage st)
  | exhausted va st => exact simulates_next rfl

theorem flagsReplaced_store {a : Addr} {v : Word} {k k' : State → Result}
    (hk : ∀ s', Simulates (FlagsReplaced f) (k s') (k' (s'.setFlags f))) :
    Simulates (FlagsReplaced f) (s.store a v k) ((s.setFlags f).store a v k') := by
  simp only [State.store, State.setFlags_config, State.setFlags_storage]
  cases memWrite s.config s.storage a v with
  | ok _ st => exact hk (s.withStorage st)
  | exhausted va st => exact simulates_next rfl

theorem flagsReplaced_threeRegister (g : Word → Word → Word) (rd rs1 rs2 : RegField) :
    Simulates (FlagsReplaced f) (threeRegister g rd rs1 rs2 s) (threeRegister g rd rs1 rs2 (s.setFlags f)) :=
  flagsReplaced_withReg fun _ => flagsReplaced_withReg fun _ => flagsReplaced_withReg fun _ => simulates_next rfl

end

theorem flagsReplaced_div (f : Flags) (rd rs1 rs2 : RegField) (unused : Payload) (s : State) :
    Simulates (FlagsReplaced f) (execDiv rd rs1 rs2 unused s) (execDiv rd rs1 rs2 unused (s.setFlags f)) := by
  refine flagsReplaced_withReg fun d => flagsReplaced_withReg fun a => flagsReplaced_withReg fun b => ?_
  rw [State.reg_setFlags]
  split <;> exact simulates_next rfl

theorem flagsReplaced_readKeyboard (f : Flags) (rd : RegField) (s : State) :
    Simulates (FlagsReplaced f) (execReadKeyboard rd s) (execReadKeyboard rd (s.setFlags f)) := by
  refine flagsReplaced_withReg fun d => ?_
  rw [State.setFlags_cin]
  split <;> exact simulates_next rfl

/-- An instruction that neither reads nor writes the flags does the same whatever they are. -/
theorem exec_flagsReplaced {i : Instr} (hcond : i.opcode.isConditional = false) (hcmp : i.opcode ≠ .cmp) (f : Flags)
    (s : State) : Simulates (FlagsReplaced f) (exec i s) (exec i (s.setFlags f)) := by
  cases i with
  | add | sub | mul | and | or | xor => exact flagsReplaced_threeRegister _ _ _ _
  | div rd rs1 rs2 unused => exact flagsReplaced_div f rd rs1 rs2 unused s
  | not | movr =>
    simp only [exec, execNot, execMovr]
    exact flagsReplaced_withReg fun _ => flagsReplaced_withReg fun _ => simulates_next rfl
  | movi =>
    simp only [exec, execMovi]
    exact flagsReplaced_withReg fun _ => simulates_next rfl
  | movl =>
    simp only [exec, execMovl]
    exact flagsReplaced_withReg fun _ => flagsReplaced_load fun _ _ => simulates_next rfl
  | movli =>
    simp only [exec, execMovli, withPointer]
    exact flagsReplaced_withReg fun _ => flagsReplaced_load fun _ _ => flagsReplaced_load fun _ _ =>
      simulates_next rfl
  | movs =>
    simp only [exec, execMovs]
    exact flagsReplaced_withReg fun _ => flagsReplaced_store fun _ => simulates_next rfl
  | movsi =>
    simp only [exec, execMovsi, withPointer]
    exact flagsReplaced_withReg fun _ => flagsReplaced_load fun _ _ => flagsReplaced_store fun _ => simulates_next rfl
  | jmp => exact simulates_next rfl
  | jmpi =>
    simp only [exec, execJmpi, jumpIndirect, if_true, withPointer]
    exact flagsReplaced_load fun _ _ => simulates_next rfl
  | readKeyboard rd => exact flagsReplaced_readKeyboard f rd s
  | writeScreen =>
    simp only [exec, execWriteScreen]
    exact flagsReplaced_withReg fun _ => simulates_next rfl
  | halt => exact simulates_next rfl
  | je | jei | jne | jnei | jge | jgei | jl | jli => cases hcond
  | cmp => exact absurd rfl hcmp

/-- CMP replaces the flags there were if its fields are legal, and leaves them, as every raise does, if not. -/
theorem execCmp_setFlags (a b : RegField) {s t : State} (f : Flags) (h : execCmp a b s = .next t) :
    execCmp a b (s.setFlags f) = .next (t.setFlags (if (Instr.cmp a b).wellFormed = true then t.flags else f)) := by
  have hwf : (Instr.cmp a b).wellFormed = (a.legal && b.legal) := by simp [Instr.wellFormed, Instr.usedFields]
  unfold execCmp at h ⊢
  cases ha : a.legal with
  | false =>
    rw [withReg_illegal ha] at h ⊢
    cases h
    rw [hwf, ha]
    rfl
  | true =>
    obtain ⟨ra, rfl⟩ := exists_reg_of_legal ha
    rw [withReg_field] at h ⊢
    cases hb : b.legal with
    | false =>
      rw [withReg_illegal hb] at h ⊢
      cases h
      rw [hwf, hb, Bool.and_false]
      rfl
    | true =>
      obtain ⟨rb, rfl⟩ := exists_reg_of_legal hb
      rw [withReg_field] at h ⊢
      cases h
      rw [hwf, ha, hb]
      rfl

/-- Settles O28: by what an instruction can do, and by running it beside itself with other flags. -/
theorem flagsWrittenByCmpReadByJumps : Obligations.FlagsWrittenByCmpReadByJumps := by
  unfold Obligations.FlagsWrittenByCmpReadByJumps
  refine ⟨fun i s t h => (exec_cases i s t h).flags, fun i s t f hcond h => ?_⟩
  by_cases hcmp : i.opcode = .cmp
  · obtain ⟨a, b, rfl⟩ : ∃ a b, i = .cmp a b := by cases i <;> cases hcmp; exact ⟨_, _, rfl⟩
    simp only [hcmp, true_and]
    exact execCmp_setFlags a b f h
  · obtain ⟨u, hu, rfl⟩ := exec_flagsReplaced hcond hcmp f s t h
    simp only [hcmp, false_and, if_false]
    exact hu

end Sys2Proof.Machine

/-! ## The program's view -/

namespace Sys2Proof.Machine

/-! ### Accesses of a state whose cache agrees with Memory -/

/-- Memory does not tell apart two addresses of one byte of storage (20_memory.md R74). -/
theorem Memory.peek_sameByte (m : Memory) {a b : Addr} (h : sameByte a b) : m.peek a = m.peek b := by
  obtain ⟨⟨h4, h3, h2, h1⟩, hoff⟩ := (sameByte_iff a b).mp h
  simp only [Memory.peek, lookupPage_eq, level1For, h4, h3, h2, h1, hoff]

/-- The cache shows the program nothing but Memory: cache and Memory are in their form and agree, and no access raises. -/
structure Transparent (s : State) : Prop where
  legal : legalConfig s.config = true
  form : s.storage.wf s.config
  coherent : Coherent s.storage
  unbounded : s.config.maxPages = none

/-- A read from a transparent state answers Memory's value and leaves a transparent state with the same bytes. -/
theorem Transparent.memRead {s : State} (h : Transparent s) (a : Addr) :
    ∃ st, memRead s.config s.storage a = .ok (s.storage.memory.peekWord a) st ∧ Transparent (s.withStorage st) ∧
      ∀ b, st.memory.peek b = s.peek b := by
  obtain ⟨v, st, hread⟩ := memRead_unbounded h.unbounded s.storage a
  rcases memRead_spec h.legal h.form a with ⟨_, _, e, hform, hpeek, hlines, -, hv⟩ | ⟨_, _, e, -⟩ <;> rw [hread] at e <;>
    cases e
  exact ⟨st, hv h.coherent ▸ hread, ⟨h.legal, hform, hlines.coherent h.coherent hpeek, h.unbounded⟩, hpeek⟩

/-- A write from a transparent state stores the bytes of the value and changes no other byte of storage. -/
theorem Transparent.memWrite {s : State} (h : Transparent s) (a : Addr) (v : Word) :
    ∃ st, memWrite s.config s.storage a v = .ok () st ∧
      (∀ i < 8, st.memory.peek (a + BitVec.ofNat 64 i) = (bytesOfWord v).getD i 0) ∧
      ∀ c, (∀ i < 8, ¬ sameByte c (a + BitVec.ofNat 64 i)) → st.memory.peek c = s.peek c := by
  obtain ⟨st, hwrite⟩ := memWrite_unbounded h.unbounded s.storage a v
  rcases writeBytes_spec h.legal (bytesOfWord v) a (by simp) h.form with ⟨_, e, -, hset, hkeep, -⟩ | ⟨_, _, _, e, -⟩ <;>
    rw [show writeBytes _ _ _ _ = _ from hwrite] at e <;> cases e
  exact ⟨st, hwrite, fun i hi => (hset i hi).1, fun c hc => (hkeep c hc).1⟩

/-! ### States with the same view -/

/-- Same view, said by construction: the second state is the first but for the memory system and the configuration. -/
theorem sameProgramView_iff {s t : State} :
    SameProgramView s t ↔
      t = { s with storage := t.storage, config := t.config } ∧ ∀ a, s.peek a = t.peek a := by
  constructor
  · rintro ⟨hx, hpc, hflags, hrun, hcause, hcinfo, hcin, hcout, hpeek⟩
    exact ⟨State.eq_of_fields hx.symm hpc.symm hflags.symm hrun.symm hcause.symm hcinfo.symm rfl hcin.symm hcout.symm
      rfl, hpeek⟩
  · rintro ⟨ht, hpeek⟩
    rw [ht]
    exact ⟨rfl, rfl, rfl, rfl, rfl, rfl, rfl, rfl, hpeek⟩

/-- An update of the Processor: it neither reads nor writes the memory system and the configuration. -/
def ProcessorUpdate (g : State → State) : Prop :=
  ∀ s st cfg, g { s with storage := st, config := cfg } = { g s with storage := st, config := cfg }

theorem ProcessorUpdate.storage {g : State → State} (hg : ProcessorUpdate g) (s : State) :
    (g s).storage = s.storage := by
  have h := hg s s.storage s.config
  exact (congrArg State.storage h :)

/-- An update of the Processor keeps the view the same. -/
theorem SameProgramView.update {s t : State} (h : SameProgramView s t) {g : State → State} (hg : ProcessorUpdate g) :
    SameProgramView (g s) (g t) := by
  obtain ⟨ht, hpeek⟩ := sameProgramView_iff.mp h
  refine sameProgramView_iff.mpr ⟨?_, fun a => ?_⟩
  · rw [ht, hg]
  · simpa only [State.peek, hg.storage] using hpeek a

theorem SameProgramView.withStorage {s t : State} (h : SameProgramView s t) {st st' : Storage}
    (hpeek : ∀ a, st.memory.peek a = st'.memory.peek a) : SameProgramView (s.withStorage st) (t.withStorage st') := by
  obtain ⟨hx, hpc, hflags, hrun, hcause, hcinfo, hcin, hcout, -⟩ := h
  exact ⟨hx, hpc, hflags, hrun, hcause, hcinfo, hcin, hcout, hpeek⟩

/-- Two transparent states with the same view. -/
structure Lockstep (s t : State) : Prop where
  left : Transparent s
  right : Transparent t
  view : SameProgramView s t

theorem Lockstep.flags {s t : State} (h : Lockstep s t) : s.flags = t.flags := by
  obtain ⟨-, -, hflags, -⟩ := h.view
  exact hflags

/-! ### The rules for a meaning run from both states -/

section
variable {s t : State}

/-- Both meanings end with one update of the Processor. -/
theorem sameView_update (h : SameProgramView s t) {g : State → State} (hg : ProcessorUpdate g) :
    Simulates SameProgramView (.next (g s)) (.next (g t)) := simulates_next (h.update hg)

theorem sameView_withReg (h : SameProgramView s t) {f : RegField} {k k' : Reg → Result}
    (hk : ∀ r : Reg, Simulates SameProgramView (k r) (k' r)) :
    Simulates SameProgramView (withReg f s k) (withReg f t k') :=
  simulates_withReg (h.update (g := fun u => u.raise _ _) fun _ _ _ => rfl) hk

/-- A load answers both the same value. -/
theorem sameView_load (h : Lockstep s t) {a : Addr} {k k' : Word → State → Result}
    (hk : ∀ v s' t', Lockstep s' t' → Simulates SameProgramView (k v s') (k' v t')) :
    Simulates SameProgramView (s.load a k) (t.load a k') := by
  obtain ⟨-, -, -, -, -, -, -, -, hpeek⟩ := h.view
  obtain ⟨st, e, hs, hst⟩ := h.left.memRead a
  obtain ⟨st', e', ht, hst'⟩ := h.right.memRead a
  have hword : s.storage.memory.peekWord a = t.storage.memory.peekWord a :=
    congrArg wordOfBytes (List.map_congr_left fun i _ => hpeek _)
  rw [State.load, State.load, e, e', ← hword]
  exact hk _ _ _ ⟨hs, ht, h.view.withStorage fun b => (hst b).trans ((hpeek b).trans (hst' b).symm)⟩

/-- A store changes both Memories alike. -/
theorem sameView_store (h : Lockstep s t) {a : Addr} {v : Word} {k k' : State → Result}
    (hk : ∀ s' t', SameProgramView s' t' → Simulates SameProgramView (k s') (k' t')) :
    Simulates SameProgramView (s.store a v k) (t.store a v k') := by
  obtain ⟨-, -, -, -, -, -, -, -, hpeek⟩ := h.view
  obtain ⟨st, e, hstored, hkept⟩ := h.left.memWrite a v
  obtain ⟨st', e', hstored', hkept'⟩ := h.right.memWrite a v
  rw [State.store, State.store, e, e']
  refine hk _ _ (h.view.withStorage fun c => ?_)
  by_cases hc : ∃ i < 8, sameByte c (a + BitVec.ofNat 64 i)
  · obtain ⟨i, hi, hci⟩ := hc
    rw [Memory.peek_sameByte _ hci, Memory.peek_sameByte _ hci, hstored i hi, hstored' i hi]
  · have hc : ∀ i < 8, ¬ sameByte c (a + BitVec.ofNat 64 i) := fun i hi hci => hc ⟨i, hi, hci⟩
    rw [hkept c hc, hkept' c hc, hpeek]

theorem sameView_threeRegister (h : SameProgramView s t) (f : Word → Word → Word) (rd rs1 rs2 : RegField) :
    Simulates SameProgramView (threeRegister f rd rs1 rs2 s) (threeRegister f rd rs1 rs2 t) :=
  sameView_withReg h fun d => sameView_withReg h fun a => sameView_withReg h fun b =>
    sameView_update h (g := fun u => (u.setReg d (f (u.reg a) (u.reg b))).advance) fun _ _ _ => rfl

/-- A register holds the same in both. -/
theorem SameProgramView.reg (h : SameProgramView s t) (r : Reg) : s.reg r = t.reg r := by
  obtain ⟨hx, -⟩ := h
  rw [State.reg, State.reg, hx]

theorem sameView_div (h : SameProgramView s t) (rd rs1 rs2 : RegField) (unused : Payload) :
    Simulates SameProgramView (execDiv rd rs1 rs2 unused s) (execDiv rd rs1 rs2 unused t) := by
  refine sameView_withReg h fun d => sameView_withReg h fun a => sameView_withReg h fun b => ?_
  rw [h.reg b, h.reg a]
  split
  · exact sameView_update h (g := fun u => u.raise _ _) fun _ _ _ => rfl
  · exact sameView_update h (g := fun u => (u.setReg d _).advance) fun _ _ _ => rfl

theorem sameView_readKeyboard (h : SameProgramView s t) (rd : RegField) :
    Simulates SameProgramView (execReadKeyboard rd s) (execReadKeyboard rd t) := by
  refine sameView_withReg h fun d => ?_
  obtain ⟨-, -, -, -, -, -, hcin, -⟩ := id h
  rw [hcin]
  split
  · exact simulates_next h
  · rename_i c rest hc
    exact sameView_update h (g := fun u => ({ u with cin := rest }.setReg d (charWord c)).advance) fun _ _ _ => rfl

theorem sameView_jumpDirect (h : SameProgramView s t) {taken taken' : Bool} (ht : taken = taken') (addr : Payload) :
    Simulates SameProgramView (jumpDirect taken addr s) (jumpDirect taken' addr t) := by
  subst ht
  cases taken with
  | false => exact sameView_update h (g := State.advance) fun _ _ _ => rfl
  | true => exact sameView_update h (g := fun u => u.jumpTo _) fun _ _ _ => rfl

theorem sameView_jumpIndirect (h : Lockstep s t) {taken taken' : Bool} (ht : taken = taken') (addr : Payload) :
    Simulates SameProgramView (jumpIndirect taken addr s) (jumpIndirect taken' addr t) := by
  subst ht
  cases taken with
  | false => exact sameView_update h.view (g := State.advance) fun _ _ _ => rfl
  | true =>
    simp only [jumpIndirect, if_true, withPointer]
    exact sameView_load h fun v _ _ h' => sameView_update h'.view (g := fun u => u.jumpTo v) fun _ _ _ => rfl

/-- One register is written with a value both states give, and the instruction is complete. -/
theorem sameView_wrote (h : SameProgramView s t) (d : Reg) (v : Word) :
    Simulates SameProgramView (.next (s.setReg d v).advance) (.next (t.setReg d v).advance) :=
  sameView_update h (g := fun u => (u.setReg d v).advance) fun _ _ _ => rfl

end

/-- An instruction run from two transparent states with the same view leaves the same view. -/
theorem exec_sameView {s t : State} (h : Lockstep s t) (i : Instr) :
    Simulates SameProgramView (exec i s) (exec i t) := by
  have hv := h.view
  have hf := h.flags
  cases i with
  | add | sub | mul | and | or | xor => exact sameView_threeRegister hv _ _ _ _
  | div rd rs1 rs2 unused => exact sameView_div hv rd rs1 rs2 unused
  | not | movr =>
    simp only [exec, execNot, execMovr, hv.reg]
    exact sameView_withReg hv fun _ => sameView_withReg hv fun _ => sameView_wrote hv _ _
  | movi =>
    simp only [exec, execMovi]
    exact sameView_withReg hv fun _ => sameView_wrote hv _ _
  | movl =>
    simp only [exec, execMovl]
    exact sameView_withReg hv fun _ => sameView_load h fun _ _ _ h' => sameView_wrote h'.view _ _
  | movli =>
    simp only [exec, execMovli, withPointer]
    exact sameView_withReg hv fun _ => sameView_load h fun _ _ _ h' => sameView_load h' fun _ _ _ h'' =>
      sameView_wrote h''.view _ _
  | movs =>
    simp only [exec, execMovs, hv.reg]
    exact sameView_withReg hv fun _ => sameView_store h fun _ _ h' =>
      sameView_update h' (g := State.advance) fun _ _ _ => rfl
  | movsi =>
    simp only [exec, execMovsi, withPointer, hv.reg]
    exact sameView_withReg hv fun _ => sameView_load h fun _ _ _ h' => sameView_store h' fun _ _ h'' =>
      sameView_update h'' (g := State.advance) fun _ _ _ => rfl
  | jmp addr => exact sameView_jumpDirect (taken := true) hv rfl addr
  | jmpi addr => exact sameView_jumpIndirect (taken := true) h rfl addr
  | je addr => exact sameView_jumpDirect hv (congrArg Flags.equal hf) addr
  | jei addr => exact sameView_jumpIndirect h (congrArg Flags.equal hf) addr
  | jne addr => exact sameView_jumpDirect hv (congrArg Flags.notEqual hf) addr
  | jnei addr => exact sameView_jumpIndirect h (congrArg Flags.notEqual hf) addr
  | jge addr => exact sameView_jumpDirect hv (congrArg Flags.greaterOrEqual hf) addr
  | jgei addr => exact sameView_jumpIndirect h (congrArg Flags.greaterOrEqual hf) addr
  | jl addr => exact sameView_jumpDirect hv (congrArg Flags.less hf) addr
  | jli addr => exact sameView_jumpIndirect h (congrArg Flags.less hf) addr
  | cmp =>
    simp only [exec, execCmp, hv.reg]
    exact sameView_withReg hv fun _ => sameView_withReg hv fun _ =>
      sameView_update hv (g := fun u => (u.setFlags _).advance) fun _ _ _ => rfl
  | readKeyboard rd => exact sameView_readKeyboard hv rd
  | writeScreen =>
    simp only [exec, execWriteScreen, hv.reg]
    exact sameView_withReg hv fun _ => sameView_update hv (g := fun u => (u.emit _).advance) fun _ _ _ => rfl
  | halt => exact sameView_update hv (g := State.halt) fun _ _ _ => rfl

/-! ### A step of both -/

/-- What a running core does with the fetched word `w`, `s'` being the state the fetch leaves (30_encoding.md R131). -/
def runWord (s : State) (w : Word) (s' : State) : Result :=
  match decode w with
  | .ok i => if waitsForConsole i s then .next s else exec i s'
  | .error _ => .next (s'.raise .invalidOpcode w)

theorem step_running {s : State} (hcfg : legalConfig s.config = true) (hrun : s.run = .running) :
    step s = s.fetch (runWord s) := by
  simp only [step, hcfg, if_true, hrun]
  rfl

/-- Whether an instruction waits is in the program's view. -/
theorem SameProgramView.waitsForConsole {s t : State} (h : SameProgramView s t) (i : Instr) :
    waitsForConsole i s = waitsForConsole i t := by
  obtain ⟨-, -, -, -, -, -, hcin, -⟩ := h
  simp only [Machine.waitsForConsole, hcin]

theorem sameView_runWord {s t s' t' : State} (hv : SameProgramView s t) (h : Lockstep s' t') (w : Word) :
    Simulates SameProgramView (runWord s w s') (runWord t w t') := by
  unfold runWord
  cases decode w with
  | error _ => exact sameView_update h.view (g := fun u => u.raise _ _) fun _ _ _ => rfl
  | ok i =>
    simp only [hv.waitsForConsole i]
    split
    · exact simulates_next hv
    · exact exec_sameView h i

theorem step_sameView {s t : State} (h : Lockstep s t) : Simulates SameProgramView (step s) (step t) := by
  obtain ⟨-, hpc, -, hrun, -⟩ := id h.view
  cases hr : s.run with
  | halted =>
    rw [step_of_halted h.left.legal hr, step_of_halted h.right.legal (hrun ▸ hr)]
    exact simulates_next h.view
  | running =>
    rw [step_running h.left.legal hr, step_running h.right.legal (hrun ▸ hr), State.fetch, State.fetch, hpc]
    exact sameView_load h fun w _ _ h' => sameView_runWord h.view h' w

/-- Settles O59: both steps read the same values from Memory and make the same updates. -/
theorem programViewIndependentOfCache : Obligations.ProgramViewIndependentOfCache := by
  unfold Obligations.ProgramViewIndependentOfCache
  intro s t s' t' hs ht hcs hct hus hut hview hsteps hstept
  have hleft : Transparent s := ⟨hs.legal, hs.storage, hcs, hus⟩
  have hright : Transparent t := ⟨ht.legal, ht.storage, hct, hut⟩
  obtain ⟨u, hu, hview'⟩ := step_sameView ⟨hleft, hright, hview⟩ s' hsteps
  rw [hstept] at hu
  cases hu
  exact hview'

end Sys2Proof.Machine

/-! ## Translation and Memory -/

namespace Sys2Proof.Machine

/-! ### The indices of an address -/

/-- Bits of an address, by division and remainder. -/
theorem extractLsb'_toNat_div (a : Addr) (k n : Nat) : (a.extractLsb' k n).toNat = a.toNat / 2 ^ k % 2 ^ n := by
  rw [BitVec.extractLsb'_toNat, Nat.shiftRight_eq_div_pow]

/-- Settles O40: the indices are the bits R66 and R67 name, and the walk goes down the tables by them. -/
theorem addressSplit : Obligations.AddressSplit := by
  unfold Obligations.AddressSplit
  intro a
  refine ⟨extractLsb'_toNat_div a 39 9, extractLsb'_toNat_div a 30 9, extractLsb'_toNat_div a 21 9,
    extractLsb'_toNat_div a 12 9, ?_, fun top => ?_⟩
  · exact (extractLsb'_toNat_div a 0 12).trans (by rw [Nat.pow_zero, Nat.div_one]; rfl)
  · unfold lookupPage
    cases top.get (index4 a) with
    | none => rfl
    | some t3 =>
      cases h3 : t3.get (index3 a) with
      | none => simp only [Option.bind_some, h3, Option.bind_none]
      | some t2 =>
        simp only [Option.bind_some, h3]
        cases t2.get (index2 a) <;> rfl

/-- Two addresses of one page walk alike (20_memory.md R66, R68). -/
theorem lookupPage_samePage (top : Level4Table) {a b : Addr} (h : samePage a b) :
    lookupPage top a = lookupPage top b := by
  obtain ⟨h4, h3, h2, h1⟩ := h
  simp only [lookupPage, h4, h3, h2, h1]

theorem translate_samePage (cap : Option Nat) (m : Memory) {a b : Addr} (h : samePage a b) :
    Machine.translate cap m a = Machine.translate cap m b := by
  have hl := lookupPage_samePage m.top h
  obtain ⟨h4, h3, h2, h1⟩ := h
  simp only [Machine.translate, hl, level1For, putLevel1, h4, h3, h2, h1]

/-- Settles O41: bits 47:0 are the indices and the offset. -/
theorem highAddressBitsIgnored : Obligations.HighAddressBitsIgnored := by
  unfold Obligations.HighAddressBitsIgnored
  intro cap m a b h
  obtain ⟨hpage, hoff⟩ := (sameByte_iff a b).mp h
  exact ⟨translate_samePage cap m hpage, hoff, m.peek_sameByte h⟩

/-! ### Byte writes and byte reads -/

/-- Where `Translate` answers no page it has created none. -/
theorem lookupPage_of_translate_none {cap : Option Nat} {m m' : Memory} {a : Addr}
    (h : Machine.translate cap m a = (none, m')) (b : Addr) : lookupPage m'.top b = lookupPage m.top b := by
  have hnone : lookupPage m.top a = none := ((translate_none_iff cap m a).mp (by rw [h])).1
  rw [translate_lookup h]
  split
  · rename_i hs
    rw [lookupPage_samePage m.top hs.1, hnone]
  · rfl

/-- A byte write that raises names its own address, which has no page, and creates none (20_memory.md R71, R77). -/
theorem memWriteByte_exhausted {cap : Option Nat} {m m' : Memory} {a va : Addr} {b : Byte}
    (h : memWriteByte cap m a b = .exhausted va m') :
    va = a ∧ lookupPage m.top a = none ∧ ∀ c, lookupPage m'.top c = lookupPage m.top c := by
  unfold memWriteByte at h
  split at h <;> rename_i e <;> cases h
  exact ⟨rfl, ((translate_none_iff cap m a).mp (by rw [e])).1, lookupPage_of_translate_none e⟩

/-- Settles O42: `Translate` tells the two cases of `MemWriteByte` apart. -/
theorem memoryByteWrite : Obligations.MemoryByteWrite := by
  unfold Obligations.MemoryByteWrite
  intro cap m a b hm
  rw [Ne, translate_none_iff]
  rcases memWriteByte_spec (maxPages := cap) hm a b with ⟨m', e, -, hpeek, -⟩ | ⟨m', e, -, hpeek, hnone, hcap, -⟩
  · refine ⟨fun hraise => ?_, fun _ => ⟨m', e, hpeek⟩⟩
    have htr : Machine.translate cap m a = (none, (Machine.translate cap m a).2) :=
      Prod.ext ((translate_none_iff cap m a).mpr hraise) rfl
    rw [memWriteByte, htr] at e
    cases e
  · exact ⟨fun _ => ⟨m', e, hpeek⟩, fun h => absurd ⟨hnone, hcap⟩ h⟩

/-- Whether the cap is reached, as the spec writes it (20_memory.md R68). -/
theorem capReached_eq_true_iff {cap : Option Nat} {n : Nat} : capReached cap n = true ↔ ∃ k ∈ cap, k ≤ n := by
  cases cap <;> simp [capReached]

theorem capReached_eq_false_iff {cap : Option Nat} {n : Nat} : capReached cap n = false ↔ ∀ k ∈ cap, n < k := by
  cases cap <;> simp [capReached]

/-- An address with no page reads as a byte of a new page would. -/
theorem Memory.peek_of_lookupPage_none {m : Memory} {a : Addr} (h : lookupPage m.top a = none) : m.peek a = 0 := by
  simp only [Memory.peek, h]
  rfl

/-- Settles O43, by the three cases of `Translate`. -/
theorem memoryByteRead : Obligations.MemoryByteRead := by
  unfold Obligations.MemoryByteRead
  intro cap m a hm
  rw [← capReached_eq_true_iff, ← capReached_eq_false_iff]
  rcases translate_cases cap m a with ⟨p, hpage, htr⟩ | ⟨hnone, hcap, htr⟩ | ⟨hnone, hcap, htr⟩
  · refine ⟨by simp [hpage], by simp [hpage], fun _ => ?_⟩
    simp only [memReadByte, htr, Memory.peek, hpage]
  · refine ⟨fun _ _ => ?_, by simp [hcap], absurd hnone⟩
    refine ⟨_, ?_, ?_, translate_some_lookup htr, translate_peek hm htr⟩
    · rw [← Memory.peek_of_lookupPage_none hnone, ← translate_peek hm htr a]
      simp only [memReadByte, htr, Memory.peek, translate_some_lookup htr]
    · rfl
  · refine ⟨by simp [hcap], fun _ _ => ?_, absurd hnone⟩
    refine ⟨_, ?_, ?_, translate_peek hm htr⟩
    · simp only [memReadByte, htr]
    · rfl

/-! ### Sequences of writes -/

/-- Writes to a Memory in its form, pages unbounded: the last byte written to an address is there, else what was there
before. -/
theorem writeAll_peek (ws : List (Addr × Byte)) {m : Memory} (hm : m.wf) (a : Addr) :
    (Memory.writeAll ws m).peek a = ((ws.reverse.find? fun w => decide (sameByte w.1 a)).map (·.2)).getD (m.peek a) := by
  induction ws generalizing m with
  | nil => rfl
  | cons w ws ih =>
    obtain ⟨c, b⟩ := w
    obtain ⟨m', e⟩ := memWriteByte_unbounded m c b
    rcases memWriteByte_spec (maxPages := none) hm c b with ⟨_, e', hwf, hpeek, -⟩ | ⟨_, e', -⟩ <;> rw [e] at e' <;>
      cases e'
    simp only [Memory.writeAll, e, ih hwf, hpeek, List.reverse_cons, List.find?_append]
    cases ws.reverse.find? fun w => decide (sameByte w.1 a) with
    | some w => rfl
    | none =>
      by_cases hs : sameByte c a
      · rw [if_pos hs.symm, List.find?_singleton, if_pos (decide_eq_true hs)]
        rfl
      · rw [if_neg fun h => hs h.symm, List.find?_singleton, if_neg fun h => hs (of_decide_eq_true h)]
        rfl

/-- Settles O44: the empty Memory is in its form and reads 0 everywhere. -/
theorem memoryHoldsLastWrite : Obligations.MemoryHoldsLastWrite := by
  unfold Obligations.MemoryHoldsLastWrite
  intro ws a
  have hempty : State.reset.storage.memory.wf := by decide
  exact writeAll_peek ws hempty a

end Sys2Proof.Machine

/-! ## Pages -/

namespace Sys2Proof.Machine

/-! ### What an access leaves, answered or raised -/

/-- The state an access leaves, whether it answers or raises. -/
def Access.final {σ α : Type} : Access σ α → σ
  | .ok _ st => st
  | .exhausted _ st => st

@[simp] theorem Access.final_ok {σ α : Type} (v : α) (st : σ) : (Access.ok v st).final = st := rfl

@[simp] theorem Access.final_exhausted {σ α : Type} (va : Addr) (st : σ) :
    (Access.exhausted va st : Access σ α).final = st := rfl

/-- What both halves of a sequence of accesses keep, the sequence keeps. -/
theorem Access.final_andThen {σ α β : Type} {P : σ → Prop} {r : Access σ α} {k : α → σ → Access σ β}
    (hr : P r.final) (hk : ∀ v st, P st → P (k v st).final) : P (r.andThen k).final := by
  cases r with
  | ok v st => exact hk v st hr
  | exhausted va st => exact hr

/-- What every byte access keeps, a sequence of them keeps. -/
theorem Accesses.keeps {cfg : Config} {P : Storage → Prop} (hread : ∀ st a, P st → P (cacheRead cfg st a).final)
    (hwrite : ∀ st a b, P st → P (cacheWrite cfg st a b).final) {st st' : Storage} (h : Accesses cfg st st')
    (h0 : P st) : P st' := by
  induction h with
  | refl => exact h0
  | @read _ _ a _ _ e ih => simpa only [e, Access.final_ok, Access.final_exhausted] using hread _ a ih
  | @readRaise _ _ a _ _ e ih => simpa only [e, Access.final_ok, Access.final_exhausted] using hread _ a ih
  | @write _ _ a b _ e ih => simpa only [e, Access.final_ok, Access.final_exhausted] using hwrite _ a b ih
  | @writeRaise _ _ a _ b _ e ih => simpa only [e, Access.final_ok, Access.final_exhausted] using hwrite _ a b ih

/-! ### The memory system of a step -/

/-- An instruction reaches the memory system by byte accesses alone (20_memory.md R51). -/
theorem Executed.accesses {i : Instr} {s t : State} (h : Executed i s t) : Accesses s.config s.storage t.storage := by
  cases h with
  | raised acc | wrote acc | advanced acc | jumped acc => exact acc
  | compared | waited | readChar | emitted | halted => exact .refl

/-- A step reaches the memory system by byte accesses alone. -/
theorem step_accesses {s t : State} (h : step s = .next t) : Accesses s.config s.storage t.storage := by
  rcases step_cases (legalConfig_of_step h) with ⟨-, e⟩ | ⟨-, hcases⟩
  · rw [e] at h
    cases h
    exact .refl
  · rcases hcases with ⟨va, st, hfetch, e⟩ | ⟨w, st, err, hfetch, -, e⟩ | ⟨w, st, i, -, -, -, e⟩ |
      ⟨w, st, i, hfetch, -, -, e⟩ <;> rw [e] at h
    · cases h
      exact accesses_of_memRead_exhausted hfetch
    · cases h
      exact accesses_of_memRead_ok hfetch
    · cases h
      exact .refl
    · exact (accesses_of_memRead_ok hfetch).trans (exec_cases i _ t h).accesses

/-! ### Pages stay -/

/-- The four indices make up bits 47:12 (20_memory.md R66). -/
theorem extractLsb'_eq_of_samePage {a b : Addr} (h : samePage a b) : a.extractLsb' 12 36 = b.extractLsb' 12 36 := by
  have split : ∀ c : Addr, c.extractLsb' 12 36 = index4 c ++ (index3 c ++ (index2 c ++ index1 c)) := fun c => by
    simp only [index4, index3, index2, index1]
    rw [BitVec.extractLsb'_append_extractLsb'_eq_extractLsb' (show 21 = 12 + 9 from rfl),
      BitVec.extractLsb'_append_extractLsb'_eq_extractLsb' (show 30 = 12 + (9 + 9) from rfl),
      BitVec.extractLsb'_append_extractLsb'_eq_extractLsb' (show 39 = 12 + (9 + (9 + 9)) from rfl)]
  obtain ⟨h4, h3, h2, h1⟩ := h
  rw [split a, split b, h4, h3, h2, h1]

/-- The address has page `p`. -/
def HasPage (a : Addr) (p : MemoryPage) (m : Memory) : Prop := lookupPage m.top a = some p

section
variable {a : Addr} {p : MemoryPage}

theorem translate_keeps_page {m : Memory} (h : HasPage a p m) (cap : Option Nat) (c : Addr) :
    HasPage a p (translate cap m c).2 := by
  have hkept := translate_lookup (maxPages := cap) (m := m) (a := c) (Prod.mk.eta).symm a
  rw [if_neg] at hkept
  · exact hkept.trans h
  · rintro ⟨hpage, hmissing⟩
    rw [← lookupPage_samePage m.top hpage, h] at hmissing
    cases hmissing

theorem memReadByte_keeps_page {m : Memory} (h : HasPage a p m) (cap : Option Nat) (c : Addr) :
    HasPage a p (memReadByte cap m c).final := by
  have hkept := translate_keeps_page h cap c
  unfold memReadByte
  split <;> rename_i e <;> rw [e] at hkept <;> exact hkept

/-- A byte write changes bytes and, as its translation does, tables: no page goes. -/
theorem memWriteByte_keeps_page {m : Memory} (h : HasPage a p m) (cap : Option Nat) (c : Addr) (b : Byte) :
    HasPage a p (memWriteByte cap m c b).final := by
  have hkept := translate_keeps_page h cap c
  unfold memWriteByte
  split <;> rename_i e <;> rw [e] at hkept <;> exact hkept

theorem lineFill_keeps_page (cap : Option Nat) (n : Nat) (c : Addr) {m : Memory} (h : HasPage a p m) :
    HasPage a p (lineFill cap n c m).final := by
  induction n generalizing c m with
  | zero => exact h
  | succ n ih =>
    exact Access.final_andThen (memReadByte_keeps_page h cap c) fun _ _ h' =>
      Access.final_andThen (ih (c + 1) h') fun _ _ h'' => h''

theorem fillLine_keeps_page (cfg : Config) (base : Addr) {st : Storage} (h : HasPage a p st.memory) :
    HasPage a p (fillLine cfg st base).final.memory := by
  have hkept := lineFill_keeps_page cfg.maxPages cfg.lineSize base h
  unfold fillLine
  split <;> rename_i e <;> rw [e] at hkept <;> exact hkept

theorem cacheRead_keeps_page (cfg : Config) (st : Storage) (c : Addr) (h : HasPage a p st.memory) :
    HasPage a p (cacheRead cfg st c).final.memory := by
  unfold cacheRead
  split
  · exact h
  · exact Access.final_andThen (P := fun st : Storage => HasPage a p st.memory) (fillLine_keeps_page cfg _ h) fun _ _ h' => h'

theorem cacheWrite_keeps_page (cfg : Config) (st : Storage) (c : Addr) (b : Byte) (h : HasPage a p st.memory) :
    HasPage a p (cacheWrite cfg st c b).final.memory := by
  have hkept := memWriteByte_keeps_page h cfg.maxPages c b
  unfold cacheWrite
  split <;> rename_i e <;> rw [e] at hkept
  · exact hkept
  · split
    · exact hkept
    · exact Access.final_andThen (P := fun st : Storage => HasPage a p st.memory) (fillLine_keeps_page cfg _ hkept)
        fun _ _ h' => h'

/-- Along a run an address keeps its page (20_memory.md R72). -/
theorem Reaches.keeps_page {s t : State} (h : Reaches s t) (hs : HasPage a p s.storage.memory) :
    HasPage a p t.storage.memory := by
  induction h with
  | refl => exact hs
  | tail _ hstep ih =>
    exact (step_accesses hstep).keeps (P := fun st : Storage => HasPage a p st.memory) (cacheRead_keeps_page _)
      (cacheWrite_keeps_page _) ih

end

/-- Settles O45: every byte access of a run keeps the page, and in a well-formed Memory one index is one place in the
tables. -/
theorem pagesNeverMove : Obligations.PagesNeverMove := by
  unfold Obligations.PagesNeverMove
  refine ⟨fun s t a p h hp => h.keeps_page hp, fun s a b p hs ha hb => ?_⟩
  exact extractLsb'_eq_of_samePage (samePage_of_index_eq hs.storage.1 ha hb rfl)

end Sys2Proof.Machine

/-! ## Byte accesses through the cache -/

namespace Sys2Proof.Machine

/-! ### What a level holds -/

theorem lookupLine_eq_none_iff {cfg : Config} {st : Storage} {a : Addr} :
    lookupLine (lineBase cfg a) st.cache.levels = none ↔ NotCached cfg st a := lookupFrom_none

/-- A line that some level holds is found. -/
theorem exists_lookupLine_of_cached {cfg : Config} {st : Storage} {a : Addr} (h : ¬ NotCached cfg st a) :
    ∃ p e, lookupLine (lineBase cfg a) st.cache.levels = some (p, e) := by
  cases hl : lookupLine (lineBase cfg a) st.cache.levels with
  | none => exact absurd (lookupLine_eq_none_iff.mp hl) h
  | some pe => exact ⟨pe.1, pe.2, rfl⟩

theorem base_of_lookupLine {base : Addr} {levels : List Level} {p : Nat} {e : Line}
    (h : lookupLine base levels = some (p, e)) : e.base = base := (lookupFrom_some h ⟨base, []⟩ rfl).1

/-- The line the lookup finds stands in the level of the position it answers, the first there with its base. -/
theorem level_of_lookupFrom {base : Addr} {pos p : Nat} {levels : List Level} {e : Line}
    (h : lookupFrom base pos levels = some (p, e)) :
    ∃ lvl, levels[p - pos]? = some lvl ∧ lvl.find? (fun d => d.base == base) = some e := by
  induction levels generalizing pos with
  | nil => cases h
  | cons lvl rest ih =>
    simp only [lookupFrom] at h
    split at h
    · rename_i x hx
      cases h
      exact ⟨lvl, by simp, hx⟩
    · obtain ⟨-, hle, -⟩ := lookupFrom_some h ⟨base, []⟩ rfl
      obtain ⟨l, hl, hf⟩ := ih h
      exact ⟨l, by rwa [show p - pos = p - (pos + 1) + 1 by omega, List.getElem?_cons_succ], hf⟩

/-! ### The two ways of an access that completes -/

/-- A byte access at `a`, a read or a write of `b`, completes and leaves `st'`. -/
abbrev Completes (cfg : Config) (st : Storage) (a : Addr) (b : Byte) (st' : Storage) : Prop :=
  (∃ v, cacheRead cfg st a = .ok v st') ∨ cacheWrite cfg st a b = .ok () st'

/-- A read of a cached line (20_memory.md R86). -/
theorem cacheRead_of_found {cfg : Config} {st : Storage} {a : Addr} {p : Nat} {e : Line}
    (h : lookupLine (lineBase cfg a) st.cache.levels = some (p, e)) :
    cacheRead cfg st a = .ok (e.byteAt (lineOffset cfg a)) { st with cache := st.cache.hit p e } := by
  simp only [cacheRead, h]

/-- A read of a line that no level holds (20_memory.md R86). -/
theorem cacheRead_of_notCached {cfg : Config} {st : Storage} {a : Addr} (h : NotCached cfg st a) :
    cacheRead cfg st a =
      (fillLine cfg st (lineBase cfg a)).andThen fun e st' => .ok (e.byteAt (lineOffset cfg a)) st' := by
  simp only [cacheRead, lookupLine_eq_none_iff.mpr h]

/-- A write to a cached line, its byte in Memory (20_memory.md R87, R88). -/
theorem cacheWrite_of_found {cfg : Config} {st : Storage} {a : Addr} {b : Byte} {m : Memory} {p : Nat} {e : Line}
    (hm : memWriteByte cfg.maxPages st.memory a b = .ok () m)
    (h : lookupLine (lineBase cfg a) st.cache.levels = some (p, e)) :
    cacheWrite cfg st a b =
      .ok () { cache := st.cache.hit p (e.putByte (lineOffset cfg a) b), memory := m } := by
  simp only [cacheWrite, hm, h]

/-- A write to a line that no level holds, its byte in Memory (20_memory.md R87, R89). -/
theorem cacheWrite_of_notCached {cfg : Config} {st : Storage} {a : Addr} {b : Byte} {m : Memory}
    (hm : memWriteByte cfg.maxPages st.memory a b = .ok () m) (h : NotCached cfg st a) :
    cacheWrite cfg st a b =
      (fillLine cfg { st with memory := m } (lineBase cfg a)).andThen fun _ st' => .ok () st' := by
  simp only [cacheWrite, hm, lookupLine_eq_none_iff.mpr h]

/-- A write whose byte does not reach Memory (20_memory.md R77, R97). -/
theorem cacheWrite_of_memWriteByte_exhausted {cfg : Config} {st : Storage} {a va : Addr} {b : Byte} {m : Memory}
    (hm : memWriteByte cfg.maxPages st.memory a b = .exhausted va m) :
    cacheWrite cfg st a b = .exhausted va { st with memory := m } := by
  simp only [cacheWrite, hm]

section
variable {cfg : Config} {st st' : Storage} {a : Addr} {b : Byte}

/-- An access that completes on a cached line: a hit in its level, the line standing with its base (20_memory.md R86,
R87). -/
theorem Completes.hit (h : Completes cfg st a b st') {p : Nat} {e : Line}
    (hl : lookupLine (lineBase cfg a) st.cache.levels = some (p, e)) :
    ∃ d, d.base = lineBase cfg a ∧ st'.cache = st.cache.hit p d := by
  have hbase := base_of_lookupLine hl
  rcases h with ⟨v, h⟩ | h
  · rw [cacheRead_of_found hl] at h
    cases h
    exact ⟨e, hbase, rfl⟩
  · cases hm : memWriteByte cfg.maxPages st.memory a b with
    | exhausted va m =>
      rw [cacheWrite_of_memWriteByte_exhausted hm] at h
      cases h
    | ok _ m =>
      rw [cacheWrite_of_found hm hl] at h
      cases h
      exact ⟨e.putByte (lineOffset cfg a) b, hbase, rfl⟩

/-- A byte write that completes keeps the form of cache and Memory and changes its byte alone; its address has a page
(20_memory.md R77). -/
theorem memWriteByte_ok (hw : st.wf cfg) {m : Memory} (hm : memWriteByte cfg.maxPages st.memory a b = .ok () m) :
    Storage.wf cfg { st with memory := m } ∧ (∀ c, m.peek c = if sameByte c a then b else st.memory.peek c) ∧
      lookupPage m.top a ≠ none := by
  obtain ⟨hmem, hcache, hcap⟩ := hw
  rcases memWriteByte_spec (maxPages := cfg.maxPages) hmem a b with ⟨_, e, hmwf, hpeek, -, hcount, hpage⟩ | ⟨_, e, -⟩ <;>
    rw [hm] at e <;> cases e
  exact ⟨⟨hmwf, hcache, hcount ▸ translate_cap rfl hcap⟩, hpeek, Option.isSome_iff_ne_none.mp hpage⟩

/-- A fill that completes: the line, every byte as Memory holds it, is inserted in level 1 (20_memory.md R86, R98). -/
theorem fillLine_ok (hcfg : legalConfig cfg = true) (hw : st.wf cfg) (hn : NotCached cfg st a) {e : Line}
    (h : fillLine cfg st (lineBase cfg a) = .ok e st') :
    e.base = lineBase cfg a ∧ FilledFrom cfg st'.memory e ∧ st'.cache = st.cache.miss cfg e := by
  rcases fillLine_spec hcfg hw (lineBase_lineBase cfg a) (lookupLine_eq_none_iff.mpr hn) with
    ⟨_, _, e, -, hpeek, hb, hfill, -, hcache⟩ | ⟨_, _, e, -⟩ <;> rw [h] at e <;> cases e
  exact ⟨hb, hfill.congr hpeek, hcache⟩

/-- An access that completes on a line no level holds: a miss, the line filled as Memory holds it afterwards (20_memory.md
R86, R87, R89). -/
theorem Completes.miss (h : Completes cfg st a b st') (hcfg : legalConfig cfg = true) (hw : st.wf cfg)
    (hn : NotCached cfg st a) :
    ∃ e, e.base = lineBase cfg a ∧ FilledFrom cfg st'.memory e ∧ st'.cache = st.cache.miss cfg e := by
  rcases h with ⟨v, h⟩ | h
  · rw [cacheRead_of_notCached hn] at h
    obtain ⟨e, st1, hfill, h⟩ := Access.andThen_eq_ok h
    cases h
    exact ⟨e, fillLine_ok hcfg hw hn hfill⟩
  · cases hm : memWriteByte cfg.maxPages st.memory a b with
    | exhausted va m =>
      rw [cacheWrite_of_memWriteByte_exhausted hm] at h
      cases h
    | ok _ m =>
      rw [cacheWrite_of_notCached hm hn] at h
      obtain ⟨e, st1, hfill, h⟩ := Access.andThen_eq_ok h
      cases h
      exact ⟨e, fillLine_ok hcfg (memWriteByte_ok hw hm).1 hn hfill⟩

/-- An access that completes leaves cache and Memory in their form. -/
theorem Completes.wf (h : Completes cfg st a b st') (hcfg : legalConfig cfg = true) (hw : st.wf cfg) : st'.wf cfg := by
  rcases h with ⟨v, h⟩ | h
  · exact (Accesses.read .refl h).wf hcfg hw
  · exact (Accesses.write .refl h).wf hcfg hw

/-- A hierarchy in its form has a level 1. -/
theorem levels_ne_nil (hcfg : legalConfig cfg = true) (hw : st.wf cfg) : st.cache.levels ≠ [] := by
  obtain ⟨-, ⟨hlen, -⟩, -⟩ := hw
  intro h
  rw [h] at hlen
  exact legalConfig_levels hcfg (List.length_eq_zero_iff.mp hlen.symm)

/-- An access that completes leaves its line cached. -/
theorem Completes.cached (h : Completes cfg st a b st') (hcfg : legalConfig cfg = true) (hw : st.wf cfg) :
    ¬ NotCached cfg st' a := by
  suffices hline : ∃ d ∈ st'.cache.lines, d.base = lineBase cfg a by
    obtain ⟨d, hd, hbase⟩ := hline
    exact fun hn => hn d hd hbase
  by_cases hn : NotCached cfg st a
  · obtain ⟨e, hbase, -, hcache⟩ := h.miss hcfg hw hn
    obtain ⟨kept, -, -, hlines⟩ := insertLine_lines cfg 1 e (levels_ne_nil hcfg hw)
    exact ⟨e, hcache ▸ hlines.mem_iff.mpr (List.mem_cons_self ..), hbase⟩
  · obtain ⟨p, e, hl⟩ := exists_lookupLine_of_cached hn
    obtain ⟨d, hbase, hcache⟩ := h.hit hl
    obtain ⟨-, -, -, rest, -, hlines⟩ := lookupFrom_some hl d hbase
    exact ⟨d, hcache ▸ hlines.mem_iff.mpr (List.mem_cons_self ..), hbase⟩

/-- A read of a cached line completes and counts a hit. -/
theorem cacheRead_hits (hn : ¬ NotCached cfg st a) :
    ∃ v st', cacheRead cfg st a = .ok v st' ∧ st'.cache.hitCount = st.cache.hitCount + 1 ∧
      st'.cache.missCount = st.cache.missCount := by
  obtain ⟨p, e, hl⟩ := exists_lookupLine_of_cached hn
  exact ⟨_, _, cacheRead_of_found hl, rfl, rfl⟩

end

/-! ### Counting -/

/-- Settles O47: a miss counts in the one counter, a hit in the other. -/
theorem byteAccessCountsOnce : Obligations.ByteAccessCountsOnce := by
  unfold Obligations.ByteAccessCountsOnce
  intro s a b st hs h
  have h : Completes s.config s.storage a b st := h
  refine ⟨fun hn => ?_, fun hn => ?_⟩
  · obtain ⟨e, -, -, hcache⟩ := h.miss hs.legal hs.storage hn
    rw [hcache]
    exact ⟨rfl, rfl⟩
  · obtain ⟨p, e, hl⟩ := exists_lookupLine_of_cached hn
    obtain ⟨d, -, hcache⟩ := h.hit hl
    rw [hcache]
    exact ⟨rfl, rfl⟩

/-- Settles O48. -/
theorem hitPercentageFormula : Obligations.HitPercentageFormula := by
  unfold Obligations.HitPercentageFormula
  intro c
  refine ⟨fun h => ?_, fun h => ?_⟩
  · rw [CacheHierarchy.hitPercentage, if_pos h]
  · rw [CacheHierarchy.hitPercentage, if_neg h]
    exact div_mul_cancel₀ _ (Nat.cast_ne_zero.mpr h)

/-- Settles O49: an access leaves its line cached, so the next read hits; what a write settles the read answers. -/
theorem cacheRoundTripAndColdMiss : Obligations.CacheRoundTripAndColdMiss := by
  unfold Obligations.CacheRoundTripAndColdMiss
  refine ⟨fun s a b st hs h => ?_, fun s a a' b st hs hn hbase h => ?_⟩
  · have hc : Completes s.config s.storage a b st := .inr h
    obtain ⟨v, st', hread, hhit, -⟩ := cacheRead_hits (hc.cached hs.legal hs.storage)
    obtain ⟨hsettled, -⟩ := cacheWrite_settled hs.legal hs.storage h
    obtain rfl := cacheRead_settled hs.legal (hc.wf hs.legal hs.storage) hsettled hread
    exact ⟨st', hread, hhit⟩
  · have hc : Completes s.config s.storage a b st := h
    have hcached : ¬ NotCached s.config st a' := by
      unfold NotCached
      rw [hbase]
      exact hc.cached hs.legal hs.storage
    obtain ⟨e, -, -, hcache⟩ := hc.miss hs.legal hs.storage hn
    exact ⟨by rw [hcache]; rfl, cacheRead_hits hcached⟩

/-! ### Where lines go -/

/-- An insertion puts its line in front of its level, which makes room (20_memory.md R91). -/
theorem insertLine_head (cfg : Config) (k : Nat) (e : Line) (lvl : Level) (rest : List Level) :
    ∃ rest', insertLine cfg k e (lvl :: rest) = (e :: roomFor cfg k lvl) :: rest' := by
  cases hp : cfg.victimPolicy with
  | drop => exact ⟨rest, insertLine_drop hp k e lvl rest⟩
  | demote =>
    rw [insertLine_demote hp, roomFor]
    split <;> exact ⟨_, rfl⟩

theorem roomFor_full {cfg : Config} {k : Nat} {lvl : Level} (h : lvl.length = capOf cfg k) :
    roomFor cfg k lvl = lvl.dropLast := if_pos h

/-- Settles O50: the victim is the last line of level 1, and no base stands twice. -/
theorem lruEviction : Obligations.LruEviction := by
  unfold Obligations.LruEviction
  intro s a b st lvl lower last hs hlevels hfull hlast hn h
  obtain ⟨e, hbase, -, hcache⟩ := Completes.miss h hs.legal hs.storage hn
  obtain ⟨lower', hins⟩ := insertLine_head s.config 1 e lvl lower
  have hsplit : lvl.dropLast ++ [last] = lvl := List.dropLast_append_getLast? last hlast
  refine ⟨e, lower', ?_, hbase, fun d hd => ?_⟩
  · rw [hcache, ← roomFor_full hfull, ← hins, ← hlevels]
    rfl
  · have hline : ∀ x ∈ lvl, x ∈ s.storage.cache.lines := fun x hx => by
      simp [CacheHierarchy.lines, hlevels, hx]
    have hlastMem : last ∈ lvl := List.mem_of_getLast? hlast
    rcases List.mem_cons.mp hd with rfl | hd
    · rw [hbase]
      exact (hn last (hline last hlastMem)).symm
    · obtain ⟨-, ⟨-, -, -, hnodup⟩, -⟩ := hs.storage
      have hnd : ((lvl.dropLast ++ [last]).map (·.base)).Nodup := by
        rw [hsplit]
        simp only [CacheHierarchy.lines, hlevels, List.flatten_cons, List.map_append] at hnodup
        exact hnodup.of_append_left
      rw [List.map_append, List.nodup_append] at hnd
      obtain ⟨-, -, hdisjoint⟩ := hnd
      exact hdisjoint d.base (List.mem_map_of_mem hd) last.base (by simp)

end Sys2Proof.Machine

/-! ## Hits, fills and victims -/

namespace Sys2Proof.Machine

/-! ### Hits -/

/-- In a level that holds no base twice, a touch moves the entry before the others in their order (20_memory.md R92). -/
theorem touchLevel_eq_filter {lvl : Level} (hnd : (lvl.map (·.base)).Nodup) (d : Line) :
    touchLevel d lvl = d :: lvl.filter fun x => x.base != d.base := by
  unfold touchLevel
  congr 1
  induction lvl with
  | nil => rfl
  | cons x lvl ih =>
    rw [List.map_cons, List.nodup_cons] at hnd
    obtain ⟨hx, hnd⟩ := hnd
    by_cases hbase : x.base = d.base
    · rw [List.eraseP_cons_of_pos (by simpa using hbase), List.filter_cons_of_neg (by simpa using hbase)]
      refine (List.filter_eq_self.mpr fun y hy => ?_).symm
      simpa using fun hyb : y.base = d.base => hx (hbase ▸ hyb ▸ List.mem_map_of_mem hy)
    · rw [List.eraseP_cons_of_neg (by simpa using hbase), List.filter_cons_of_pos (by simpa using hbase), ih hnd]

/-- A touch changes one level. -/
theorem touch_eq_set {levels : List Level} (hnd : (levels.flatten.map (·.base)).Nodup) {p : Nat} {lvl : Level}
    (hl : levels[p]? = some lvl) (d : Line) :
    touch p d levels = levels.set p (d :: lvl.filter fun x => x.base != d.base) := by
  have hlvl : (lvl.map (·.base)).Nodup := by
    rw [List.map_flatten, List.nodup_flatten] at hnd
    exact hnd.1 _ (List.mem_map_of_mem (List.mem_of_getElem? hl))
  rw [touch, List.modify_eq_set_getElem?, hl, ← touchLevel_eq_filter hlvl d]
  rfl

/-- Settles O51: a hit touches the line in its level, and a touch changes that level alone. -/
theorem hitStaysInItsLevel : Obligations.HitStaysInItsLevel := by
  unfold Obligations.HitStaysInItsLevel
  intro s a p e hs hl
  obtain ⟨lvl, hlvl, hfind⟩ := level_of_lookupFrom hl
  obtain ⟨-, ⟨-, -, -, hnodup⟩, -⟩ := hs.storage
  refine ⟨lvl, _, hlvl, List.mem_of_find?_eq_some hfind, cacheRead_of_found hl, touch_eq_set hnodup hlvl e, rfl,
    fun b st' h => ?_⟩
  cases hm : memWriteByte s.config.maxPages s.storage.memory a b with
  | exhausted va m =>
    rw [cacheWrite_of_memWriteByte_exhausted hm] at h
    cases h
  | ok _ m =>
    rw [cacheWrite_of_found hm hl] at h
    cases h
    exact touch_eq_set hnodup hlvl (e.putByte (lineOffset s.config a) b)

/-! ### Fills -/

/-- Settles O52: the byte is in Memory before the line is filled, and the filled line goes to the front of level 1. -/
theorem writeThroughAndAllocate : Obligations.WriteThroughAndAllocate := by
  unfold Obligations.WriteThroughAndAllocate
  intro s a b st hs h
  refine ⟨?_, fun hn => ?_⟩
  · rcases cacheWrite_spec hs.legal hs.storage a b with ⟨_, e, -, hpeek, -⟩ | ⟨_, _, e, -⟩ <;> rw [h] at e <;> cases e
    exact hpeek
  · have hc : Completes s.config s.storage a b st := .inr h
    obtain ⟨e, hbase, ⟨-, hbytes⟩, hcache⟩ := hc.miss hs.legal hs.storage hn
    obtain ⟨lvl, lower, hlevels⟩ := List.exists_cons_of_ne_nil (levels_ne_nil hs.legal hs.storage)
    obtain ⟨lower', hins⟩ := insertLine_head s.config 1 e lvl lower
    exact ⟨e, _, lower', by rw [hcache, ← hins, ← hlevels]; rfl, hbase, hbytes⟩

/-! ### Accesses that raise -/

/-- The page of an address is its quotient by the page size, but for bits 63:48 (20_memory.md R66). -/
theorem samePage_of_div_eq {a b : Addr} (h : a.toNat / pageSize = b.toNat / pageSize) : samePage a b := by
  have index : ∀ k : Nat, a.extractLsb' (12 + k) 9 = b.extractLsb' (12 + k) 9 := fun k => by
    apply BitVec.eq_of_toNat_eq
    rw [extractLsb'_toNat_div, extractLsb'_toNat_div, Nat.pow_add, ← Nat.div_div_eq_div_mul,
      ← Nat.div_div_eq_div_mul]
    exact congrArg (fun n => n / 2 ^ k % 2 ^ 9) h
  exact ⟨index 27, index 18, index 9, index 0⟩

/-- Numbers with one quotient have one quotient by every multiple of the divisor. -/
theorem div_eq_of_dvd {x y n k : Nat} (h : x / n = y / n) (hk : n ∣ k) : x / k = y / k := by
  obtain ⟨q, rfl⟩ := hk
  rw [← Nat.div_div_eq_div_mul, ← Nat.div_div_eq_div_mul, h]

/-- The line size divides every power of two it does not pass (20_memory.md R82). -/
theorem lineSize_dvd {cfg : Config} (hcfg : legalConfig cfg = true) {n : Nat} (h : cfg.lineSize ≤ 2 ^ n) :
    cfg.lineSize ∣ 2 ^ n := by
  obtain ⟨k, hk⟩ := legalConfig_lineSize hcfg
  rw [hk] at h ⊢
  exact Nat.pow_dvd_pow 2 ((Nat.pow_le_pow_iff_right Nat.one_lt_two).mp h)

/-- A line no longer than a page lies in one page. -/
theorem samePage_of_lineBase_eq {cfg : Config} (hcfg : legalConfig cfg = true) (hle : cfg.lineSize ≤ pageSize)
    {a c : Addr} (h : lineBase cfg a = lineBase cfg c) : samePage a c :=
  samePage_of_div_eq (div_eq_of_dvd ((lineBase_eq_iff hcfg a c).mp h) (lineSize_dvd (n := 12) hcfg hle))

/-- Where a fill fails with lines no longer than a page: at the line's base, the line having no page. -/
theorem FirstMissing.of_lineSize_le {cfg : Config} (hcfg : legalConfig cfg = true) (hle : cfg.lineSize ≤ pageSize)
    {m : Memory} {a va : Addr} (h : FirstMissing cfg m (lineBase cfg a) va) :
    va = lineBase cfg a ∧ lookupPage m.top a = none := by
  obtain ⟨j, hj, hva, hnone, hbefore⟩ := h
  have hj64 : j < 2 ^ 64 := hj.trans_le (hle.trans (by decide))
  have hbase : lineBase cfg va = lineBase cfg a := by
    rw [hva]
    exact (lineOffset_base_add hcfg (lineBase_lineBase cfg a) hj hj64).2
  have hpage : ∀ c, lineBase cfg c = lineBase cfg a → lookupPage m.top c = none := fun c hc =>
    (lookupPage_samePage m.top (samePage_of_lineBase_eq hcfg hle (hc.trans hbase.symm))).trans hnone
  have hzero : lineBase cfg a + BitVec.ofNat 64 0 = lineBase cfg a := BitVec.add_zero _
  refine ⟨?_, hpage a rfl⟩
  cases j with
  | zero => rw [hva, hzero]
  | succ j =>
    have hfirst := hbefore 0 (Nat.succ_pos j)
    rw [hzero] at hfirst
    exact absurd (hpage _ (lineBase_lineBase cfg a)) hfirst

section
variable {cfg : Config} {st st' : Storage} {a va : Addr} {b : Byte}

/-- A fill that raises: the cache and every byte as before, the pages met before the missing one kept (20_memory.md R97,
R98). -/
theorem fillLine_exhausted (hcfg : legalConfig cfg = true) (hw : st.wf cfg) (hn : NotCached cfg st a)
    (h : fillLine cfg st (lineBase cfg a) = .exhausted va st') :
    st'.cache = st.cache ∧ (∀ c, st'.memory.peek c = st.memory.peek c) ∧
      FirstMissing cfg st'.memory (lineBase cfg a) va ∧
      ∀ c, lookupPage st.memory.top c ≠ none → lookupPage st'.memory.top c ≠ none := by
  rcases fillLine_spec hcfg hw (lineBase_lineBase cfg a) (lookupLine_eq_none_iff.mpr hn) with
    ⟨_, _, e, -⟩ | ⟨_, _, e, -, hpeek, -, hcache⟩ <;> rw [h] at e <;> cases e
  unfold fillLine at h
  split at h <;> rename_i hfill <;> cases h
  obtain ⟨hkept, hfirst⟩ := lineFill_exhausted hfill
  exact ⟨hcache, hpeek, hfirst, hkept⟩

/-- A read that raises: its line is in no level, and the fill raises (20_memory.md R97). -/
theorem cacheRead_exhausted (hcfg : legalConfig cfg = true) (hw : st.wf cfg) (h : cacheRead cfg st a = .exhausted va st') :
    st'.cache = st.cache ∧ (∀ c, st'.memory.peek c = st.memory.peek c) ∧
      FirstMissing cfg st'.memory (lineBase cfg a) va := by
  by_cases hn : NotCached cfg st a
  · rw [cacheRead_of_notCached hn] at h
    rcases Access.andThen_eq_exhausted h with h | ⟨_, _, _, h⟩
    · obtain ⟨hcache, hpeek, hfirst, -⟩ := fillLine_exhausted hcfg hw hn h
      exact ⟨hcache, hpeek, hfirst⟩
    · cases h
  · obtain ⟨p, e, hl⟩ := exists_lookupLine_of_cached hn
    rw [cacheRead_of_found hl] at h
    cases h

/-- A write that raises: at its own address, which has no page, its byte unwritten; or, its line in no level and longer
than a page, where the fill after the write raises (20_memory.md R77, R89, R97). -/
theorem cacheWrite_exhausted (hcfg : legalConfig cfg = true) (hw : st.wf cfg)
    (h : cacheWrite cfg st a b = .exhausted va st') :
    st'.cache = st.cache ∧
      ((va = a ∧ lookupPage st'.memory.top a = none ∧ ∀ c, st'.memory.peek c = st.memory.peek c) ∨
        (NotCached cfg st a ∧ pageSize < cfg.lineSize ∧ FirstMissing cfg st'.memory (lineBase cfg a) va ∧
          ∀ c, st'.memory.peek c = if sameByte c a then b else st.memory.peek c)) := by
  cases hm : memWriteByte cfg.maxPages st.memory a b with
  | exhausted va' m =>
    rw [cacheWrite_of_memWriteByte_exhausted hm] at h
    cases h
    obtain ⟨rfl, hnone, hpages⟩ := memWriteByte_exhausted hm
    rcases memWriteByte_spec (maxPages := cfg.maxPages) hw.1 va b with ⟨_, e, -⟩ | ⟨_, e, -, hpeek, -⟩ <;>
      rw [hm] at e <;> cases e
    exact ⟨rfl, .inl ⟨rfl, (hpages va).trans hnone, hpeek⟩⟩
  | ok _ m =>
    obtain ⟨hwm, hpeek, hpage⟩ := memWriteByte_ok hw hm
    by_cases hn : NotCached cfg st a
    · rw [cacheWrite_of_notCached hm hn] at h
      rcases Access.andThen_eq_exhausted h with h | ⟨_, _, _, h⟩
      · obtain ⟨hcache, hkept, hfirst, hpages⟩ := fillLine_exhausted hcfg hwm hn h
        refine ⟨hcache, .inr ⟨hn, ?_, hfirst, fun c => (hkept c).trans (hpeek c)⟩⟩
        by_contra hle
        obtain ⟨-, hnone⟩ := hfirst.of_lineSize_le hcfg (Nat.le_of_not_lt hle)
        exact hpages a hpage hnone
      · cases h
    · obtain ⟨p, e, hl⟩ := exists_lookupLine_of_cached hn
      rw [cacheWrite_of_found hm hl] at h
      cases h

end

/-- Settles O53, by the two ways a write raises and the one way a read does. -/
theorem exhaustedByteAddress : Obligations.ExhaustedByteAddress := by
  unfold Obligations.ExhaustedByteAddress
  intro s a va b st hs
  refine ⟨fun h => ?_, fun h => ?_⟩
  · obtain ⟨hcache, hpeek, hfirst⟩ := cacheRead_exhausted hs.legal hs.storage h
    exact ⟨hcache, hpeek, hfirst, fun hle => (hfirst.of_lineSize_le hs.legal hle).1⟩
  · obtain ⟨hcache, hmissing | ⟨-, hlong⟩⟩ := cacheWrite_exhausted hs.legal hs.storage h
    · exact ⟨hcache, .inl hmissing⟩
    · exact ⟨hcache, .inr hlong⟩

/-! ### Victims -/

/-- The line that comes to each level when `e` is inserted in front and every level passes its last line on. -/
def arriving (e : Line) (levels : List Level) : Nat → Option Line
  | 0 => some e
  | j + 1 => levels[j]?.bind List.getLast?

/-- The levels, the first of them level `k`, are at capacity before position `j`. -/
def FullBefore (cfg : Config) (k : Nat) (levels : List Level) (j : Nat) : Prop :=
  ∀ i < j, levels[i]?.map List.length = some (capOf cfg (i + k))

theorem fullBefore_cons_succ {cfg : Config} {k : Nat} {lvl : Level} {rest : List Level} {j : Nat} :
    FullBefore cfg k (lvl :: rest) (j + 1) ↔ lvl.length = capOf cfg k ∧ FullBefore cfg (k + 1) rest j := by
  have hshift : ∀ i, i + 1 + k = i + (k + 1) := fun i => by omega
  constructor
  · intro h
    refine ⟨by simpa using h 0 (Nat.succ_pos j), fun i hi => ?_⟩
    simpa only [List.getElem?_cons_succ, hshift] using h (i + 1) (Nat.succ_lt_succ hi)
  · rintro ⟨h0, h⟩ i hi
    cases i with
    | zero => simpa using h0
    | succ i => simpa only [List.getElem?_cons_succ, hshift] using h i (Nat.lt_of_succ_lt_succ hi)

/-- Under `demote` a line arrives at every level that has only full levels before it, and no other level changes
(20_memory.md R91, R93). -/
theorem insertLine_demote_levels {cfg : Config} (hp : cfg.victimPolicy = .demote) {k : Nat} (e : Line)
    {levels : List Level} (hpos : ∀ i < levels.length, 1 ≤ capOf cfg (i + k)) {j : Nat} {lvl : Level}
    (hl : levels[j]? = some lvl) :
    (FullBefore cfg k levels j → ∃ v, arriving e levels j = some v ∧
      (insertLine cfg k e levels)[j]? = some (v :: roomFor cfg (j + k) lvl)) ∧
    (¬ FullBefore cfg k levels j → (insertLine cfg k e levels)[j]? = some lvl) := by
  induction levels generalizing k e j with
  | nil => cases hl
  | cons first rest ih =>
    cases j with
    | zero =>
      obtain ⟨rest', hins⟩ := insertLine_head cfg k e first rest
      cases hl
      refine ⟨fun _ => ⟨e, rfl, by rw [hins, Nat.zero_add]; rfl⟩, fun h => absurd ?_ h⟩
      exact fun i hi => absurd hi (Nat.not_lt_zero i)
    | succ j =>
      rw [insertLine_demote hp, fullBefore_cons_succ]
      by_cases hfull : first.length = capOf cfg k
      · have hne : first ≠ [] := by
          have := hpos 0 (Nat.succ_pos _)
          rw [Nat.zero_add] at this
          exact List.ne_nil_of_length_pos (by omega)
        obtain ⟨v, hv⟩ := Option.isSome_iff_exists.mp (List.getLast?_isSome.mpr hne)
        have harrive : arriving e (first :: rest) (j + 1) = arriving v rest j := by
          cases j <;> simp [arriving, hv]
        have hshift : ∀ i, i + 1 + k = i + (k + 1) := fun i => by omega
        have hrest := ih (k := k + 1) v (fun i hi => by
          rw [← hshift]; exact hpos (i + 1) (Nat.succ_lt_succ hi)) hl
        simp only [hfull, if_true, true_and, hv, Option.map_some, Option.getD_some, List.getElem?_cons_succ, harrive,
          hshift]
        exact hrest
      · simp only [hfull, if_false, false_and, false_implies, not_false_eq_true, true_implies, true_and,
          List.getElem?_cons_succ]
        exact hl

/-- Under `drop` the line arrives at level 1 and no other level changes (20_memory.md R91, R93). -/
theorem insertLine_drop_levels {cfg : Config} (hp : cfg.victimPolicy = .drop) (e : Line) {levels : List Level} {j : Nat}
    {lvl : Level} (hl : levels[j]? = some lvl) :
    (insertLine cfg 1 e levels)[j]? = some (if j = 0 then e :: roomFor cfg 1 lvl else lvl) := by
  cases levels with
  | nil => cases hl
  | cons first rest =>
    rw [insertLine_drop hp]
    cases j with
    | zero => cases hl; rfl
    | succ j => exact hl

/-- Settles O60: the access is a miss, and a miss inserts its line. -/
theorem evictedLinesDroppedOrDemoted : Obligations.EvictedLinesDroppedOrDemoted := by
  unfold Obligations.EvictedLinesDroppedOrDemoted
  intro s a b st hs hn h
  obtain ⟨e, hbase, -, hcache⟩ := Completes.miss h hs.legal hs.storage hn
  have hlevels : st.cache.levels = insertLine s.config 1 e s.storage.cache.levels := by rw [hcache]; rfl
  obtain ⟨-, ⟨hcount, -⟩, -⟩ := hs.storage
  rw [hlevels]
  refine ⟨e, hbase, insertLine_length _ _ _ _, fun j lvl hl => ⟨fun hp => insertLine_drop_levels hp e hl, fun hp => ?_⟩⟩
  obtain ⟨hfull, hkept⟩ := insertLine_demote_levels hp (k := 1) e
    (fun i hi => legalConfig_capOf hs.legal (hcount ▸ hi)) hl
  refine ⟨fun hbefore => ?_, hkept⟩
  obtain ⟨v, hv, hlvl⟩ := hfull hbefore
  refine ⟨v, ?_, hlvl⟩
  cases j with
  | zero => exact hv
  | succ j => exact hv

end Sys2Proof.Machine

/-! ## What an instruction does to the memory system, said once for all 28 -/

namespace Sys2Proof.Machine

/-- The meaning ends, in a state that satisfies `P`. -/
def EndsIn (P : State → Prop) (r : Result) : Prop := ∃ t, r = .next t ∧ P t

theorem endsIn_next {P : State → Prop} {t : State} (h : P t) : EndsIn P (.next t) := ⟨t, rfl, h⟩

theorem EndsIn.of_eq_next {P : State → Prop} {r : Result} {t : State} (h : EndsIn P r) (hr : r = .next t) : P t := by
  obtain ⟨u, hu, hP⟩ := h
  rw [hr] at hu
  cases hu
  exact hP

/-- The 8-byte accesses by which instruction `i` takes `s` to `t`, each named with the state it leaves; `complete` says
what is known if no condition is recorded (20_memory.md R58). -/
inductive DataPath (i : Instr) (s t : State) : Prop where
  /-- No access: the instruction makes none, or a register field raised before it. -/
  | none (storage : t.storage = s.storage) (complete : t.cause = .none → i.dataAccesses s.flags = 0)
  /-- One read at the payload's address: a load, a taken indirect jump, or a pointer that was not read to its end. -/
  | read {p : Payload} (storage : t.storage = (memRead s.config s.storage (directAddress p)).final)
      (complete : t.cause = .none →
        i.dataAccesses s.flags = 8 ∧ ∃ v, memRead s.config s.storage (directAddress p) = .ok v t.storage)
  /-- One write at the payload's address: MOVS. -/
  | write {p : Payload} {v : Word} (movs : i.opcode = .movs)
      (storage : t.storage = (memWrite s.config s.storage (directAddress p) v).final)
      (complete : t.cause = .none →
        i.dataAccesses s.flags = 8 ∧ memWrite s.config s.storage (directAddress p) v = .ok () t.storage)
  /-- A pointer read and a read through it: MOVLI. -/
  | readRead {p : Payload} {ea : Addr} {st : Storage} (pointer : i.dataPointer? = some p)
      (first : memRead s.config s.storage (directAddress p) = .ok ea st)
      (storage : t.storage = (memRead s.config st ea).final)
      (complete : t.cause = .none → i.dataAccesses s.flags = 16 ∧ ∃ v, memRead s.config st ea = .ok v t.storage)
  /-- A pointer read and a write through it: MOVSI. -/
  | readWrite {p : Payload} {ea : Addr} {st : Storage} {v : Word} (movsi : i.opcode = .movsi)
      (pointer : i.dataPointer? = some p) (first : memRead s.config s.storage (directAddress p) = .ok ea st)
      (storage : t.storage = (memWrite s.config st ea v).final)
      (complete : t.cause = .none → i.dataAccesses s.flags = 16 ∧ memWrite s.config st ea v = .ok () t.storage)

/-! ### The rules for a meaning -/

/-- A load raises, or goes on with the value and the storage it leaves. -/
theorem endsIn_load {P : State → Prop} {s : State} {a : Addr} {k : Word → State → Result}
    (hraise : ∀ va st, memRead s.config s.storage a = .exhausted va st →
      P ((s.withStorage st).raise .addressTranslationExhausted va))
    (hk : ∀ v st, memRead s.config s.storage a = .ok v st → EndsIn P (k v (s.withStorage st))) :
    EndsIn P (s.load a k) := by
  unfold State.load
  cases e : memRead s.config s.storage a with
  | ok v st => exact hk v st e
  | exhausted va st => exact endsIn_next (hraise va st e)

/-- A store raises, or goes on with the storage it leaves. -/
theorem endsIn_store {P : State → Prop} {s : State} {a : Addr} {v : Word} {k : State → Result}
    (hraise : ∀ va st, memWrite s.config s.storage a v = .exhausted va st →
      P ((s.withStorage st).raise .addressTranslationExhausted va))
    (hk : ∀ st, memWrite s.config s.storage a v = .ok () st → EndsIn P (k (s.withStorage st))) :
    EndsIn P (s.store a v k) := by
  unfold State.store
  cases e : memWrite s.config s.storage a v with
  | ok _ st => exact hk st e
  | exhausted va st => exact endsIn_next (hraise va st e)

/-- The state an access leaves, from its answer. -/
theorem final_eq {σ α : Type} {r r' : Access σ α} (e : r = r') : r'.final = r.final := congrArg Access.final e.symm

section
variable {i : Instr} {s : State}

theorem dataPath_withReg {f : RegField} {k : Reg → Result} (hk : ∀ r : Reg, EndsIn (DataPath i s) (k r)) :
    EndsIn (DataPath i s) (withReg f s k) := by
  rcases withReg_cases f s k with e | ⟨r, e⟩ <;> rw [e]
  · exact endsIn_next (.none rfl (by simp))
  · exact hk r

/-- An instruction without data accesses ends in a state with the same memory system. -/
theorem dataPath_none (hcount : i.dataAccesses s.flags = 0) {t : State} (ht : t.storage = s.storage) :
    EndsIn (DataPath i s) (.next t) := endsIn_next (.none ht fun _ => hcount)

/-- One load and then an update of the Processor. -/
theorem dataPath_read (hcount : i.dataAccesses s.flags = 8) {p : Payload} {g : Word → State → State}
    (hg : ∀ v u, (g v u).storage = u.storage) :
    EndsIn (DataPath i s) (s.load (directAddress p) fun v u => .next (g v u)) := by
  refine endsIn_load (fun va st e => .read (p := p) (final_eq e) (by simp)) fun v st e => ?_
  have hst : (g v (s.withStorage st)).storage = st := hg _ _
  exact endsIn_next (.read (p := p) (hst.trans (final_eq e)) fun _ => ⟨hcount, v, hst.symm ▸ e⟩)

theorem dataPath_threeRegister (hcount : i.dataAccesses s.flags = 0) (f : Word → Word → Word) (rd rs1 rs2 : RegField) :
    EndsIn (DataPath i s) (threeRegister f rd rs1 rs2 s) :=
  dataPath_withReg fun _ => dataPath_withReg fun _ => dataPath_withReg fun _ => dataPath_none hcount rfl

theorem dataPath_jumpDirect (hcount : i.dataAccesses s.flags = 0) (taken : Bool) (addr : Payload) :
    EndsIn (DataPath i s) (jumpDirect taken addr s) := by
  cases taken <;> exact dataPath_none hcount rfl

/-- An indirect jump reads its pointer only if it is taken (43_control_transfer.md R203). -/
theorem dataPath_jumpIndirect {taken : Bool} (hcount : i.dataAccesses s.flags = if taken then 8 else 0)
    (addr : Payload) : EndsIn (DataPath i s) (jumpIndirect taken addr s) := by
  cases taken with
  | false => exact dataPath_none hcount rfl
  | true => exact dataPath_read (g := fun t u => u.jumpTo t) hcount fun _ _ => rfl

end

theorem dataPath_div (rd rs1 rs2 : RegField) (unused : Payload) (s : State) :
    EndsIn (DataPath (.div rd rs1 rs2 unused) s) (execDiv rd rs1 rs2 unused s) := by
  refine dataPath_withReg fun d => dataPath_withReg fun a => dataPath_withReg fun b => ?_
  split <;> exact dataPath_none rfl rfl

theorem dataPath_readKeyboard (rd : RegField) (s : State) :
    EndsIn (DataPath (.readKeyboard rd) s) (execReadKeyboard rd s) := by
  refine dataPath_withReg fun d => ?_
  split <;> exact dataPath_none rfl rfl

theorem dataPath_movli (rd : RegField) (addr : Payload) (s : State) :
    EndsIn (DataPath (.movli rd addr) s) (execMovli rd addr s) :=
  dataPath_withReg fun _ => endsIn_load (fun _ _ e => .read (p := addr) (final_eq e) (by simp)) fun _ _ e =>
    endsIn_load (fun _ _ e' => .readRead rfl e (final_eq e') (by simp)) fun v _ e' =>
      endsIn_next (.readRead rfl e (final_eq e') fun _ => ⟨rfl, v, e'⟩)

theorem dataPath_movs (rs1 : RegField) (addr : Payload) (s : State) :
    EndsIn (DataPath (.movs rs1 addr) s) (execMovs rs1 addr s) :=
  dataPath_withReg fun _ => endsIn_store (fun _ _ e => .write (p := addr) rfl (final_eq e) (by simp)) fun _ e =>
    endsIn_next (.write (p := addr) rfl (final_eq e) fun _ => ⟨rfl, e⟩)

theorem dataPath_movsi (rs1 : RegField) (addr : Payload) (s : State) :
    EndsIn (DataPath (.movsi rs1 addr) s) (execMovsi rs1 addr s) :=
  dataPath_withReg fun a => endsIn_load (fun _ _ e => .read (p := addr) (final_eq e) (by simp)) fun _ _ e =>
    endsIn_store (fun _ _ e' => .readWrite (v := s.reg a) rfl rfl e (final_eq e') (by simp)) fun _ e' =>
      endsIn_next (.readWrite (v := s.reg a) rfl rfl e (final_eq e') fun _ => ⟨rfl, e'⟩)

/-- Every instruction answers a next state, by one of the data paths. -/
theorem exec_dataPath (i : Instr) (s : State) : EndsIn (DataPath i s) (exec i s) := by
  cases i with
  | add | sub | mul | and | or | xor => exact dataPath_threeRegister rfl _ _ _ _
  | div rd rs1 rs2 unused => exact dataPath_div rd rs1 rs2 unused s
  | not | movr | cmp =>
    simp only [exec, execNot, execMovr, execCmp]
    exact dataPath_withReg fun _ => dataPath_withReg fun _ => dataPath_none rfl rfl
  | movi | writeScreen =>
    simp only [exec, execMovi, execWriteScreen]
    exact dataPath_withReg fun _ => dataPath_none rfl rfl
  | movl => exact dataPath_withReg fun d => dataPath_read (g := fun v u => (u.setReg d v).advance) rfl fun _ _ => rfl
  | movli rd addr => exact dataPath_movli rd addr s
  | movs rs1 addr => exact dataPath_movs rs1 addr s
  | movsi rs1 addr => exact dataPath_movsi rs1 addr s
  | jmp addr => exact dataPath_jumpDirect (i := .jmp addr) rfl true addr
  | jmpi addr => exact dataPath_jumpIndirect (i := .jmpi addr) (taken := true) rfl addr
  | je | jne | jge | jl => exact dataPath_jumpDirect rfl _ _
  | jei addr => exact dataPath_jumpIndirect (i := .jei addr) (taken := s.flags.equal) rfl addr
  | jnei addr =>
    refine dataPath_jumpIndirect (i := .jnei addr) (taken := s.flags.notEqual) ?_ addr
    by_cases h : s.flags.zero = true <;> simp [Instr.dataAccesses, Flags.notEqual, h]
  | jgei addr => exact dataPath_jumpIndirect (i := .jgei addr) (taken := s.flags.greaterOrEqual) rfl addr
  | jli addr => exact dataPath_jumpIndirect (i := .jli addr) (taken := s.flags.less) rfl addr
  | readKeyboard rd => exact dataPath_readKeyboard rd s
  | halt => exact dataPath_none rfl rfl

theorem dataPath_of_exec {i : Instr} {s t : State} (h : exec i s = .next t) : DataPath i s t :=
  (exec_dataPath i s).of_eq_next h

/-! ### A step answers -/

/-- A legal line count of every level (20_memory.md R82). -/
theorem legalConfig_lines {cfg : Config} (h : legalConfig cfg = true) {l : LevelConfig} (hl : l ∈ cfg.levels) :
    l.size / cfg.lineSize ≠ 0 := by
  simp only [legalConfig, Bool.and_eq_true, List.all_eq_true, decide_eq_true_eq] at h
  obtain ⟨-, hall⟩ := h
  exact Nat.ne_of_gt (hall l hl)

/-- Settles O5: every case of a step answers, and an illegal configuration fails one of the tests of `legalConfig`. -/
theorem stepAnswersNextOrRefuses : Obligations.StepAnswersNextOrRefuses := by
  unfold Obligations.StepAnswersNextOrRefuses
  refine ⟨fun s hcfg => ?_, fun s hillegal => ?_⟩
  · rcases step_cases hcfg with ⟨-, e⟩ | ⟨-, ⟨va, st, -, e⟩ | ⟨w, st, err, -, -, e⟩ | ⟨w, st, i, -, -, -, e⟩ |
      ⟨w, st, i, -, -, -, e⟩⟩
    · exact ⟨_, e, rfl⟩
    · exact ⟨_, e, rfl⟩
    · exact ⟨_, e, rfl⟩
    · exact ⟨_, e, rfl⟩
    · obtain ⟨t, ht, -⟩ := exec_dataPath i (s.withStorage st)
      exact ⟨t, e.trans ht, (exec_cases i _ t ht).frame.1⟩
  · have hcfg : ¬ legalConfig s.config = true := fun h => by
      rcases hillegal with hnone | ⟨l, hl, hzero⟩ | hsize
      · exact legalConfig_levels h hnone
      · exact legalConfig_lines h hl hzero
      · obtain ⟨n, hn⟩ := legalConfig_lineSize h
        exact hsize n hn
    rw [step, if_neg hcfg]

/-! ### Reads change no byte, stores count theirs -/

/-- A read, answered or raised, keeps the form and changes no byte (20_memory.md R101). -/
theorem memRead_final {cfg : Config} (hcfg : legalConfig cfg = true) {st : Storage} (hw : st.wf cfg) (a : Addr) :
    (memRead cfg st a).final.wf cfg ∧ ∀ c, (memRead cfg st a).final.memory.peek c = st.memory.peek c := by
  rcases memRead_spec hcfg hw a with ⟨v, st', e, hw', hpeek, -⟩ | ⟨va, st', e, hw', hpeek, -⟩ <;> rw [e] <;>
    exact ⟨hw', hpeek⟩

theorem memRead_ok {cfg : Config} (hcfg : legalConfig cfg = true) {st st' : Storage} (hw : st.wf cfg) {a : Addr}
    {v : Word} (h : memRead cfg st a = .ok v st') :
    st'.wf cfg ∧ (∀ c, st'.memory.peek c = st.memory.peek c) ∧
      st'.cache.accessCount = st.cache.accessCount + 8 ∧ (Coherent st → v = st.memory.peekWord a) := by
  rcases memRead_spec hcfg hw a with ⟨_, _, e, hw', hpeek, -, hcount, hv⟩ | ⟨_, _, e, -⟩ <;> rw [h] at e <;> cases e
  exact ⟨hw', hpeek, hcount, hv⟩

theorem memWrite_count {cfg : Config} (hcfg : legalConfig cfg = true) {st st' : Storage} (hw : st.wf cfg) {a : Addr}
    {v : Word} (h : memWrite cfg st a v = .ok () st') : st'.cache.accessCount = st.cache.accessCount + 8 := by
  rcases writeBytes_spec hcfg (bytesOfWord v) a (by simp) hw with ⟨_, e, -, -, -, hcount⟩ | ⟨_, _, _, e, -⟩ <;>
    rw [show writeBytes _ _ _ _ = _ from h] at e <;> cases e
  exact hcount

/-- Settles O36: the data paths of all but MOVS and MOVSI are reads. -/
theorem nonStoringKeepsMemory : Obligations.NonStoringKeepsMemory := by
  unfold Obligations.NonStoringKeepsMemory
  intro i s t hs h hmovs hmovsi a
  unfold State.peek
  cases dataPath_of_exec h with
  | none storage => rw [storage]
  | read storage => rw [storage, (memRead_final hs.legal hs.storage _).2]
  | write movs => exact absurd movs hmovs
  | readRead pointer first storage =>
    obtain ⟨hw, hpeek, -⟩ := memRead_ok hs.legal hs.storage first
    rw [storage, (memRead_final hs.legal hw _).2, hpeek]
  | readWrite movsi => exact absurd movsi hmovsi

/-- An instruction that records no condition makes the accesses `dataAccesses` says. -/
theorem DataPath.count {i : Instr} {s t : State} (h : DataPath i s t) (hs : s.wf) (hcause : t.cause = .none) :
    t.storage.cache.accessCount = s.storage.cache.accessCount + BitVec.ofNat 64 (i.dataAccesses s.flags) := by
  cases h with
  | none storage complete => rw [complete hcause, storage, BitVec.add_zero]
  | read storage complete =>
    obtain ⟨hn, v, hread⟩ := complete hcause
    obtain ⟨-, -, hcount, -⟩ := memRead_ok hs.legal hs.storage hread
    rw [hn, hcount]
    rfl
  | write movs storage complete =>
    obtain ⟨hn, hwrite⟩ := complete hcause
    rw [hn, memWrite_count hs.legal hs.storage hwrite]
    rfl
  | readRead pointer first storage complete =>
    obtain ⟨hn, v, hread⟩ := complete hcause
    obtain ⟨hw, -, hfirst, -⟩ := memRead_ok hs.legal hs.storage first
    obtain ⟨-, -, hcount, -⟩ := memRead_ok hs.legal hw hread
    rw [hn, hcount, hfirst, BitVec.add_assoc]
    rfl
  | readWrite movsi pointer first storage complete =>
    obtain ⟨hn, hwrite⟩ := complete hcause
    obtain ⟨hw, -, hfirst, -⟩ := memRead_ok hs.legal hs.storage first
    rw [hn, memWrite_count hs.legal hw hwrite, hfirst, BitVec.add_assoc]
    rfl

/-- Settles O55: the fetch is one 8-byte read, the rest is the instruction's data path. -/
theorem accessesPerStep : Obligations.AccessesPerStep := by
  unfold Obligations.AccessesPerStep
  intro s t w st i hs hrun hfetch hdecode hwait hstep hcause
  have hexec : exec i (s.withStorage st) = .next t := by
    rw [step_running hs.legal hrun, State.fetch, State.load, hfetch, State.afterAccess_ok] at hstep
    simpa [runWord, hdecode, hwait] using hstep
  obtain ⟨-, -, hcount, -⟩ := memRead_ok hs.legal hs.storage hfetch
  have hdata := (dataPath_of_exec hexec).count (hs.withStorage (accesses_of_memRead_ok hfetch)) hcause
  rw [State.withStorage_storage, hcount] at hdata
  exact hdata

end Sys2Proof.Machine

/-! ## The cache along a step -/

namespace Sys2Proof.Machine

/-! ### What a byte access does to the cache -/

/-- What a byte access at `a` makes of the cache: nothing if it raises, else a hit or a miss of the line of `a`
(20_memory.md R86, R87, R97). -/
inductive CacheAfter (cfg : Config) (c : CacheHierarchy) (a : Addr) : CacheHierarchy → Prop where
  | raised : CacheAfter cfg c a c
  | hit {p : Nat} {e d : Line} (found : lookupLine (lineBase cfg a) c.levels = some (p, e))
      (base : d.base = lineBase cfg a) : CacheAfter cfg c a (c.hit p d)
  | miss {e : Line} (base : e.base = lineBase cfg a) : CacheAfter cfg c a (c.miss cfg e)

section
variable {cfg : Config} {st : Storage} {a : Addr}

theorem fillLine_cacheAfter : CacheAfter cfg st.cache a (fillLine cfg st (lineBase cfg a)).final.cache := by
  unfold fillLine
  split
  · exact .miss rfl
  · exact .raised

theorem cacheRead_cacheAfter : CacheAfter cfg st.cache a (cacheRead cfg st a).final.cache := by
  by_cases hn : NotCached cfg st a
  · rw [cacheRead_of_notCached hn]
    exact Access.final_andThen (P := fun u : Storage => CacheAfter cfg st.cache a u.cache) fillLine_cacheAfter
      fun _ _ h => h
  · obtain ⟨p, e, hl⟩ := exists_lookupLine_of_cached hn
    rw [cacheRead_of_found hl]
    exact .hit hl (base_of_lookupLine hl)

theorem cacheWrite_cacheAfter {b : Byte} : CacheAfter cfg st.cache a (cacheWrite cfg st a b).final.cache := by
  cases hm : memWriteByte cfg.maxPages st.memory a b with
  | exhausted va m =>
    rw [cacheWrite_of_memWriteByte_exhausted hm]
    exact .raised
  | ok _ m =>
    by_cases hn : NotCached cfg st a
    · rw [cacheWrite_of_notCached hm hn]
      exact Access.final_andThen (P := fun u : Storage => CacheAfter cfg st.cache a u.cache)
        (fillLine_cacheAfter (st := { st with memory := m })) fun _ _ h => h
    · obtain ⟨p, e, hl⟩ := exists_lookupLine_of_cached hn
      rw [cacheWrite_of_found hm hl]
      exact .hit hl (base_of_lookupLine (e := e) hl)

end

/-! ### Victims dropped -/

/-- Levels 2 and up are empty. -/
def LowerEmpty (c : CacheHierarchy) : Prop := ∀ lvl ∈ c.levels.tail, lvl = []

/-- With levels 2 and up empty every line is found in level 1. -/
theorem LowerEmpty.position {c : CacheHierarchy} (h : LowerEmpty c) {base : Addr} {p : Nat} {e : Line}
    (hl : lookupLine base c.levels = some (p, e)) : p = 0 := by
  obtain ⟨lvl, hlvl, hfind⟩ := level_of_lookupFrom hl
  cases p with
  | zero => rfl
  | succ p =>
    have htail : c.levels.tail[p]? = some lvl := by rw [List.getElem?_tail]; exact hlvl
    have hempty := h lvl (List.mem_of_getElem? htail)
    rw [hempty] at hfind
    cases hfind

/-- Under `drop` a byte access puts no line below level 1 (20_memory.md R91, R93, R94). -/
theorem CacheAfter.lowerEmpty {cfg : Config} (hp : cfg.victimPolicy = .drop) {c c' : CacheHierarchy} {a : Addr}
    (h : CacheAfter cfg c a c') (hc : LowerEmpty c) : LowerEmpty c' := by
  cases h with
  | raised => exact hc
  | @hit p e d found base =>
    obtain rfl := hc.position found
    intro lvl hlvl
    refine hc lvl ?_
    cases hlevels : c.levels with
    | nil => simp [CacheHierarchy.hit, touch, hlevels] at hlvl
    | cons first rest => simpa [CacheHierarchy.hit, touch, hlevels] using hlvl
  | @miss e base =>
    intro lvl hlvl
    refine hc lvl ?_
    cases hlevels : c.levels with
    | nil => simp [CacheHierarchy.miss, insertLine, hlevels] at hlvl
    | cons first rest => simpa [CacheHierarchy.miss, insertLine_drop hp, hlevels] using hlvl

/-- Settles O54: a step reaches the cache by byte accesses alone. -/
theorem lowerLevelsEmptyUnderDrop : Obligations.LowerLevelsEmptyUnderDrop := by
  unfold Obligations.LowerLevelsEmptyUnderDrop
  refine ⟨fun c lvl hlvl => List.eq_of_mem_replicate (List.mem_of_mem_tail hlvl), fun s t hs hp hempty hstep => ?_⟩
  exact (step_accesses hstep).keeps (P := fun st => LowerEmpty st.cache)
    (fun _ _ h => cacheRead_cacheAfter.lowerEmpty hp h) (fun _ _ _ h => cacheWrite_cacheAfter.lowerEmpty hp h) hempty

/-! ### Cache and Memory equal, below 2^48 -/

/-- Cache and Memory in their form, every cached byte Memory's, and no line of the cache at or above 2^48 (20_memory.md R90,
70_reset_and_hazards.md R265). -/
structure Faithful (cfg : Config) (st : Storage) : Prop where
  form : st.wf cfg
  coherent : Coherent st
  aliasFree : AliasFree cfg st

/-- Every line after a byte access at `a` has the base of a line there was, or of the line of `a`. -/
theorem CacheAfter.base {cfg : Config} {c c' : CacheHierarchy} {a : Addr} (h : CacheAfter cfg c a c') {d : Line}
    (hd : d ∈ c'.lines) : (∃ e ∈ c.lines, e.base = d.base) ∨ d.base = lineBase cfg a := by
  cases h with
  | raised => exact .inl ⟨d, hd, rfl⟩
  | @hit p e x found base =>
    obtain ⟨-, -, -, rest, hbefore, hafter⟩ := lookupFrom_some found x base
    rcases List.mem_cons.mp (hafter.mem_iff.mp hd) with rfl | hd
    · exact .inr base
    · exact .inl ⟨d, hbefore.mem_iff.mpr (List.mem_cons_of_mem _ hd), rfl⟩
  | @miss e base =>
    by_cases hne : c.levels = []
    · simp [CacheHierarchy.lines, CacheHierarchy.miss, insertLine, hne] at hd
    · obtain ⟨kept, dropped, hbefore, hafter⟩ := insertLine_lines cfg 1 e hne
      rcases List.mem_cons.mp (hafter.mem_iff.mp hd) with rfl | hd
      · exact .inr base
      · exact .inl ⟨d, hbefore.mem_iff.mpr (List.mem_append_left _ hd), rfl⟩

/-- A line whose length divides 2^48 does not cross it. -/
theorem toNat_lt_of_lineBase_eq {cfg : Config} (hcfg : legalConfig cfg = true) (hle : cfg.lineSize ≤ 2 ^ 48) {a c : Addr}
    (h : lineBase cfg c = lineBase cfg a) (ha : a.toNat < 2 ^ 48) : c.toNat < 2 ^ 48 := by
  have hdiv := div_eq_of_dvd ((lineBase_eq_iff hcfg c a).mp h) (lineSize_dvd hcfg hle)
  omega

/-- Below 2^48 different addresses name different bytes of storage. -/
theorem eq_of_sameByte {a c : Addr} (ha : a.toNat < 2 ^ 48) (hc : c.toNat < 2 ^ 48) (h : sameByte c a) : c = a := by
  have hbits := congrArg BitVec.toNat h
  rw [extractLsb'_toNat_div, extractLsb'_toNat_div] at hbits
  exact BitVec.eq_of_toNat_eq (by omega)

section
variable {cfg : Config} {st : Storage} {a : Addr}

/-- A byte access below 2^48 brings no line at or above it. -/
theorem CacheAfter.aliasFree (hcfg : legalConfig cfg = true) {st' : Storage} (h : CacheAfter cfg st.cache a st'.cache)
    (hst : AliasFree cfg st) (ha : a.toNat < 2 ^ 48) : AliasFree cfg st' := by
  obtain ⟨hle, hbelow⟩ := hst
  refine ⟨hle, fun d hd => ?_⟩
  rcases h.base hd with ⟨e, he, hbase⟩ | hbase
  · exact hbase ▸ hbelow e he
  · rw [hbase]
    exact toNat_lt_of_lineBase_eq hcfg hle (lineBase_lineBase cfg a) ha

/-- With no line above 2^48, cache and Memory are equal if every byte below it is settled. -/
theorem coherent_of_settled (hcfg : legalConfig cfg = true) (hw : st.wf cfg) (hst : AliasFree cfg st)
    (h : ∀ c : Addr, c.toNat < 2 ^ 48 → ∃ v, Settled cfg st c v) : Coherent st := by
  obtain ⟨-, ⟨-, -, hlines, -⟩, -⟩ := hw
  obtain ⟨hle, hbelow⟩ := hst
  intro e he j hj
  obtain ⟨hbase, hlen⟩ := hlines e he
  rw [hlen] at hj
  obtain ⟨hoff, hcbase⟩ := lineOffset_base_add hcfg hbase hj (hj.trans_le (hle.trans (by decide)))
  obtain ⟨v, hmem, hline⟩ := h (e.base + BitVec.ofNat 64 j)
    (toNat_lt_of_lineBase_eq hcfg hle (hcbase.trans hbase.symm) (hbelow e he))
  rw [hmem, ← hline e he hcbase.symm, hoff]

/-- A byte read below 2^48. -/
theorem Faithful.cacheRead (h : Faithful cfg st) (hcfg : legalConfig cfg = true) (ha : a.toNat < 2 ^ 48) :
    Faithful cfg (cacheRead cfg st a).final := by
  have hfree : AliasFree cfg (Machine.cacheRead cfg st a).final :=
    CacheAfter.aliasFree hcfg cacheRead_cacheAfter h.aliasFree ha
  rcases cacheRead_spec hcfg h.form a with ⟨v, st', e, hw, hpeek, hlines, -⟩ | ⟨va, st', e, hw, hpeek, -, hcache⟩ <;>
    rw [e] at hfree ⊢
  · exact ⟨hw, LinesFrom.coherent hlines h.coherent hpeek, hfree⟩
  · refine ⟨hw, LinesFrom.coherent (cfg := cfg) (fun d hd => .inl ?_) h.coherent hpeek, hfree⟩
    exact hcache ▸ hd

/-- A byte write below 2^48 leaves every byte below 2^48 settled. -/
theorem Faithful.settled_cacheWrite (h : Faithful cfg st) (hcfg : legalConfig cfg = true) (b : Byte)
    (ha : a.toNat < 2 ^ 48) {c : Addr} (hc : c.toNat < 2 ^ 48) :
    ∃ v, Settled cfg (cacheWrite cfg st a b).final c v := by
  have hbefore := h.coherent.settled (legalConfig_lineSize_pos hcfg) h.form c
  have hsame := eq_of_sameByte ha hc
  cases e : Machine.cacheWrite cfg st a b with
  | ok _ st' =>
    obtain ⟨hat, hother⟩ := cacheWrite_settled hcfg h.form e
    by_cases hca : sameByte c a
    · exact ⟨b, hsame hca ▸ hat⟩
    · exact ⟨_, hother c _ hca hbefore⟩
  | exhausted va st' =>
    obtain ⟨hmem, hlines⟩ := hbefore
    obtain ⟨hcache, ⟨-, -, hpeek⟩ | ⟨hn, -, -, hpeek⟩⟩ := cacheWrite_exhausted hcfg h.form e
    · exact ⟨_, hpeek c, fun d hd => hlines d (hcache ▸ hd)⟩
    · by_cases hca : sameByte c a
      · obtain rfl := hsame hca
        exact ⟨_, rfl, fun d hd hbase => absurd hbase (hn d (hcache ▸ hd))⟩
      · exact ⟨_, (hpeek c).trans (if_neg hca), fun d hd => hlines d (hcache ▸ hd)⟩

/-- A byte write below 2^48. -/
theorem Faithful.cacheWrite (h : Faithful cfg st) (hcfg : legalConfig cfg = true) (b : Byte) (ha : a.toNat < 2 ^ 48) :
    Faithful cfg (cacheWrite cfg st a b).final := by
  have hfree : AliasFree cfg (Machine.cacheWrite cfg st a b).final :=
    CacheAfter.aliasFree hcfg cacheWrite_cacheAfter h.aliasFree ha
  have hw : (Machine.cacheWrite cfg st a b).final.wf cfg := by
    rcases cacheWrite_spec hcfg h.form a b with ⟨st', e, hw, -⟩ | ⟨va, st', e, hw, -⟩ <;> rw [e] <;> exact hw
  exact ⟨hw, coherent_of_settled hcfg hw hfree fun c hc => h.settled_cacheWrite hcfg b ha hc, hfree⟩

end

/-- The next address, below 2^48. -/
theorem toNat_add_one {a : Addr} {n : Nat} (h : a.toNat + (n + 1) ≤ 2 ^ 48) :
    a.toNat < 2 ^ 48 ∧ (a + 1).toNat + n ≤ 2 ^ 48 := by
  have hsucc : (a + 1).toNat = a.toNat + 1 := BitVec.toNat_add_of_lt (show a.toNat + 1 < 2 ^ 64 by omega)
  omega

theorem Faithful.readBytes {cfg : Config} (hcfg : legalConfig cfg = true) (n : Nat) (a : Addr) {st : Storage}
    (h : Faithful cfg st) (ha : a.toNat + n ≤ 2 ^ 48) : Faithful cfg (readBytes cfg n a st).final := by
  induction n generalizing a st with
  | zero => exact h
  | succ n ih =>
    obtain ⟨hfirst, hrest⟩ := toNat_add_one ha
    exact Access.final_andThen (h.cacheRead hcfg hfirst) fun _ _ h' =>
      Access.final_andThen (ih (a + 1) h' hrest) fun _ _ h'' => h''

theorem Faithful.writeBytes {cfg : Config} (hcfg : legalConfig cfg = true) (bs : List Byte) (a : Addr) {st : Storage}
    (h : Faithful cfg st) (ha : a.toNat + bs.length ≤ 2 ^ 48) : Faithful cfg (writeBytes cfg bs a st).final := by
  induction bs generalizing a st with
  | nil => exact h
  | cons b bs ih =>
    obtain ⟨hfirst, hrest⟩ := toNat_add_one ha
    exact Access.final_andThen (h.cacheWrite hcfg b hfirst) fun _ _ h' => ih (a + 1) h' hrest

section
variable {cfg : Config} {st : Storage} {a : Addr}

theorem Faithful.memRead (h : Faithful cfg st) (hcfg : legalConfig cfg = true) (ha : a.toNat + 8 ≤ 2 ^ 48) :
    Faithful cfg (memRead cfg st a).final :=
  Access.final_andThen (h.readBytes hcfg 8 a ha) fun _ _ h' => h'

theorem Faithful.memWrite (h : Faithful cfg st) (hcfg : legalConfig cfg = true) (v : Word)
    (ha : a.toNat + 8 ≤ 2 ^ 48) : Faithful cfg (memWrite cfg st a v).final :=
  h.writeBytes hcfg (bytesOfWord v) a ha

/-- A read that completes answers Memory's word and changes no word of Memory. -/
theorem Faithful.memRead_ok (h : Faithful cfg st) (hcfg : legalConfig cfg = true) (ha : a.toNat + 8 ≤ 2 ^ 48)
    {v : Word} {st' : Storage} (e : Machine.memRead cfg st a = .ok v st') :
    Faithful cfg st' ∧ v = st.memory.peekWord a ∧ ∀ c, st'.memory.peekWord c = st.memory.peekWord c := by
  obtain ⟨-, hpeek, -, hv⟩ := Machine.memRead_ok hcfg h.form e
  have hst := h.memRead hcfg ha
  rw [e] at hst
  exact ⟨hst, hv h.coherent, fun c => congrArg wordOfBytes (List.map_congr_left fun i _ => hpeek _)⟩

end

/-- A direct address and the bytes from it lie below 2^48 (30_encoding.md R124). -/
theorem directAddress_below (p : Payload) : (directAddress p).toNat + 8 ≤ 2 ^ 48 := by
  have hp := p.isLt
  have h : (directAddress p).toNat ≤ p.toNat := by
    rw [directAddress, BitVec.toNat_setWidth]
    exact Nat.mod_le _ _
  omega

/-- An instruction keeps cache and Memory equal if the pointer it accesses data through, if any, points below 2^48. -/
theorem DataPath.faithful {i : Instr} {s t : State} (h : DataPath i s t) (hcfg : legalConfig s.config = true)
    (hs : Faithful s.config s.storage)
    (hptr : ∀ p, i.dataPointer? = some p → (s.storage.memory.peekWord (directAddress p)).toNat + 8 ≤ 2 ^ 48) :
    Faithful s.config t.storage := by
  cases h with
  | none storage => exact storage ▸ hs
  | read storage => exact storage ▸ hs.memRead hcfg (directAddress_below _)
  | write movs storage => exact storage ▸ hs.memWrite hcfg _ (directAddress_below _)
  | readRead pointer first storage =>
    obtain ⟨hst, rfl, -⟩ := hs.memRead_ok hcfg (directAddress_below _) first
    exact storage ▸ hst.memRead hcfg (hptr _ pointer)
  | readWrite movsi pointer first storage =>
    obtain ⟨hst, rfl, -⟩ := hs.memRead_ok hcfg (directAddress_below _) first
    exact storage ▸ hst.memWrite hcfg _ (hptr _ pointer)

/-- Settles O57: the fetch reads below 2^48 and answers Memory's word, so the instruction is the one whose pointer the
premise bounds. -/
theorem stepKeepsCoherence : Obligations.StepKeepsCoherence := by
  unfold Obligations.StepKeepsCoherence
  intro s t hs hco hfree hpc hptr hstep
  have h0 : Faithful s.config s.storage := ⟨hs.storage, hco, hfree⟩
  suffices h : t.config = s.config ∧ Faithful s.config t.storage by
    obtain ⟨hconfig, ht⟩ := h
    exact ⟨ht.coherent, hconfig ▸ ht.aliasFree⟩
  have hfetched := h0.memRead hs.legal hpc
  rcases step_cases hs.legal with ⟨-, e⟩ | ⟨-, ⟨va, st, hfetch, e⟩ | ⟨w, st, err, hfetch, -, e⟩ |
    ⟨w, st, i, -, -, -, e⟩ | ⟨w, st, i, hfetch, hdecode, -, e⟩⟩ <;> rw [e] at hstep
  · cases hstep
    exact ⟨rfl, h0⟩
  · cases hstep
    rw [hfetch] at hfetched
    exact ⟨rfl, hfetched⟩
  · cases hstep
    rw [hfetch] at hfetched
    exact ⟨rfl, hfetched⟩
  · cases hstep
    exact ⟨rfl, h0⟩
  · obtain ⟨hst, rfl, hword⟩ := h0.memRead_ok hs.legal hpc hfetch
    refine ⟨(exec_cases i _ t hstep).frame.1, (dataPath_of_exec hstep).faithful hs.legal hst fun p hp => ?_⟩
    rw [State.withStorage_storage, hword]
    exact hptr i p hdecode hp

end Sys2Proof.Machine

/-! ## Encoding -/

namespace Sys2Proof

/-! ### The fields of a word -/

/-- The word of five fields, each shifted into its place (30_encoding.md R121, R140). -/
theorem wordOfFields_eq_or (f : Fields) :
    wordOfFields f = (f.op.setWidth 64 <<< 56) ||| (f.rd.setWidth 64 <<< 48) ||| (f.rs1.setWidth 64 <<< 40) |||
      (f.rs2.setWidth 64 <<< 32) ||| f.payload.setWidth 64 := by
  apply BitVec.eq_of_getLsbD_eq
  intro i hi
  simp only [wordOfFields, BitVec.getLsbD_append, BitVec.getLsbD_or, BitVec.getLsbD_shiftLeft, BitVec.getLsbD_setWidth]
  interval_cases i <;> simp

/-- Settles O11: a field is a slice of the word, and the top field has nothing above it to cut off. -/
theorem fieldExtraction : Obligations.FieldExtraction := by
  unfold Obligations.FieldExtraction
  intro w
  have hop : w.toNat / 2 ^ 56 < 2 ^ 8 := by omega
  refine ⟨(Machine.extractLsb'_toNat_div w 56 8).trans (Nat.mod_eq_of_lt hop), Machine.extractLsb'_toNat_div w 48 8,
    Machine.extractLsb'_toNat_div w 40 8, Machine.extractLsb'_toNat_div w 32 8, ?_⟩
  exact (Machine.extractLsb'_toNat_div w 0 32).trans (by rw [pow_zero, Nat.div_one])

/-! ### The fields an opcode keeps -/

/-- The fields of a word with nothing in those that an instruction of opcode `o` does not keep: the unused ones, but for
the payload of DIV (30_encoding.md R126, R140; log 9). -/
def Fields.cleared (o : Opcode) (f : Fields) : Fields where
  op      := f.op
  rd      := if o.usesRd then f.rd else 0
  rs1     := if o.usesRs1 then f.rs1 else 0
  rs2     := if o.usesRs2 then f.rs2 else 0
  payload := if o.usesPayload || o == .div then f.payload else 0

/-- Clearing changes nothing where the fields that are not kept are empty. -/
theorem Fields.cleared_eq_self_iff {o : Opcode} {f : Fields} :
    f.cleared o = f ↔ (o.usesRd = false → f.rd = 0) ∧ (o.usesRs1 = false → f.rs1 = 0) ∧
      (o.usesRs2 = false → f.rs2 = 0) ∧ (o.usesPayload = false → o ≠ .div → f.payload = 0) := by
  obtain ⟨op, rd, rs1, rs2, payload⟩ := f
  simp [Fields.cleared, eq_comm (a := 0#8), eq_comm (a := 0#32)]

/-- Two words of one opcode are cleared alike if they agree in the fields the opcode keeps. -/
theorem Fields.cleared_congr {o : Opcode} {f g : Fields} (hop : f.op = g.op) (hrd : o.usesRd = true → f.rd = g.rd)
    (hrs1 : o.usesRs1 = true → f.rs1 = g.rs1) (hrs2 : o.usesRs2 = true → f.rs2 = g.rs2)
    (hpayload : (o.usesPayload || o == .div) = true → f.payload = g.payload) : f.cleared o = g.cleared o := by
  unfold Fields.cleared
  rw [hop, ite_congr rfl hrd fun _ => rfl, ite_congr rfl hrs1 fun _ => rfl, ite_congr rfl hrs2 fun _ => rfl,
    ite_congr rfl hpayload fun _ => rfl]

/-! ### Building an instruction and taking it apart -/

@[simp] theorem buildInstr_opcode (f : Fields) (o : Opcode) : (buildInstr f o).opcode = o := by cases o <;> rfl

@[simp] theorem Instr.operands_op (i : Instr) (op : BitVec 8) : (i.operands op).op = op := by cases i <;> rfl

/-- An instruction is built again of its own fields. -/
@[simp] theorem buildInstr_operands (i : Instr) (op : BitVec 8) : buildInstr (i.operands op) i.opcode = i := by
  cases i <;> rfl

/-- The fields of a built instruction are those it was built of, cleared. -/
theorem operands_buildInstr (f : Fields) (o : Opcode) : (buildInstr f o).operands f.op = f.cleared o := by
  cases o <;> rfl

/-- An instruction is built of the fields its opcode keeps alone. -/
theorem buildInstr_cleared (f : Fields) (o : Opcode) : buildInstr (f.cleared o) o = buildInstr f o := by
  have h := buildInstr_operands (buildInstr f o) f.op
  rwa [buildInstr_opcode, operands_buildInstr] at h

/-- An instruction's own fields hold nothing its opcode does not keep. -/
theorem operands_cleared (i : Instr) (op : BitVec 8) : (i.operands op).cleared i.opcode = i.operands op := by
  have h := operands_buildInstr (i.operands op) i.opcode
  rwa [buildInstr_operands, Instr.operands_op, eq_comm] at h

/-! ### Decoding and encoding -/

/-- What a word decodes to: the instruction that its opcode's number selects, built of its fields. -/
theorem decode_eq_ok_iff {w : Word} {i : Instr} :
    decode w = .ok i ↔ (fieldsOfWord w).op = numberOfOpcode i.opcode ∧ buildInstr (fieldsOfWord w) i.opcode = i := by
  unfold decode
  constructor
  · intro h
    split at h
    · next o ho =>
      cases h
      rw [buildInstr_opcode]
      exact ⟨(numberOfOpcode_of_opcodeOfNumber ho).symm, rfl⟩
    · cases h
  · rintro ⟨hop, hi⟩
    simp only [hop, opcodeOfNumber_numberOfOpcode, hi]

theorem fieldsOfWord_encode (i : Instr) : fieldsOfWord (encode i) = i.operands (numberOfOpcode i.opcode) :=
  fieldsOfWord_wordOfFields _

theorem decode_encode (i : Instr) : decode (encode i) = .ok i :=
  decode_eq_ok_iff.mpr
    ⟨by rw [fieldsOfWord_encode, Instr.operands_op], by rw [fieldsOfWord_encode, buildInstr_operands]⟩

/-- Encoding what a word decodes to gives the word with the fields cleared that the instruction does not keep. -/
theorem encode_of_decode {w : Word} {i : Instr} (h : decode w = .ok i) :
    encode i = wordOfFields ((fieldsOfWord w).cleared i.opcode) := by
  obtain ⟨hop, hi⟩ := decode_eq_ok_iff.mp h
  rw [encode, ← hop, ← operands_buildInstr, hi]

/-- Settles O12: the word is its five fields, and clearing those the instruction does not keep changes no word in which
they are empty. -/
theorem decodeEncodeRoundTrip : Obligations.DecodeEncodeRoundTrip := by
  unfold Obligations.DecodeEncodeRoundTrip
  refine ⟨decode_encode, fun w i hdecode hrd hrs1 hrs2 hpayload => ?_⟩
  rw [encode_of_decode hdecode, Fields.cleared_eq_self_iff.mpr ⟨hrd, hrs1, hrs2, hpayload⟩, wordOfFields_fieldsOfWord]

/-- Settles O13: an instruction's fields are their own clearing; the 28 rows are the opcode map and the definition of
the operands, row by row. -/
theorem encodeFormula : Obligations.EncodeFormula := by
  unfold Obligations.EncodeFormula
  constructor
  · rintro i _ rfl
    exact ⟨wordOfFields_eq_or _, Fields.cleared_eq_self_iff.mp (operands_cleared i _)⟩
  · intros
    and_intros <;> rfl

/-- Two words that agree in `op` and in the fields their opcode keeps decode alike. -/
theorem decode_of_cleared_eq {w w' : Word} {i : Instr} (h : decode w = .ok i)
    (hfields : (fieldsOfWord w').cleared i.opcode = (fieldsOfWord w).cleared i.opcode) : decode w' = .ok i := by
  obtain ⟨hop, hi⟩ := decode_eq_ok_iff.mp h
  have hop' : ((fieldsOfWord w').cleared i.opcode).op = ((fieldsOfWord w).cleared i.opcode).op := by rw [hfields]
  exact decode_eq_ok_iff.mpr ⟨hop'.trans hop, by rw [← buildInstr_cleared, hfields, buildInstr_cleared, hi]⟩

end Sys2Proof

namespace Sys2Proof.Machine

/-! ### The payload of DIV -/

/-- The second state is the first, but for the word a `DivisionByZero` has recorded. -/
def SameButRecordedWord (t u : State) : Prop :=
  ∃ c, u = { t with cinfo := c } ∧ (t.cause ≠ .divisionByZero → c = t.cinfo)

theorem sameButRecordedWord_refl (t : State) : SameButRecordedWord t t := ⟨t.cinfo, rfl, fun _ => rfl⟩

/-- DIV's payload matters only to the word a zero divisor records (40_arithmetic.md R163). -/
theorem execDiv_payload (rd rs1 rs2 : RegField) (p p' : Payload) (s : State) :
    Simulates SameButRecordedWord (execDiv rd rs1 rs2 p s) (execDiv rd rs1 rs2 p' s) := by
  refine simulates_withReg (sameButRecordedWord_refl _) fun d => simulates_withReg (sameButRecordedWord_refl _) fun a =>
    simulates_withReg (sameButRecordedWord_refl _) fun b => ?_
  split
  · exact simulates_next ⟨_, rfl, fun h => absurd rfl h⟩
  · exact simulates_next (sameButRecordedWord_refl _)

/-- Settles O14: an instruction is built of the fields its opcode keeps, the used ones and DIV's payload. -/
theorem unusedFieldsIgnored : Obligations.UnusedFieldsIgnored := by
  unfold Obligations.UnusedFieldsIgnored
  intro w w' i hdecode hop hrd hrs1 hrs2 hpayload
  refine ⟨fun hdiv => ?_, fun hdiv => ?_⟩
  · refine decode_of_cleared_eq hdecode (Fields.cleared_congr hop hrd hrs1 hrs2 fun hkept => ?_)
    exact hpayload (by simpa [hdiv] using hkept)
  · obtain ⟨hnumber, hi⟩ := decode_eq_ok_iff.mp hdecode
    rw [hdiv] at hnumber hi hrd hrs1 hrs2
    refine ⟨buildInstr (fieldsOfWord w') .div, decode_eq_ok_iff.mpr ⟨hop.trans hnumber, rfl⟩, fun s t hexec => ?_⟩
    rw [← hi] at hexec
    simp only [buildInstr, hrd rfl, hrs1 rfl, hrs2 rfl] at hexec ⊢
    obtain ⟨_, hexec', c, rfl, hc⟩ := execDiv_payload _ _ _ _ (fieldsOfWord w').payload s t hexec
    exact ⟨c, hexec', hc⟩

/-! ### Register fields above 3 -/

/-- The first field above 3. -/
abbrev firstIllegal (fs : List RegField) : Option RegField := fs.find? fun f => 4 ≤ f.toNat

/-- The meaning `r` from `s` raises for the first of the fields that is above 3, if one is (30_encoding.md R130). -/
def ChecksFirst (s : State) (fs : List RegField) (r : Result) : Prop :=
  ∀ f, firstIllegal fs = some f → r = .next (s.raise .registerIndexOutOfRange (f.setWidth 64))

section
variable {s : State}

theorem checksFirst_nil (r : Result) : ChecksFirst s [] r := by
  rintro f ⟨⟩

/-- A use of a field checks it, and then what follows checks the others. -/
theorem checksFirst_withReg {f : RegField} {fs : List RegField} {k : Reg → Result}
    (hk : ∀ r : Reg, ChecksFirst s fs (k r)) : ChecksFirst s (f :: fs) (withReg f s k) := by
  intro g hg
  cases hf : RegField.legal f with
  | false =>
    have habove : 4 ≤ f.toNat := by simpa [RegField.legal] using hf
    rw [firstIllegal, List.find?_cons_of_pos (by simpa using habove)] at hg
    cases hg
    exact withReg_illegal hf s k
  | true =>
    obtain ⟨r, rfl⟩ := exists_reg_of_legal hf
    rw [firstIllegal, List.find?_cons_of_neg (by simp [r.isLt])] at hg
    rw [withReg_field]
    exact hk r g hg

theorem checksFirst_one {f : RegField} (k : Reg → Result) : ChecksFirst s [f] (withReg f s k) :=
  checksFirst_withReg fun _ => checksFirst_nil _

theorem checksFirst_two {f g : RegField} (k : Reg → Reg → Result) :
    ChecksFirst s [f, g] (withReg f s fun a => withReg g s (k a)) :=
  checksFirst_withReg fun _ => checksFirst_one _

theorem checksFirst_three {f g h : RegField} (k : Reg → Reg → Reg → Result) :
    ChecksFirst s [f, g, h] (withReg f s fun a => withReg g s fun b => withReg h s (k a b)) :=
  checksFirst_withReg fun _ => checksFirst_two _

theorem checksFirst_threeRegister {rd rs1 rs2 : RegField} (f : Word → Word → Word) :
    ChecksFirst s [rd, rs1, rs2] (threeRegister f rd rs1 rs2 s) := checksFirst_three _

end

/-- Every instruction checks the fields it uses, in their order, before anything else. -/
theorem exec_checksFirst (i : Instr) (s : State) : ChecksFirst s i.usedFields (exec i s) := by
  cases i with
  | add | sub | mul | and | or | xor => exact checksFirst_threeRegister _
  | div =>
    simp only [exec]
    exact checksFirst_three _
  | not | movr | cmp =>
    simp only [exec]
    exact checksFirst_two _
  | movi | movl | movli | movs | movsi | readKeyboard | writeScreen =>
    simp only [exec]
    exact checksFirst_one _
  | jmp | jmpi | je | jei | jne | jnei | jge | jgei | jl | jli | halt => exact checksFirst_nil _

/-- An instruction is ill formed if and only if a first used field is above 3. -/
theorem wellFormed_eq_false_iff (i : Instr) :
    i.wellFormed = false ↔ ∃ f, firstIllegal i.usedFields = some f := by
  rw [← Option.isSome_iff_exists, List.find?_isSome]
  simp [Instr.wellFormed, RegField.legal]

/-- Settles O15: every meaning uses its register fields first, in the order of the fields. -/
theorem registerFieldAboveThreeRaises : Obligations.RegisterFieldAboveThreeRaises := by
  unfold Obligations.RegisterFieldAboveThreeRaises
  exact ⟨rfl, wellFormed_eq_false_iff, fun i s f hf => exec_checksFirst i s f hf⟩

/-! ### The step of a fetched instruction -/

/-- A fetched word runs the instruction it decodes to, unless that waits. -/
theorem runWord_of_decode {s : State} {w : Word} {i : Instr} (hdecode : decode w = .ok i)
    (hwait : waitsForConsole i s = false) (s' : State) : runWord s w s' = exec i s' := by
  simp [runWord, hdecode, hwait]

/-- Settles O7: a running core fetches a word and runs it from the state the fetch leaves. -/
theorem stepRunsDecodedInstruction : Obligations.StepRunsDecodedInstruction := by
  unfold Obligations.StepRunsDecodedInstruction
  intro s w st i hcfg hrun hfetch hdecode hwait
  rw [step_running hcfg hrun, State.fetch, State.load, hfetch, State.afterAccess_ok]
  exact runWord_of_decode hdecode hwait _

/-- A readable address answers an 8-byte read. -/
theorem exists_memRead_of_readable {cfg : Config} {st : Storage} {a : Addr} (h : Readable cfg st a) :
    ∃ v st', memRead cfg st a = .ok v st' := by
  rcases h with hunbounded | hok
  · exact memRead_unbounded hunbounded st a
  · exact hok

/-- Settles O8: where cache and Memory agree, the fetch answers the word Memory holds, and as a read it keeps Memory and
the agreement. -/
theorem stepRunsInstructionInMemory : Obligations.StepRunsInstructionInMemory := by
  unfold Obligations.StepRunsInstructionInMemory
  intro s i hs hco hrun hread hdecode hwait
  obtain ⟨w, st, hfetch⟩ := exists_memRead_of_readable hread
  rcases memRead_spec hs.legal hs.storage s.pc with ⟨_, _, e, -, hpeek, hlines, hcount, hw⟩ | ⟨_, _, e, -⟩ <;>
    rw [hfetch] at e <;> cases e
  refine ⟨st, ?_, hpeek, hlines.coherent hco hpeek, hcount⟩
  exact stepRunsDecodedInstruction s w st i hs.legal hrun hfetch (hw hco ▸ hdecode) hwait

end Sys2Proof.Machine

/-! ## Arithmetic -/

namespace Sys2Proof.Machine

/-! ### The completion of an arithmetic instruction -/

/-- A three-register operation on legal fields writes its result to the destination and advances `pc`; both sources are
read before (40_arithmetic.md R166). -/
theorem threeRegister_field (f : Word → Word → Word) (d a b : Reg) (s : State) :
    threeRegister f d.field a.field b.field s =
      .next { s with x := s.x.set d (f s.x[a] s.x[b]), pc := s.pc + 8 } := by
  simp only [threeRegister, withReg_field]
  rfl

/-- DIV on legal fields and a divisor that is not zero completes likewise, whatever its payload (R163, R166). -/
theorem execDiv_field (d a b : Reg) (p : Payload) {s : State} (hb : s.x[b] ≠ 0) :
    execDiv d.field a.field b.field p s =
      .next { s with x := s.x.set d (wordDiv s.x[a] s.x[b]), pc := s.pc + 8 } := by
  simp only [execDiv, withReg_field]
  exact if_neg hb

/-! ### The arithmetic of words: the model's results are those of `BitVec` (decision D7) -/

theorem wordAdd_eq_add (a b : Word) : wordAdd a b = a + b := by
  simp [wordAdd, BitVec.ofInt_add]

theorem sub_eq_ofInt_toInt_sub (a b : Word) : a - b = BitVec.ofInt 64 (a.toInt - b.toInt) :=
  BitVec.eq_of_toInt_eq (by rw [BitVec.toInt_sub, BitVec.toInt_ofInt])

/-- The model subtracts the unsigned readings, `BitVec` the signed ones: the same modulo 2^64. -/
theorem wordSub_eq_sub (a b : Word) : wordSub a b = a - b := by
  apply BitVec.eq_of_toInt_eq
  rw [wordSub, BitVec.toInt_ofInt, BitVec.toInt_sub, BitVec.toInt_eq_toNat_bmod, BitVec.toInt_eq_toNat_bmod]
  simp

theorem natCast_toNat_sub (a b : Word) : ((a - b).toNat : Int) = ((a.toNat : Int) - b.toNat) % 2 ^ 64 := by
  rw [BitVec.toNat_sub]
  omega

theorem wordMul_eq_mul (a b : Word) : wordMul a b = a * b := by
  simp [wordMul, BitVec.ofInt_mul]

theorem wordDiv_eq_sdiv (a b : Word) : wordDiv a b = a.sdiv b :=
  BitVec.eq_of_toInt_eq (by rw [wordDiv, BitVec.toInt_ofInt, BitVec.toInt_sdiv])

/-- Settles O16: the three completions are one, and the results are those of `BitVec`, whose readings the library gives. -/
theorem addSubMulResults : Obligations.AddSubMulResults := by
  unfold Obligations.AddSubMulResults
  intro d a b s
  refine ⟨_, _, _, threeRegister_field wordAdd d a b s, threeRegister_field wordSub d a b s,
    threeRegister_field wordMul d a b s, ?_, ?_, ?_, ?_, ?_, rfl⟩
  · rw [wordAdd_eq_add, BitVec.toNat_add]
  · rw [wordAdd_eq_add, BitVec.ofInt_add, BitVec.ofInt_toInt, BitVec.ofInt_toInt]
  · rw [wordSub_eq_sub, natCast_toNat_sub]
  · rw [wordSub_eq_sub, sub_eq_ofInt_toInt_sub]
  · rw [wordMul_eq_mul, BitVec.toNat_mul]

/-! ### The signed quotient -/

/-- Rounding toward zero, said by signs and magnitudes (decision D8). -/
theorem tdiv_eq_sign_mul_natAbs_div (m n : Int) : m.tdiv n = m.sign * n.sign * (m.natAbs / n.natAbs : Nat) := by
  have habs : (m.tdiv n).natAbs = m.natAbs / n.natAbs := Int.natAbs_tdiv m n
  rw [← Int.sign_mul_natAbs (m.tdiv n), Int.sign_tdiv, habs]
  split
  case isTrue hlt => simp [Nat.div_eq_of_lt hlt]
  case isFalse => rfl

/-- Only -2^63 / -1 leaves the range of a word. -/
theorem toInt_wordDiv {a b : Word} (h : ¬ (a.toInt = -2 ^ 63 ∧ b.toInt = -1)) :
    (wordDiv a b).toInt = a.toInt.tdiv b.toInt := by
  rw [wordDiv_eq_sdiv]
  refine BitVec.toInt_sdiv_of_ne_or_ne a b (not_and_or.mp fun ⟨ha, hb⟩ => h ⟨?_, ?_⟩)
  · rw [ha]; rfl
  · rw [hb]; rfl

/-- Settles O17: DIV's quotient is exact in range, and 2^63 wraps to -2^63. -/
theorem divResult : Obligations.DivResult := by
  unfold Obligations.DivResult
  intro d a b p s hb
  refine ⟨_, execDiv_field d a b p hb, fun hrange => ?_, fun ⟨hmin, hneg⟩ => ?_⟩
  · rw [toInt_wordDiv hrange, tdiv_eq_sign_mul_natAbs_div]
  · rw [wordDiv, hmin, hneg]
    decide

end Sys2Proof.Machine

/-! ## Logic -/

namespace Sys2Proof.Machine

/-- NOT on legal fields writes the complement of its source and advances `pc` (41_logical.md R173). -/
theorem execNot_field (d a : Reg) (s : State) :
    execNot d.field a.field s = .next { s with x := s.x.set d (~~~s.x[a]), pc := s.pc + 8 } := by
  simp only [execNot, withReg_field]
  rfl

/-- Settles O19: AND, OR and XOR have the three-register completion, NOT its own, and the results are those of `BitVec`,
whose bits the library gives. -/
theorem logicalResults : Obligations.LogicalResults := by
  unfold Obligations.LogicalResults
  intro d a b s
  refine ⟨_, _, _, _, threeRegister_field (· &&& ·) d a b s, threeRegister_field (· ||| ·) d a b s,
    threeRegister_field (· ^^^ ·) d a b s, execNot_field d a s, fun i hi => ⟨?_, ?_, ?_, ?_⟩⟩
  · exact BitVec.getLsbD_and
  · exact BitVec.getLsbD_or
  · exact BitVec.getLsbD_xor
  · rw [BitVec.getLsbD_not, decide_eq_true hi, Bool.true_and]

end Sys2Proof.Machine

/-! ## Data transfer -/

namespace Sys2Proof.Machine

/-! ### Accesses that complete -/

/-- Going on after a read that completes. -/
theorem State.load_ok {s : State} {a : Addr} {v : Word} {st : Storage} (h : memRead s.config s.storage a = .ok v st)
    (k : Word → State → Result) : s.load a k = k v (s.withStorage st) := by
  rw [State.load, h, State.afterAccess_ok]

/-- Going on after a write that completes. -/
theorem State.store_ok {s : State} {a : Addr} {v : Word} {st : Storage}
    (h : memWrite s.config s.storage a v = .ok () st) (k : State → Result) :
    s.store a v k = k (s.withStorage st) := by
  rw [State.store, h, State.afterAccess_ok]

/-- A writable address takes an 8-byte write. -/
theorem exists_memWrite_of_writable {cfg : Config} {st : Storage} {a : Addr} {v : Word} (h : Writable cfg st a v) :
    ∃ st', memWrite cfg st a v = .ok () st' := by
  rcases h with hunbounded | hok
  · exact memWrite_unbounded hunbounded st a v
  · exact hok

/-- Memories that hold the same bytes hold the same words. -/
theorem Memory.peekWord_congr {m m' : Memory} (h : ∀ c, m'.peek c = m.peek c) (a : Addr) :
    m'.peekWord a = m.peekWord a :=
  congrArg wordOfBytes (List.map_congr_left fun _ _ => h _)

/-- Where cache and Memory agree they agree after a read: the lines it brings are filled from Memory (20_memory.md R90). -/
theorem memRead_coherent {cfg : Config} (hcfg : legalConfig cfg = true) {st st' : Storage} (hw : st.wf cfg) {a : Addr}
    {v : Word} (h : memRead cfg st a = .ok v st') (hco : Coherent st) : Coherent st' := by
  rcases memRead_spec hcfg hw a with ⟨_, _, e, -, hpeek, hlines, -⟩ | ⟨_, _, e, -⟩ <;> rw [h] at e <;> cases e
  exact hlines.coherent hco hpeek

/-- The bytes of a word, low byte first (20_memory.md R54). -/
theorem bytesOfWord_getD (w : Word) {k : Nat} (hk : k < 8) : (bytesOfWord w).getD k 0 = w.extractLsb' (8 * k) 8 := by
  match k, hk with
  | 0, _ | 1, _ | 2, _ | 3, _ | 4, _ | 5, _ | 6, _ | 7, _ => rfl

/-- A write that completes stores the bytes of its value, changes no other byte of storage and counts 8 accesses
(20_memory.md R102). -/
theorem memWrite_storedPart {cfg : Config} (hcfg : legalConfig cfg = true) {st st' : Storage} (hw : st.wf cfg)
    {a : Addr} {v : Word} (h : memWrite cfg st a v = .ok () st') : StoredPart st st' a v 8 := by
  rcases writeBytes_spec hcfg (bytesOfWord v) a (by simp) hw with ⟨_, e, -, hset, hkeep, hcount⟩ | ⟨_, _, _, e, -⟩ <;>
    rw [show writeBytes _ _ _ _ = _ from h] at e <;> cases e
  refine ⟨⟨fun k hk => ?_, fun c hc => (hkeep c hc).1⟩, hcount⟩
  rw [(hset k hk).1, bytesOfWord_getD v hk]

/-! ### Completions: one per instruction, on legal fields and accesses that complete -/

section
variable (d a : Reg) (p : Payload) {s : State}

/-- MOVI writes the sign-extended immediate (42_data_transfer.md R180, 30_encoding.md R124). -/
theorem execMovi_field :
    execMovi d.field p s = .next { s with x := s.x.set d (p.signExtend 64), pc := s.pc + 8 } := by
  rw [execMovi, withReg_field]
  rfl

/-- MOVR copies its source (R181). -/
theorem execMovr_field : execMovr d.field a.field s = .next { s with x := s.x.set d s.x[a], pc := s.pc + 8 } := by
  rw [execMovr, withReg_field, withReg_field]
  rfl

variable {ea : Addr} {v : Word} {st st' : Storage}

/-- MOVL writes what its read answers (R182). -/
theorem execMovl_field (h : memRead s.config s.storage (p.setWidth 64) = .ok v st) :
    execMovl d.field p s = .next { s with x := s.x.set d v, pc := s.pc + 8, storage := st } := by
  rw [execMovl, withReg_field, directAddress, State.load_ok h]
  rfl

/-- MOVLI reads through the pointer from the storage the pointer read left (R183). -/
theorem execMovli_field (hptr : memRead s.config s.storage (p.setWidth 64) = .ok ea st)
    (h : memRead s.config st ea = .ok v st') :
    execMovli d.field p s = .next { s with x := s.x.set d v, pc := s.pc + 8, storage := st' } := by
  rw [execMovli, withReg_field, withPointer, directAddress, State.load_ok hptr, State.load_ok (s := s.withStorage st) h]
  rfl

/-- MOVS leaves the storage of its write (R184). -/
theorem execMovs_field (h : memWrite s.config s.storage (p.setWidth 64) s.x[a] = .ok () st) :
    execMovs a.field p s = .next { s with pc := s.pc + 8, storage := st } := by
  rw [execMovs, withReg_field, directAddress, State.store_ok (v := s.reg a) h]
  rfl

/-- MOVSI writes through the pointer, from the storage the pointer read left (R185, R188). -/
theorem execMovsi_field (hptr : memRead s.config s.storage (p.setWidth 64) = .ok ea st)
    (h : memWrite s.config st ea s.x[a] = .ok () st') :
    execMovsi a.field p s = .next { s with pc := s.pc + 8, storage := st' } := by
  rw [execMovsi, withReg_field, withPointer, directAddress, State.load_ok hptr,
    State.store_ok (s := s.withStorage st) (v := s.reg a) h]
  rfl

end

/-! ### The results -/

/-- Settles O20: the two completions, and sign extension keeps the signed value (decision D5). -/
theorem moveImmediateAndRegister : Obligations.MoveImmediateAndRegister := by
  unfold Obligations.MoveImmediateAndRegister
  intro d a p s
  have hsigned : (p.signExtend 64).toInt = p.toInt := BitVec.toInt_signExtend_of_le (by decide)
  exact ⟨⟨_, hsigned, execMovi_field d p⟩, execMovr_field d a⟩

/-- Settles O21: MOVL is its completion on the one read. -/
theorem loadDirectResult : Obligations.LoadDirectResult := by
  unfold Obligations.LoadDirectResult
  intro d p s hs hread
  obtain ⟨v, st, h⟩ := exists_memRead_of_readable hread
  obtain ⟨-, hpeek, hcount, hv⟩ := memRead_ok hs.legal hs.storage h
  exact ⟨v, st, h, execMovl_field d p h, hpeek, hcount, hv⟩

/-- Settles O22: the pointer read leaves a well-formed storage with the same bytes, coherent if it was, so what the first
read says the second says again. -/
theorem loadIndirectResult : Obligations.LoadIndirectResult := by
  unfold Obligations.LoadIndirectResult
  intro d p s hs hread hread'
  obtain ⟨ea, st, hptr⟩ := exists_memRead_of_readable hread
  obtain ⟨v, st', h⟩ := exists_memRead_of_readable (hread' ea st hptr)
  obtain ⟨hw, hpeek, hcount, hea⟩ := memRead_ok hs.legal hs.storage hptr
  obtain ⟨-, hpeek', hcount', hv⟩ := memRead_ok hs.legal hw h
  refine ⟨ea, st, v, st', hptr, h, execMovli_field d p hptr h, fun c => (hpeek' c).trans (hpeek c), ?_, fun hco => ?_⟩
  · rw [hcount', hcount, BitVec.add_assoc]
    rfl
  · have hco' : Coherent st := memRead_coherent hs.legal hs.storage hptr hco
    exact ⟨hea hco, (hv hco').trans (Memory.peekWord_congr hpeek ea)⟩

/-- Settles O23: MOVS is its completion on the one write. -/
theorem storeDirectResult : Obligations.StoreDirectResult := by
  unfold Obligations.StoreDirectResult
  intro a p s hs hwrite
  obtain ⟨st, h⟩ := exists_memWrite_of_writable hwrite
  exact ⟨st, h, execMovs_field a p h, memWrite_storedPart hs.legal hs.storage h⟩

/-- Settles O24: the pointer read leaves a well-formed storage with the same bytes, and the write starts from that one. -/
theorem storeIndirectResult : Obligations.StoreIndirectResult := by
  unfold Obligations.StoreIndirectResult
  intro a p s hs hread hwrite
  obtain ⟨ea, st, hptr⟩ := exists_memRead_of_readable hread
  obtain ⟨st', h⟩ := exists_memWrite_of_writable (hwrite ea st hptr)
  obtain ⟨hw, hpeek, hcount, hea⟩ := memRead_ok hs.legal hs.storage hptr
  exact ⟨ea, st, st', hptr, h, execMovsi_field a p hptr h, hpeek, hcount, memWrite_storedPart hs.legal hw h, hea⟩

end Sys2Proof.Machine

/-! ## Control transfer -/

namespace Sys2Proof.Machine

/-! ### When a condition fails, and when it holds (43_control_transfer.md R200, decision D11) -/

theorem Flags.notEqual_eq_true_iff {f : Flags} : f.notEqual = true ↔ f.zero = false := by
  rw [Flags.notEqual, Bool.not_eq_true']

theorem Flags.notEqual_eq_false_iff {f : Flags} : f.notEqual = false ↔ f.zero = true := by
  rw [Flags.notEqual, Bool.not_eq_false']

theorem Flags.greaterOrEqual_eq_true_iff {f : Flags} :
    f.greaterOrEqual = true ↔ f.zero = true ∨ f.greaterThan = true := by
  rw [Flags.greaterOrEqual, Bool.or_eq_true]

theorem Flags.greaterOrEqual_eq_false_iff {f : Flags} :
    f.greaterOrEqual = false ↔ f.zero = false ∧ f.greaterThan = false := by
  rw [Flags.greaterOrEqual, Bool.or_eq_false_iff]

/-! ### Completions: one for the direct jumps, one for each branch of the indirect ones -/

section
variable {taken : Bool} (p : Payload) (s : State)

/-- A direct jump changes `pc` alone, to its target or to the next instruction (R201). -/
theorem jumpDirect_eq_next :
    jumpDirect taken p s = .next { s with pc := if taken then p.setWidth 64 else s.pc + 8 } := by
  cases taken with
  | false => rfl
  | true => rfl

/-- An indirect jump that is not taken goes on to the next instruction and reads nothing (R203, decision D34). -/
theorem jumpIndirect_untaken (h : taken = false) : jumpIndirect taken p s = .next { s with pc := s.pc + 8 } := by
  subst h
  rfl

variable {p s}

/-- An indirect jump that is taken goes to the pointer its read answers (R201). -/
theorem jumpIndirect_taken (h : taken = true) {v : Addr} {st : Storage}
    (hptr : memRead s.config s.storage (p.setWidth 64) = .ok v st) :
    jumpIndirect taken p s = .next { s with pc := v, storage := st } := by
  subst h
  rw [jumpIndirect, if_pos rfl, withPointer, directAddress, State.load_ok hptr]
  rfl

end

/-! ### The results -/

/-- Settles O30: every taken form is the one completion on the one pointer read, and that read keeps Memory. -/
theorem indirectJumpsTaken : Obligations.IndirectJumpsTaken := by
  unfold Obligations.IndirectJumpsTaken
  intro p s hs hread
  obtain ⟨v, st, hptr⟩ := exists_memRead_of_readable hread
  obtain ⟨-, hpeek, hcount, hv⟩ := memRead_ok hs.legal hs.storage hptr
  refine ⟨v, st, hptr, ?jmpi, fun hz => ?jei, fun hz => ?jnei, fun hge => ?jgei, fun hl => ?jli, hpeek, hcount, hv⟩
  case jmpi => exact jumpIndirect_taken rfl hptr
  case jei => exact jumpIndirect_taken hz hptr
  case jnei => exact jumpIndirect_taken (Flags.notEqual_eq_true_iff.mpr hz) hptr
  case jgei => exact jumpIndirect_taken (Flags.greaterOrEqual_eq_true_iff.mpr hge) hptr
  case jli => exact jumpIndirect_taken hl hptr

/-- Settles O29: the direct forms are the one completion under their conditions, where JNE's is the negation of JE's;
the untaken indirect forms read nothing. -/
theorem directAndUntakenJumps : Obligations.DirectAndUntakenJumps := by
  unfold Obligations.DirectAndUntakenJumps
  intro p s
  refine ⟨?jmp, ?je, ?jne, ?jge, ?jl, fun hz => ?jei, fun hz => ?jnei, fun hge => ?jgei, fun hl => ?jli⟩
  case jmp => exact jumpDirect_eq_next (taken := true) p s
  case je => exact jumpDirect_eq_next p s
  case jne =>
    have hjump : exec (.jne p) s = .next { s with pc := if s.flags.notEqual then p.setWidth 64 else s.pc + 8 } :=
      jumpDirect_eq_next p s
    simp only [hjump, Flags.notEqual_eq_true_iff, ← Bool.not_eq_true, ite_not]
  case jge => exact jumpDirect_eq_next p s
  case jl => exact jumpDirect_eq_next p s
  case jei => exact jumpIndirect_untaken p s hz
  case jnei => exact jumpIndirect_untaken p s (Flags.notEqual_eq_false_iff.mpr hz)
  case jgei => exact jumpIndirect_untaken p s (Flags.greaterOrEqual_eq_false_iff.mpr hge)
  case jli => exact jumpIndirect_untaken p s hl

end Sys2Proof.Machine

/-! ## Comparison -/

namespace Sys2Proof.Machine

/-! ### The flags CMP writes (44_compare.md R210): each by its signed comparison -/

theorem compareFlags_zero_iff {a b : Word} : (compareFlags a b).zero = true ↔ a.toInt = b.toInt := beq_iff_eq

theorem compareFlags_greaterThan_iff {a b : Word} : (compareFlags a b).greaterThan = true ↔ a.toInt > b.toInt :=
  decide_eq_true_iff

theorem compareFlags_lessThan_iff {a b : Word} : (compareFlags a b).lessThan = true ↔ a.toInt < b.toInt :=
  decide_eq_true_iff

/-- "Exactly one is true" (10_state.md R27) names three values of the flags. -/
theorem Flags.oneHot_iff {f : Flags} :
    f.oneHot = true ↔ f = ⟨true, false, false⟩ ∨ f = ⟨false, true, false⟩ ∨ f = ⟨false, false, true⟩ := by
  obtain ⟨z, g, l⟩ := f
  simp only [Flags.mk.injEq]
  revert z g l
  decide

/-- CMP's completion on legal registers: new flags and the next instruction (R210). -/
theorem execCmp_field (a b : Reg) (s : State) :
    execCmp a.field b.field s = .next { s with flags := compareFlags s.x[a] s.x[b], pc := s.pc + 8 } := by
  rw [execCmp, withReg_field, withReg_field]
  rfl

/-! ### The result -/

/-- Settles O27: the flags are the three signed comparisons, and the two integers stand in exactly one of the orders. -/
theorem compareExclusivity : Obligations.CompareExclusivity := by
  unfold Obligations.CompareExclusivity
  intro a b s
  have honly : (compareFlags s.x[a] s.x[b]).oneHot = true := compareFlags_oneHot s.x[a] s.x[b]
  exact ⟨compareFlags s.x[a] s.x[b], execCmp_field a b s, compareFlags_zero_iff, compareFlags_greaterThan_iff,
    compareFlags_lessThan_iff, Flags.oneHot_iff.mp honly⟩

end Sys2Proof.Machine

/-! ## The console (45_io.md R216, R217) -/

namespace Sys2Proof.Machine

/-! ### What an instruction does to each channel, from the ways it can end -/

/-- Input characters are left alone, or READ_KEYBOARD has taken the first one. -/
theorem Executed.cin {i : Instr} {s t : State} (h : Executed i s t) :
    t.cin = s.cin ∨ i.opcode = .readKeyboard ∧ ∃ c, s.cin = c :: t.cin := by
  cases h with
  | raised | wrote | advanced | jumped | compared | waited | emitted | halted => exact .inl rfl
  | readChar read chars => exact .inr ⟨congrArg Instr.opcode read, _, chars⟩

/-- The output is left alone, or WRITE_SCREEN has put one value at its end. -/
theorem Executed.cout {i : Instr} {s t : State} (h : Executed i s t) :
    t.cout = s.cout ∨ i.opcode = .writeScreen ∧ ∃ v, t.cout = s.cout ++ [v] := by
  cases h with
  | raised | wrote | advanced | jumped | compared | waited | readChar | halted => exact .inl rfl
  | emitted write => exact .inr ⟨congrArg Instr.opcode write, _, rfl⟩

/-- WRITE_SCREEN's completion on a legal register: a longer output and the next instruction (R216). -/
theorem execWriteScreen_field (a : Reg) (s : State) :
    execWriteScreen a.field s = .next { s with cout := s.cout ++ [s.x[a]], pc := s.pc + 8 } := by
  rw [execWriteScreen, withReg_field]
  rfl

/-! ### The results -/

/-- Settles O34: of the ways an instruction can end, one moves the input channel and one the output channel, each by a
single value. -/
theorem consoleOnlyByIo : Obligations.ConsoleOnlyByIo := by
  unfold Obligations.ConsoleOnlyByIo
  intro i s t hexec
  have hexecuted : Executed i s t := exec_cases i s t hexec
  obtain ⟨hcin, hsuffix⟩ : (i.opcode ≠ .readKeyboard → t.cin = s.cin) ∧ t.cin <:+ s.cin := by
    rcases hexecuted.cin with hkept | ⟨hread, c, htaken⟩
    · exact ⟨fun _ => hkept, [], hkept⟩
    · exact ⟨fun hother => absurd hread hother, [c], htaken.symm⟩
  obtain ⟨hcout, hextends⟩ : (i.opcode ≠ .writeScreen → t.cout = s.cout) ∧ s.cout <+: t.cout := by
    rcases hexecuted.cout with hkept | ⟨hwrite, v, hput⟩
    · exact ⟨fun _ => hkept, [], by rw [List.append_nil, hkept]⟩
    · exact ⟨fun hother => absurd hwrite hother, [v], hput.symm⟩
  exact ⟨hcin, hcout, hsuffix, hextends⟩

/-- Settles O32: WRITE_SCREEN is its completion on a legal register. -/
theorem writeScreenAppends : Obligations.WriteScreenAppends := by
  unfold Obligations.WriteScreenAppends
  intro a s
  exact execWriteScreen_field a s

end Sys2Proof.Machine

/-! ## Halt (46_halt.md R220) -/

namespace Sys2Proof.Machine

/-- HALT reads no field and makes no access, so its meaning has one end, the normal halt. -/
theorem exec_halt (s : State) : exec .halt s = .next s.halt := rfl

/-- Settles O33: HALT's one end is the state update `State.halt`, which sets the run state and no other field. -/
theorem haltResult : Obligations.HaltResult := by
  unfold Obligations.HaltResult
  intro s
  calc exec .halt s = .next s.halt := exec_halt s
    _ = .next { s with run := .halted } := by rw [State.halt]

end Sys2Proof.Machine

/-! ## Conditions are precise (60_exceptions.md R240, R241) -/

namespace Sys2Proof.Machine

/-- `t` is `s` with a condition taken: `State.raise` after memory effects, and nothing else. -/
def TookCondition (s t : State) : Prop :=
  ∃ (st : Storage) (k : Cause) (info : Word), t = (s.withStorage st).raise k info

/-- A condition raised after the fetch's memory effects is one raised from the state before the fetch. -/
theorem TookCondition.of_withStorage {s t : State} {st : Storage} (h : TookCondition (s.withStorage st) t) :
    TookCondition s t := by
  obtain ⟨st', k, info, e⟩ := h
  exact ⟨st', k, info, e⟩

/-- A condition writes the run state and the record alone; the rest of the Processor stays as it was. -/
theorem TookCondition.precise {s t : State} (h : TookCondition s t) :
    t.run = .halted ∧ t.x = s.x ∧ t.flags = s.flags ∧ t.pc = s.pc ∧ t.cin = s.cin ∧ t.cout = s.cout := by
  obtain ⟨st, k, info, rfl⟩ := h
  exact ⟨rfl, rfl, rfl, rfl, rfl, rfl⟩

/-- A well-formed core that still runs has recorded nothing (10_state.md R28). -/
theorem State.wf.cause_of_running {s : State} (h : s.wf) (hrun : s.run = .running) : s.cause = .none := by
  obtain ⟨-, -, -, -, -, hrecord, -⟩ := h
  exact (hrecord hrun).1

/-- Of the ways an instruction can end, only a taken condition writes the record. -/
theorem Executed.tookCondition {i : Instr} {s t : State} (h : Executed i s t) (hcause : t.cause ≠ s.cause) :
    TookCondition s t := by
  cases h with
  | raised acc kind => exact ⟨_, _, _, rfl⟩
  | wrote | advanced | jumped | compared | waited | readChar | emitted | halted => exact absurd rfl hcause

/-- A step that changes the record has taken a condition: in the fetch, at the decoder or in the instruction's meaning. -/
theorem step_tookCondition {s t : State} (hstep : step s = .next t) (hcause : t.cause ≠ s.cause) :
    TookCondition s t := by
  rcases step_cases (legalConfig_of_step hstep) with ⟨-, e⟩ | ⟨-, ⟨va, st, -, e⟩ | ⟨w, st, err, -, -, e⟩ |
    ⟨w, st, i, -, -, -, e⟩ | ⟨w, st, i, -, -, -, e⟩⟩ <;> rw [e] at hstep
  · cases hstep
    exact absurd rfl hcause
  · cases hstep
    exact ⟨st, _, _, rfl⟩
  · cases hstep
    exact ⟨st, _, _, rfl⟩
  · cases hstep
    exact absurd rfl hcause
  · have hexecuted : Executed i (s.withStorage st) t := exec_cases i _ t hstep
    exact (hexecuted.tookCondition hcause).of_withStorage

/-- Settles O39: nothing is recorded while the core runs, so a recorded condition is one this step has taken. -/
theorem conditionIsPrecise : Obligations.ConditionIsPrecise := by
  unfold Obligations.ConditionIsPrecise
  intro s t hs hrun hstep hcause
  have hbefore : s.cause = .none := hs.cause_of_running hrun
  have hchanged : t.cause ≠ s.cause := hbefore ▸ hcause
  exact (step_tookCondition hstep hchanged).precise

end Sys2Proof.Machine

/-! ## Reset (10_state.md R39, 20_memory.md R82) -/

namespace Sys2Proof.Machine

/-- Tables with no filled slot hold no page. -/
theorem lookupPage_noSlots (a : Addr) : lookupPage ⟨[]⟩ a = none := rfl

/-- Settles O2: the fields are those of `State.construct`; tables without slots hold no page, and where no
page is a byte reads 0. -/
theorem resetState : Obligations.ResetState := by
  unfold Obligations.ResetState
  intro c
  have hlevels : ∀ lvl ∈ (State.construct c).storage.cache.levels, lvl = [] := fun lvl h =>
    List.eq_of_mem_replicate h
  have hcount : (State.construct c).storage.cache.levels.length = c.levels.length := List.length_replicate
  have hhits : (State.construct c).storage.cache.hitPercentage = 0 := (hitPercentageFormula _).1 rfl
  exact ⟨rfl, rfl, rfl, rfl, rfl, rfl, hcount, hlevels, rfl, rfl, hhits, rfl, rfl, lookupPage_noSlots,
    fun a => Memory.peek_of_lookupPage_none (lookupPage_noSlots a), rfl⟩

/-- The Memory of construction is in its form: nothing is in it. -/
theorem construct_memory_wf (c : Config) : (State.construct c).storage.memory.wf := by
  have hempty : State.reset.storage.memory.wf := by decide
  exact hempty

/-- The cache of construction is in its form: every level is there and empty. -/
theorem construct_cache_wf (c : Config) : (State.construct c).storage.cache.wf c := by
  have hlines : (State.construct c).storage.cache.lines = [] := List.flatten_replicate_nil
  have hcount : (State.construct c).storage.cache.levels.length = c.levels.length := List.length_replicate
  refine ⟨hcount, fun k hk => ?_, by simp [hlines], by simp [hlines]⟩
  have hempty : (State.construct c).storage.cache.levels.getD k [] = [] :=
    List.getD_replicate _ (hcount ▸ List.mem_range.mp hk)
  rw [hempty]
  exact Nat.zero_le _

/-- Construction with a legal configuration is well formed (70_reset_and_hazards.md R260). -/
theorem construct_wf {c : Config} (hc : legalConfig c = true) : (State.construct c).wf :=
  ⟨hc, construct_memory_wf c, construct_cache_wf c, fun _ _ => Nat.zero_le _, .inr rfl, fun _ => ⟨rfl, rfl⟩,
    fun _ h => absurd h List.not_mem_nil⟩

/-- Settles O3: the default configuration is one of the legal ones. -/
theorem constructWellFormed : Obligations.ConstructWellFormed := by
  unfold Obligations.ConstructWellFormed
  have hdefault : legalConfig Config.default = true := by decide
  exact ⟨fun _ hc => construct_wf hc, construct_wf hdefault⟩

end Sys2Proof.Machine

/-! ## Words that decode, and words that do not (30_encoding.md R127, R133) -/

namespace Sys2Proof

/-- A word whose `op` is an opcode's number decodes to the instruction that opcode makes of its fields. -/
theorem decode_of_op {w : Word} (o : Opcode) (hop : (fieldsOfWord w).op = numberOfOpcode o) :
    decode w = .ok (buildInstr (fieldsOfWord w) o) :=
  decode_eq_ok_iff.mpr ⟨by rw [buildInstr_opcode, hop], by rw [buildInstr_opcode]⟩

/-- Settles O10: each word carries its opcode's number, and its fields are the operands; 0 is no opcode's number. -/
theorem definedWordsDecode : Obligations.DefinedWordsDecode := by
  unfold Obligations.DefinedWordsDecode
  exact ⟨decode_of_op .movi rfl, decode_of_op .add rfl, decode_of_op .movi rfl, decode_of_op .movs rfl,
    decode_of_op .cmp rfl, decode_of_op .jl rfl, decode_of_op .not rfl, decode_of_op .halt rfl,
    decode_of_op .writeScreen rfl, decode_of_op .jmpi rfl, decode_of_op .halt rfl, decode_of_op .jmp rfl,
    decode_of_op .cmp rfl, decode_of_op .not rfl, rfl⟩

/-- The number of an opcode is one of the map's 28. -/
theorem numberOfOpcode_mem (o : Opcode) : (numberOfOpcode o).toNat ∈ opcodeMap.map fun r => r.1.toNat := by
  cases o <;> decide

/-- A word whose `op` is none of the 28 numbers does not decode (30_encoding.md R133). -/
theorem exists_decode_error {w : Word} (h : (fieldsOfWord w).op.toNat ∉ opcodeMap.map fun r => r.1.toNat) :
    ∃ e, decode w = .error e := by
  cases hdecode : decode w with
  | error e => exact ⟨e, rfl⟩
  | ok i =>
    obtain ⟨hop, -⟩ := decode_eq_ok_iff.mp hdecode
    exact absurd (hop ▸ numberOfOpcode_mem i.opcode) h

end Sys2Proof

/-! ## Conditions of the fetch, of DIV and of a read -/

namespace Sys2Proof.Machine

/-! ### Accesses that raise -/

/-- A read that raises ends the meaning it stands in with the address recorded (60_exceptions.md R236, R241). -/
theorem State.load_exhausted {s : State} {a va : Addr} {st : Storage}
    (h : memRead s.config s.storage a = .exhausted va st) (k : Word → State → Result) :
    s.load a k = .next ((s.withStorage st).raise .addressTranslationExhausted va) := by
  rw [State.load, h, State.afterAccess_exhausted]

/-- A write that raises does the same. -/
theorem State.store_exhausted {s : State} {a va : Addr} {v : Word} {st : Storage}
    (h : memWrite s.config s.storage a v = .exhausted va st) (k : State → Result) :
    s.store a v k = .next ((s.withStorage st).raise .addressTranslationExhausted va) := by
  rw [State.store, h, State.afterAccess_exhausted]

/-- A read that raises changes no byte (20_memory.md R97). -/
theorem memRead_exhausted {cfg : Config} (hcfg : legalConfig cfg = true) {st st' : Storage} (hw : st.wf cfg)
    {a va : Addr} (h : memRead cfg st a = .exhausted va st') : ∀ c, st'.memory.peek c = st.memory.peek c := by
  obtain ⟨-, hpeek⟩ := memRead_final hcfg hw a
  rwa [h] at hpeek

/-! ### The fetch -/

/-- A word that does not decode is recorded (30_encoding.md R133). -/
theorem runWord_of_error {w : Word} {e : DecodeError} (h : decode w = .error e) (s s' : State) :
    runWord s w s' = .next (s'.raise .invalidOpcode w) := by
  simp only [runWord, h]

/-- Settles O9: a word with no opcode's number does not decode; a fetch is a read. -/
theorem fetchAndDecodeConditions : Obligations.FetchAndDecodeConditions := by
  unfold Obligations.FetchAndDecodeConditions
  refine ⟨rfl, rfl, fun s w st hcfg hrun hfetch hop => ?_, fun s va st hcfg hrun hfetch => ?_⟩
  · obtain ⟨e, hdecode⟩ := exists_decode_error (w := w) hop
    rw [step_running hcfg hrun, State.fetch, State.load_ok hfetch, runWord_of_error hdecode]
    rfl
  · rw [step_running hcfg hrun, State.fetch, State.load_exhausted hfetch]
    rfl

/-! ### DIV -/

/-- DIV keeps every field of its word, so the word is recovered from it (log 9). -/
theorem encode_of_decode_div {w : Word} {rd rs1 rs2 : RegField} {p : Payload} (h : decode w = .ok (.div rd rs1 rs2 p)) :
    encode (.div rd rs1 rs2 p) = w :=
  (encode_of_decode h).trans (wordOfFields_fieldsOfWord w)

/-- DIV on legal fields and a divisor of zero raises with its word (40_arithmetic.md R163). -/
theorem execDiv_field_zero (d a b : Reg) (p : Payload) {s : State} (hb : s.x[b] = 0) :
    execDiv d.field a.field b.field p s =
      .next (s.raise .divisionByZero (encode (.div d.field a.field b.field p))) := by
  simp only [execDiv, withReg_field]
  exact if_pos hb

/-- Settles O18: the recorded word is the one that was decoded. -/
theorem divByZeroRaises : Obligations.DivByZeroRaises := by
  unfold Obligations.DivByZeroRaises
  refine ⟨rfl, fun w d a b p s hdecode hb => ?_⟩
  rw [exec, execDiv_field_zero d a b p hb, encode_of_decode_div hdecode, State.raise]

/-! ### Loads, pointers and taken indirect jumps -/

section
variable (r : Reg) (p : Payload) {s : State} {va : Addr} {st : Storage}

/-- MOVL whose read raises, and MOVLI and MOVSI whose pointer read does: the register field is legal, and nothing has
happened before the read. -/
theorem withReg_load_exhausted (h : memRead s.config s.storage (p.setWidth 64) = .exhausted va st)
    (k : Reg → Word → State → Result) :
    withReg r.field s (fun d => s.load (directAddress p) (k d)) =
      .next ((s.withStorage st).raise .addressTranslationExhausted va) := by
  rw [withReg_field]
  exact State.load_exhausted h _

/-- A taken indirect jump whose pointer read raises. -/
theorem jumpIndirect_exhausted {taken : Bool} (htaken : taken = true)
    (h : memRead s.config s.storage (p.setWidth 64) = .exhausted va st) :
    jumpIndirect taken p s = .next ((s.withStorage st).raise .addressTranslationExhausted va) := by
  rw [jumpIndirect, if_pos htaken]
  exact State.load_exhausted h _

/-- MOVLI whose data read raises, from the storage the pointer read left. -/
theorem execMovli_data_exhausted {ea : Addr} {st1 : Storage}
    (hptr : memRead s.config s.storage (p.setWidth 64) = .ok ea st1) (h : memRead s.config st1 ea = .exhausted va st) :
    execMovli r.field p s = .next ((s.withStorage st).raise .addressTranslationExhausted va) := by
  rw [execMovli, withReg_field, withPointer, directAddress, State.load_ok hptr]
  exact State.load_exhausted (s := s.withStorage st1) h _

end

/-- Settles O25: each form is its raise on the one read that fails, and a read, failed or not, keeps Memory. -/
theorem readRaisesExhausted : Obligations.ReadRaisesExhausted := by
  unfold Obligations.ReadRaisesExhausted
  intro r p s va st hs
  refine ⟨fun h => ⟨fun i hi => ?_, memRead_exhausted hs.legal hs.storage h⟩, fun ea st1 hptr h => ?_⟩
  · rcases hi with rfl | rfl | rfl | rfl | ⟨rfl, hz⟩ | ⟨rfl, hz⟩ | ⟨rfl, hge⟩ | ⟨rfl, hl⟩
    · rw [exec, execMovl]
      exact withReg_load_exhausted r p h _
    · rw [exec, execMovli]
      exact withReg_load_exhausted r p h _
    · rw [exec, execMovsi]
      exact withReg_load_exhausted r p h _
    · exact jumpIndirect_exhausted p rfl h
    · exact jumpIndirect_exhausted p hz h
    · exact jumpIndirect_exhausted p (Flags.notEqual_eq_true_iff.mpr hz) h
    · exact jumpIndirect_exhausted p (Flags.greaterOrEqual_eq_true_iff.mpr hge) h
    · exact jumpIndirect_exhausted p hl h
  · obtain ⟨hw, hpeek, -⟩ := memRead_ok hs.legal hs.storage hptr
    exact ⟨execMovli_data_exhausted r p hptr h, fun c => (memRead_exhausted hs.legal hw h c).trans (hpeek c)⟩

end Sys2Proof.Machine

/-! ## How a running core halts (10_state.md R28, R29) -/

namespace Sys2Proof.Machine

/-- The conditions a step can record (60_exceptions.md R230, R237: the loader's two are not among them). -/
def coreCauses : List Cause :=
  [.invalidOpcode, .divisionByZero, .registerIndexOutOfRange, .addressTranslationExhausted]

/-- How a step from `s` to `t` writes the run state and the condition record: a condition halts and is recorded;
without one the record stays, and the core halts only if `halts`. -/
inductive RunsOn (halts : Prop) (s t : State) : Prop where
  | condition (run : t.run = .halted) (cause : t.cause ∈ coreCauses)
  | stopped (halt : halts) (run : t.run = .halted) (cause : t.cause = s.cause) (cinfo : t.cinfo = s.cinfo)
  | kept (run : t.run = s.run) (cause : t.cause = s.cause) (cinfo : t.cinfo = s.cinfo)

/-- Of the ways an instruction can end, a taken condition and HALT halt the core. -/
theorem Executed.runsOn {i : Instr} {s t : State} (h : Executed i s t) : RunsOn (i = .halt) s t := by
  cases h with
  | raised acc kind => exact .condition rfl (List.mem_cons_of_mem _ kind)
  | halted halt => exact .stopped halt rfl rfl rfl
  | wrote | advanced | jumped | compared | waited | readChar | emitted => exact .kept rfl rfl rfl

/-- A step of a running core halts it by a condition or by a HALT it fetched. -/
theorem step_runsOn {s t : State} (hrun : s.run = .running) (hstep : step s = .next t) :
    RunsOn (∃ w st, memRead s.config s.storage s.pc = .ok w st ∧ decode w = .ok .halt) s t := by
  rcases step_cases (legalConfig_of_step hstep) with ⟨hhalted, -⟩ | ⟨-, ⟨va, st, -, e⟩ | ⟨w, st, err, -, -, e⟩ |
    ⟨w, st, i, -, -, -, e⟩ | ⟨w, st, i, hfetch, hdecode, -, e⟩⟩
  · rw [hrun] at hhalted
    cases hhalted
  · rw [e] at hstep
    cases hstep
    exact .condition rfl (by simp [coreCauses])
  · rw [e] at hstep
    cases hstep
    exact .condition rfl (by simp [coreCauses])
  · rw [e] at hstep
    cases hstep
    exact .kept rfl rfl rfl
  · rw [e] at hstep
    have hexecuted : Executed i (s.withStorage st) t := exec_cases i _ t hstep
    cases hexecuted.runsOn with
    | condition run cause => exact .condition run cause
    | stopped halt run cause cinfo => exact .stopped ⟨w, st, hfetch, halt ▸ hdecode⟩ run cause cinfo
    | kept run cause cinfo => exact .kept run cause cinfo

/-- The numbers of the conditions a step can record (10_state.md R29). -/
theorem number_of_mem_coreCauses {k : Cause} (h : k ∈ coreCauses) : k.number ∈ [0, 1, 2, 3, 6] ∧ k ≠ .none := by
  revert k
  decide

/-- Settles O38: a running core starts with nothing recorded, so what is recorded afterwards the step recorded. -/
theorem haltsByHaltOrCondition : Obligations.HaltsByHaltOrCondition := by
  unfold Obligations.HaltsByHaltOrCondition
  intro s t hs hrun hstep
  obtain ⟨-, -, -, -, -, hrecord, -⟩ := hs
  obtain ⟨hcause, hcinfo⟩ := hrecord hrun
  cases step_runsOn hrun hstep with
  | condition run cause =>
    obtain ⟨hnumber, hne⟩ := number_of_mem_coreCauses cause
    exact ⟨hnumber, fun _ => .inl hne, by simp [run]⟩
  | stopped halt run cause cinfo =>
    exact ⟨by simp [cause, hcause, Cause.number], fun _ => .inr ⟨cinfo.trans hcinfo, halt⟩, by simp [run]⟩
  | kept run cause cinfo =>
    exact ⟨by simp [cause, hcause, Cause.number], by simp [run, hrun],
      fun _ => ⟨cause.trans hcause, cinfo.trans hcinfo⟩⟩

end Sys2Proof.Machine

/-! ## READ_KEYBOARD (45_io.md R215) -/

namespace Sys2Proof.Machine

/-- A character code of 64 bits is its own register value. -/
theorem charWord_toNat {c : Nat} (h : c < 2 ^ 64) : (charWord c).toNat = c := by
  rw [charWord, if_pos h, BitVec.toNat_ofNat, Nat.mod_eq_of_lt h]

/-- READ_KEYBOARD's completion on a legal register and a waiting character. -/
theorem execReadKeyboard_field (d : Reg) {s : State} {c : Nat} {rest : List Nat} (h : s.cin = c :: rest) :
    execReadKeyboard d.field s = .next { s with x := s.x.set d (charWord c), cin := rest, pc := s.pc + 8 } := by
  rw [execReadKeyboard, withReg_field]
  simp only [h]
  rfl

/-- READ_KEYBOARD on a legal register with no character changes nothing (log 4). -/
theorem execReadKeyboard_field_nil (d : Reg) {s : State} (h : s.cin = []) : execReadKeyboard d.field s = .next s := by
  rw [execReadKeyboard, withReg_field]
  simp only [h]

/-- A legal READ_KEYBOARD waits where no character is. -/
theorem waitsForConsole_readKeyboard (d : Reg) {s : State} (h : s.cin = []) :
    waitsForConsole (.readKeyboard d.field) s = true := by
  simp [waitsForConsole, RegField.legal, h]

/-- A fetched word whose instruction waits leaves the state before the fetch (decision D33). -/
theorem runWord_of_waits {s : State} {w : Word} {i : Instr} (hdecode : decode w = .ok i)
    (hwait : waitsForConsole i s = true) (s' : State) : runWord s w s' = .next s := by
  simp only [runWord, hdecode, hwait, if_true]

/-- Settles O31: with a character READ_KEYBOARD is its completion; without one it waits, and a step that waits leaves
the state before its fetch. -/
theorem readKeyboardTakesFirstOrWaits : Obligations.ReadKeyboardTakesFirstOrWaits := by
  unfold Obligations.ReadKeyboardTakesFirstOrWaits
  refine ⟨fun d s c rest hcin => ⟨charWord c, execReadKeyboard_field d hcin, charWord_toNat⟩,
    fun d s hcin => execReadKeyboard_field_nil d hcin, fun s w st d hcfg hrun hfetch hdecode hcin => ?_⟩
  rw [step_running hcfg hrun, State.fetch, State.load_ok hfetch]
  exact runWord_of_waits hdecode (waitsForConsole_readKeyboard d hcin) _

end Sys2Proof.Machine

/-! ## Bytes placed one after another: image loads and stores that raise -/

namespace Sys2Proof.Machine

/-- `m'` is `m` with the bytes `bs` placed at `a`, `a + 1`, and so on, and no other byte of storage changed. -/
def Placed (bs : List Byte) (a : Addr) (m m' : Memory) : Prop :=
  (∀ i < bs.length, m'.peek (a + BitVec.ofNat 64 i) = bs.getD i 0) ∧
    ∀ c, (∀ i < bs.length, ¬ sameByte c (a + BitVec.ofNat 64 i)) → m'.peek c = m.peek c

/-- Nothing is placed where no byte changes. -/
theorem placed_nil {a : Addr} {m m' : Memory} (h : ∀ c, m'.peek c = m.peek c) : Placed [] a m m' :=
  ⟨fun i hi => absurd hi (Nat.not_lt_zero i), fun c _ => h c⟩

/-- One byte is written and the others are placed behind it: no more than 2^48 bytes meet no byte of storage twice. -/
theorem Placed.cons {b : Byte} {bs : List Byte} {a : Addr} {m m₁ m' : Memory} (hlen : bs.length < 2 ^ 48)
    (hwrite : ∀ c, m₁.peek c = if sameByte c a then b else m.peek c) (h : Placed bs (a + 1) m₁ m') :
    Placed (b :: bs) a m m' := by
  obtain ⟨hplaced, hkept⟩ := h
  simp only [add_ofNat_succ] at hplaced hkept
  have hzero : a + BitVec.ofNat 64 0 = a := BitVec.add_zero a
  refine ⟨fun i hi => ?_, fun c hc => ?_⟩
  · cases i with
    | zero =>
      have hfirst : ∀ i < bs.length, ¬ sameByte a (a + BitVec.ofNat 64 (i + 1)) := fun i hi => by
        have hne := not_sameByte_add a (i := 0) (j := i + 1) (by omega) (by omega) (by omega)
        rwa [hzero] at hne
      rw [hzero, hkept a hfirst, hwrite, if_pos rfl, List.getD_cons_zero]
    | succ i => exact hplaced i (Nat.lt_of_succ_lt_succ hi)
  · have hnot : ¬ sameByte c a := by simpa only [hzero] using hc 0 (Nat.succ_pos _)
    rw [hkept c fun i hi => hc (i + 1) (Nat.succ_lt_succ hi), hwrite, if_neg hnot]

/-! ### The image load (70_reset_and_hazards.md R262) -/

/-- A load of at most 2^48 bytes, pages unbounded, completes and places its bytes. -/
theorem loadImage_placed (bs : List Byte) (a : Addr) {m : Memory} (hm : m.wf) (hlen : bs.length ≤ 2 ^ 48) :
    ∃ m', loadImage none bs a m = .ok () m' ∧ Placed bs a m m' := by
  induction bs generalizing a m with
  | nil => exact ⟨m, rfl, placed_nil fun _ => rfl⟩
  | cons b bs ih =>
    rw [List.length_cons] at hlen
    obtain ⟨m₁, e⟩ := memWriteByte_unbounded m a b
    rcases memWriteByte_spec (maxPages := none) hm a b with ⟨_, e', hwf, hwrite, -⟩ | ⟨_, e', -⟩ <;> rw [e] at e' <;>
      cases e'
    obtain ⟨m', hload, hplaced⟩ := ih (a + 1) hwf (by omega)
    exact ⟨m', by rw [loadImage, e, Access.andThen_ok, hload], hplaced.cons (by omega) hwrite⟩

/-- Settles O46, by induction on the image. -/
theorem imageLoadPlacesBytes : Obligations.ImageLoadPlacesBytes := by
  unfold Obligations.ImageLoadPlacesBytes
  intro bs a m hm hlen
  obtain ⟨m', hload, hplaced, hkept⟩ := loadImage_placed bs a hm hlen
  exact ⟨m', hload, loadImage_wf hm hload, hplaced, hkept⟩

/-! ### Stores that raise (20_memory.md R97, R102) -/

/-- What a write of `bs` at `a` that raises at `va` has done: `i` byte writes are complete, and the next one raised, at
its own address or, with lines longer than a page only, in the fill of its line, its byte placed too. -/
def WriteRaised (cfg : Config) (bs : List Byte) (a va : Addr) (st st' : Storage) : Prop :=
  ∃ i < bs.length, st'.cache.accessCount = st.cache.accessCount + BitVec.ofNat 64 i ∧
    ((va = a + BitVec.ofNat 64 i ∧ Placed (bs.take i) a st.memory st'.memory) ∨
      (pageSize < cfg.lineSize ∧
        (∃ j < cfg.lineSize, va = lineBase cfg (a + BitVec.ofNat 64 i) + BitVec.ofNat 64 j) ∧
        Placed (bs.take (i + 1)) a st.memory st'.memory))

section
variable {cfg : Config} {st st₁ st' : Storage} {a va : Addr} {b : Byte} {bs : List Byte}

/-- A byte write that completes: the form is kept, its byte is written and counted (20_memory.md R88, R95). -/
theorem cacheWrite_ok (hcfg : legalConfig cfg = true) (hw : st.wf cfg) (h : cacheWrite cfg st a b = .ok () st₁) :
    st₁.wf cfg ∧ (∀ c, st₁.memory.peek c = if sameByte c a then b else st.memory.peek c) ∧
      st₁.cache.accessCount = st.cache.accessCount + 1 := by
  refine ⟨Completes.wf (.inr h) hcfg hw, ?_, cacheWrite_count hcfg hw h⟩
  rcases cacheWrite_spec hcfg hw a b with ⟨_, e, -, hpeek, -⟩ | ⟨_, _, e, -⟩ <;> rw [h] at e <;> cases e
  exact hpeek

/-- The first byte write raises. -/
theorem WriteRaised.first (hcfg : legalConfig cfg = true) (hw : st.wf cfg)
    (h : cacheWrite cfg st a b = .exhausted va st') :
    lookupPage st'.memory.top va = none ∧ WriteRaised cfg (b :: bs) a va st st' := by
  have hzero : a + BitVec.ofNat 64 0 = a := BitVec.add_zero a
  obtain ⟨hcache, ⟨rfl, hnone, hkept⟩ | ⟨-, hlong, ⟨j, hj, hva, hnone, -⟩, hwrite⟩⟩ := cacheWrite_exhausted hcfg hw h
  · exact ⟨hnone, 0, Nat.succ_pos _, by simp [hcache], .inl ⟨hzero.symm, placed_nil hkept⟩⟩
  · refine ⟨hnone, 0, Nat.succ_pos _, by simp [hcache], .inr ⟨hlong, ⟨j, hj, hzero.symm ▸ hva⟩, ?_⟩⟩
    exact (placed_nil fun _ => rfl : Placed [] (a + 1) st'.memory st'.memory).cons (by simp) hwrite

/-- A later byte write raises. -/
theorem WriteRaised.cons (hcfg : legalConfig cfg = true) (hw : st.wf cfg) (hlen : bs.length < 2 ^ 48)
    (h : cacheWrite cfg st a b = .ok () st₁) (hrest : WriteRaised cfg bs (a + 1) va st₁ st') :
    WriteRaised cfg (b :: bs) a va st st' := by
  obtain ⟨-, hwrite, hcount⟩ := cacheWrite_ok hcfg hw h
  obtain ⟨i, hi, hcount', hends⟩ := hrest
  have htake : ∀ n, (bs.take n).length < 2 ^ 48 := fun n => (List.length_take_le' n bs).trans_lt hlen
  rw [add_ofNat_succ] at hends
  refine ⟨i + 1, Nat.succ_lt_succ hi, by rw [hcount', hcount, add_ofNat_succ], ?_⟩
  rcases hends with ⟨hva, hplaced⟩ | ⟨hlong, hva, hplaced⟩
  · exact .inl ⟨hva, hplaced.cons (htake i) hwrite⟩
  · exact .inr ⟨hlong, hva, hplaced.cons (htake (i + 1)) hwrite⟩

end

/-- Everything a write of bytes that raises has done. -/
theorem writeBytes_exhausted {cfg : Config} (hcfg : legalConfig cfg = true) (bs : List Byte) (a : Addr) {va : Addr}
    {st st' : Storage} (hlen : bs.length ≤ 2 ^ 48) (hw : st.wf cfg) (h : writeBytes cfg bs a st = .exhausted va st') :
    lookupPage st'.memory.top va = none ∧ WriteRaised cfg bs a va st st' := by
  induction bs generalizing a st with
  | nil => cases h
  | cons b bs ih =>
    rw [List.length_cons] at hlen
    rcases Access.andThen_eq_exhausted h with h | ⟨_, st₁, hfirst, h⟩
    · exact WriteRaised.first hcfg hw h
    · obtain ⟨hw₁, -⟩ := cacheWrite_ok hcfg hw hfirst
      obtain ⟨hnone, hrest⟩ := ih (a + 1) (by omega) hw₁ h
      exact ⟨hnone, hrest.cons hcfg hw (by omega) hfirst⟩

/-- The first bytes of a word, placed. -/
theorem storedBytes_of_placed {st st' : Storage} {a : Addr} {v : Word} {n : Nat} (hn : n ≤ 8)
    (h : Placed ((bytesOfWord v).take n) a st.memory st'.memory) : StoredBytes st st' a v n := by
  have hlen : ((bytesOfWord v).take n).length = n := by rw [List.length_take, bytesOfWord_length, Nat.min_eq_left hn]
  obtain ⟨hplaced, hkept⟩ := h
  rw [hlen] at hplaced hkept
  refine ⟨fun k hk => ?_, hkept⟩
  rw [hplaced k hk, ← bytesOfWord_getD v (hk.trans_le hn), List.getD_eq_getElem?_getD, List.getElem?_take_of_lt hk,
    List.getD_eq_getElem?_getD]

/-- Everything a store that raises has done: its address has no page, and the bytes before are stored. -/
theorem memWrite_exhausted {cfg : Config} (hcfg : legalConfig cfg = true) {st st' : Storage} (hw : st.wf cfg)
    {a va : Addr} {v : Word} (h : memWrite cfg st a v = .exhausted va st') :
    lookupPage st'.memory.top va = none ∧ StoreRaised cfg st st' a va v := by
  obtain ⟨hnone, i, hi, hcount, hends⟩ := writeBytes_exhausted hcfg (bytesOfWord v) a (by simp) hw h
  rw [bytesOfWord_length] at hi
  refine ⟨hnone, i, hi, hcount, ?_⟩
  rcases hends with ⟨hva, hplaced⟩ | ⟨hlong, hva, hplaced⟩
  · exact .inl ⟨hva, storedBytes_of_placed hi.le hplaced⟩
  · exact .inr ⟨hlong, hva, storedBytes_of_placed hi hplaced⟩

section
variable (a : Reg) (p : Payload) {s : State} {va : Addr} {st : Storage}

/-- MOVS whose write raises. -/
theorem execMovs_exhausted (h : memWrite s.config s.storage (p.setWidth 64) s.x[a] = .exhausted va st) :
    execMovs a.field p s = .next ((s.withStorage st).raise .addressTranslationExhausted va) := by
  rw [execMovs, withReg_field]
  exact State.store_exhausted h _

/-- MOVSI whose write raises, from the storage the pointer read left. -/
theorem execMovsi_exhausted {ea : Addr} {st₁ : Storage}
    (hptr : memRead s.config s.storage (p.setWidth 64) = .ok ea st₁)
    (h : memWrite s.config st₁ ea s.x[a] = .exhausted va st) :
    execMovsi a.field p s = .next ((s.withStorage st).raise .addressTranslationExhausted va) := by
  rw [execMovsi, withReg_field, withPointer, directAddress, State.load_ok hptr]
  exact State.store_exhausted (s := s.withStorage st₁) h _

end

/-- Settles O26: each form is its raise on the one write that fails, and MOVSI's write starts from the well-formed
storage its pointer read left. -/
theorem storeRaiseKeepsEarlierBytes : Obligations.StoreRaiseKeepsEarlierBytes := by
  unfold Obligations.StoreRaiseKeepsEarlierBytes
  intro a p s va st hs
  refine ⟨fun h => ?_, fun ea st₁ hptr h => ?_⟩
  · exact ⟨execMovs_exhausted a p h, memWrite_exhausted hs.legal hs.storage h⟩
  · obtain ⟨hw, -⟩ := memRead_ok hs.legal hs.storage hptr
    exact ⟨execMovsi_exhausted a p hptr h, memWrite_exhausted hs.legal hw h⟩

end Sys2Proof.Machine

/-! ## Hazards (70_reset_and_hazards.md R265, R266) -/

namespace Sys2Proof.Machine

/-! ### One byte under two addresses (R265) -/

section
variable {cfg : Config} {st st' : Storage} {a : Addr}

/-- In a hierarchy in its form a base names one line (20_memory.md R85). -/
theorem line_eq_of_base_eq (hw : st.wf cfg) {d e : Line} (hd : d ∈ st.cache.lines) (he : e ∈ st.cache.lines)
    (h : d.base = e.base) : d = e := by
  obtain ⟨-, ⟨-, -, -, hnodup⟩, -⟩ := hw
  exact List.inj_on_of_nodup_map hnodup hd he h

/-- A read of a cached line completes and answers the line's byte, whatever Memory holds. -/
theorem cacheRead_of_mem (hw : st.wf cfg) {e : Line} (he : e ∈ st.cache.lines) (hbase : e.base = lineBase cfg a) :
    ∃ st', cacheRead cfg st a = .ok (e.byteAt (lineOffset cfg a)) st' := by
  obtain ⟨p, d, hl⟩ := exists_lookupLine_of_cached fun hn => hn e he hbase
  obtain ⟨lvl, hlvl, hfind⟩ := level_of_lookupFrom hl
  have hd : d ∈ st.cache.lines :=
    List.mem_flatten.mpr ⟨lvl, List.mem_of_getElem? hlvl, List.mem_of_find?_eq_some hfind⟩
  obtain rfl := line_eq_of_base_eq hw hd he ((base_of_lookupLine hl).trans hbase.symm)
  exact ⟨_, cacheRead_of_found hl⟩

/-- A write changes and brings no line but its own address's. -/
theorem cacheWrite_other_line (hcfg : legalConfig cfg = true) (hw : st.wf cfg) {b : Byte}
    (h : cacheWrite cfg st a b = .ok () st') {d : Line} (hd : d ∈ st'.cache.lines) (hbase : d.base ≠ lineBase cfg a) :
    d ∈ st.cache.lines := by
  rcases cacheWrite_spec hcfg hw a b with ⟨_, e, -, -, ⟨x, -, hx, hlines, -⟩ | ⟨-, hlines, -⟩⟩ | ⟨_, _, e, -⟩ <;>
    rw [h] at e <;> cases e
  · rcases hlines d hd with ⟨hd, -⟩ | rfl
    · exact hd
    · exact absurd hx hbase
  · rcases hlines d hd with hd | ⟨hd, -⟩
    · exact hd
    · exact absurd hd hbase

end

/-- Settles O56: the write leaves the other line as it was, and a read of a cached line answers the line's byte. -/
theorem aliasHazardStaleRead : Obligations.AliasHazardStaleRead := by
  unfold Obligations.AliasHazardStaleRead
  intro s a1 a2 b st e hs hsame hlines he hbase hwrite hcached
  obtain ⟨d, hd, hdbase⟩ := hcached
  have hother : d.base ≠ lineBase s.config a1 := fun h => hlines (h.symm.trans (hdbase.trans hbase))
  obtain rfl : d = e :=
    line_eq_of_base_eq hs.storage (cacheWrite_other_line hs.legal hs.storage hwrite hd hother) he hdbase
  obtain ⟨hw, hpeek, -⟩ := cacheWrite_ok hs.legal hs.storage hwrite
  exact ⟨cacheRead_of_mem hw hd hbase, (hpeek a2).trans (if_pos hsame.symm)⟩

/-! ### A stored value is seen next -/

/-- An 8-byte write settles its bytes, so the read that follows answers its value, whatever the cache holds
(20_memory.md R105). -/
theorem memRead_after_memWrite {cfg : Config} (hcfg : legalConfig cfg = true) (hcap : cfg.maxPages = none)
    {st st' : Storage} (hw : st.wf cfg) {a : Addr} {v : Word} (h : memWrite cfg st a v = .ok () st') :
    ∃ st'', memRead cfg st' a = .ok v st'' := by
  rcases writeBytes_spec hcfg (bytesOfWord v) a (by simp) hw with ⟨_, e, hw', hsettled, -⟩ | ⟨_, _, _, e, -⟩ <;>
    rw [show writeBytes _ _ _ _ = _ from h] at e <;> cases e
  obtain ⟨bs, st'', hread⟩ := readBytes_unbounded hcap 8 a st'
  have hbytes : bs = (List.range 8).map fun i => (bytesOfWord v).getD i 0 :=
    readBytes_settled hcfg hw' hsettled hread
  have hword : wordOfBytes bs = v := hbytes ▸ wordOfBytes_bytesOfWord v
  exact ⟨st'', by rw [memRead, hread, Access.andThen_ok, hword]⟩

/-- Settles O58: the state after MOVS holds the write's storage, and MOVL and the fetch read the value back from it. -/
theorem storedValueSeenNext : Obligations.StoredValueSeenNext := by
  unfold Obligations.StoredValueSeenNext
  intro a d p s t hs hcap hexec
  obtain ⟨st, hwrite⟩ := memWrite_unbounded hcap s.storage (p.setWidth 64) s.x[a]
  rw [exec, execMovs_field a p hwrite] at hexec
  cases hexec
  obtain ⟨st', hread⟩ := memRead_after_memWrite hs.legal hcap hs.storage hwrite
  refine ⟨⟨st', execMovl_field d p hread⟩, fun hpc hrun i hdecode hwait => ⟨st', ?_⟩⟩
  exact stepRunsDecodedInstruction _ s.x[a] st' i hs.legal hrun (hpc ▸ hread) hdecode hwait

end Sys2Proof.Machine
